-- ==== Sys2Proof/Word.lean ====
section
/-! DEFINITION. The widths of the block: byte, word, command and response word (00_scope.md R8, 30_encoding.md R92). -/

namespace Sys2Proof

/-- "A byte is 8 bits" (00_scope.md R8). -/
abbrev Byte := BitVec 8

/-- "A word is 16 bits" (00_scope.md R8): registers, raw words, values, pixels, device addresses. -/
abbrev Word := BitVec 16

/-- A command or a response as it stands on its channel (30_encoding.md R92, R93). -/
abbrev Word32 := BitVec 32

end Sys2Proof
end

