-- ==== Sys2Proof/Syntax.lean ====
section
/-! DEFINITION. The thirteen commands (30_encoding.md R96), their assembler spelling (R100) and the
pseudo-commands (R101). -/

namespace Sys2Proof

/-- One constructor per row of spec/opcode_table.json, operands in the order of 30_encoding.md R96. Counts, indices and
rows are unsigned numbers (R95); a column is "any of 0..31" (R94). -/
inductive Instr where
  /-- `BRD addr, n` (R126). -/
  | brd (addr : Word) (n : Nat)
  /-- `BWR addr, n` (R127). -/
  | bwr (addr : Word) (n : Nat)
  /-- `DEC n` (R143). -/
  | dec (n : Nat)
  /-- `ENC n` (R144). -/
  | enc (n : Nat)
  /-- `RDREG addr` (R162). -/
  | rdreg (addr : Word)
  /-- `WRREG addr` (R163). -/
  | wrreg (addr : Word)
  /-- `INIT` (R171). -/
  | init
  /-- `POLL` (R178). -/
  | poll
  /-- `CAPTURE` (R183). -/
  | capture
  /-- `LDX i, v` (R200). -/
  | ldx (i : Nat) (v : Word)
  /-- `RDX i` (R201). -/
  | rdx (i : Nat)
  /-- `RDFB r, c` (R202). -/
  | rdfb (r : Nat) (c : Fin 32)
  /-- `RDCSR i` (R203). -/
  | rdcsr (i : Nat)
  deriving DecidableEq, Repr

/-- The mnemonic of 30_encoding.md R96. -/
def Instr.mnemonic : Instr → String
  | .brd _ _ => "BRD"
  | .bwr _ _ => "BWR"
  | .dec _ => "DEC"
  | .enc _ => "ENC"
  | .rdreg _ => "RDREG"
  | .wrreg _ => "WRREG"
  | .init => "INIT"
  | .poll => "POLL"
  | .capture => "CAPTURE"
  | .ldx _ _ => "LDX"
  | .rdx _ => "RDX"
  | .rdfb _ _ => "RDFB"
  | .rdcsr _ => "RDCSR"

/-- The operands in the order of 30_encoding.md R96. -/
def Instr.operands : Instr → List Nat
  | .brd addr n | .bwr addr n => [addr.toNat, n]
  | .dec n | .enc n => [n]
  | .rdreg addr | .wrreg addr => [addr.toNat]
  | .init | .poll | .capture => []
  | .ldx i v => [i, v.toNat]
  | .rdx i | .rdcsr i => [i]
  | .rdfb r c => [r, c.val]

/-- The assembler line of 30_encoding.md R100, numbers in decimal. -/
def Instr.assembly (i : Instr) : String :=
  match i.operands with
  | [] => i.mnemonic
  | ops => i.mnemonic ++ " " ++ ", ".intercalate (ops.map toString)

/-- The families of 30_encoding.md R96: "the high nibble of `op` is the family". -/
inductive Family where
  | transport | codec | registerAccess | controller | hostAccess
  deriving DecidableEq, Repr

/-- The family of each command (30_encoding.md R96). -/
def Instr.family : Instr → Family
  | .brd _ _ | .bwr _ _ => .transport
  | .dec _ | .enc _ => .codec
  | .rdreg _ | .wrreg _ => .registerAccess
  | .init | .poll | .capture => .controller
  | .ldx _ _ | .rdx _ | .rdfb _ _ | .rdcsr _ => .hostAccess

/-- The document's own name of a command, accepted in its place (30_encoding.md R101). -/
def Instr.documentName : Instr → Option String
  | .brd _ _ => some "read"
  | .bwr _ _ => some "write"
  | .dec _ => some "decode"
  | .enc _ => some "encode"
  | .init => some "initialize"
  | .poll => some "has_new_frame"
  | .capture => some "capture"
  | .rdreg _ | .wrreg _ | .ldx _ _ | .rdx _ | .rdfb _ _ | .rdcsr _ => none

/-- The document's `write(address, words)`: "`LDX` for each word, then `BWR address, count`" (30_encoding.md R101). -/
def documentWrite (addr : Word) (ws : List Word) : List Instr :=
  ws.zipIdx.map (fun p => .ldx p.2 p.1) ++ [.bwr addr ws.length]

/-- Pseudo-command `NOP` (30_encoding.md R101). -/
def pseudoNop : List Instr := [.dec 0]

/-- Pseudo-command `SETREG addr, v` (30_encoding.md R101). -/
def pseudoSetreg (addr v : Word) : List Instr := [.ldx 0 v, .wrreg addr]

/-- Pseudo-command `GETROW r` (30_encoding.md R101), given `FRAME_BASE + r*ROW_STRIDE`. -/
def pseudoGetrow (rowAddress : Word) : List Instr := [.brd rowAddress 32, .dec 32]

/-- Pseudo-command `ACQUIRE` (30_encoding.md R101). -/
def pseudoAcquire : List Instr := [.poll, .capture]

end Sys2Proof
end

