-- ==== Sys2Proof/WellFormed.lean ====
section
/-! DEFINITION. Which instructions a command word can carry: a count, index or row fits the 8-bit field `a`
(30_encoding.md R92, R95). A value outside the RANGE column of R94 is well formed and raises BAD_OPERAND. -/

namespace Sys2Proof

/-- The value fits the 8-bit operand `a` (30_encoding.md R92). -/
def fitsA (k : Nat) : Bool := decide (k < 256)

/-- Well-formed: the instruction has a command word. -/
def Instr.wf : Instr → Bool
  | .brd _ n => fitsA n
  | .bwr _ n => fitsA n
  | .dec n => fitsA n
  | .enc n => fitsA n
  | .rdreg _ => true
  | .wrreg _ => true
  | .init => true
  | .poll => true
  | .capture => true
  | .ldx i _ => fitsA i
  | .rdx i => fitsA i
  | .rdfb r _ => fitsA r
  | .rdcsr i => fitsA i

end Sys2Proof
end

