-- ==== Sys2Proof/Decode.lean ====
section
/-! DEFINITION. The decoder of command words, total, rejecting by name (30_encoding.md R92 to R97), and the encoder. -/

namespace Sys2Proof

/-- Why a word is no command (30_encoding.md R97). Either way the command raises ILLEGAL_CMD. -/
inductive DecodeReject where
  /-- "its `op` is not one of the thirteen". -/
  | unknownOpcode
  /-- "a field its sub-format says must be zero is not zero". -/
  | nonzeroField
  deriving DecidableEq, Repr

/-- Field `op`, bits 31:24 (30_encoding.md R92). -/
def opField (w : Word32) : Byte := w.extractLsb' 24 8

/-- Field `a`, bits 23:16 (30_encoding.md R92). -/
def aField (w : Word32) : Byte := w.extractLsb' 16 8

/-- Field `imm`, bits 15:0 (30_encoding.md R92). -/
def immField (w : Word32) : Word := w.extractLsb' 0 16

/-- Bits 15:5 of `imm`, which sub-format RC requires to be zero (30_encoding.md R94). -/
def immHighField (w : Word32) : BitVec 11 := w.extractLsb' 5 11

/-- The column `c = imm[4:0]` of sub-format RC (30_encoding.md R94). -/
def columnField (w : Word32) : Fin 32 := ⟨(w.extractLsb' 0 5).toNat, (w.extractLsb' 0 5).isLt⟩

/-- The instruction when the must-be-zero fields are zero, else the rejection (30_encoding.md R97). -/
def whenZero (mustBeZero : Bool) (i : Instr) : Except DecodeReject Instr :=
  if mustBeZero then .ok i else .error .nonzeroField

/-- The decoder: sub-formats of 30_encoding.md R94, opcode map of R96, illegal words of R97. -/
def decode (w : Word32) : Except DecodeReject Instr :=
  match (opField w).toNat with
  | 0x10 => .ok (.brd (immField w) (aField w).toNat)
  | 0x11 => .ok (.bwr (immField w) (aField w).toNat)
  | 0x20 => whenZero (immField w == 0) (.dec (aField w).toNat)
  | 0x21 => whenZero (immField w == 0) (.enc (aField w).toNat)
  | 0x30 => whenZero (aField w == 0) (.rdreg (immField w))
  | 0x31 => whenZero (aField w == 0) (.wrreg (immField w))
  | 0x40 => whenZero (aField w == 0 && immField w == 0) .init
  | 0x41 => whenZero (aField w == 0 && immField w == 0) .poll
  | 0x42 => whenZero (aField w == 0 && immField w == 0) .capture
  | 0x50 => .ok (.ldx (aField w).toNat (immField w))
  | 0x51 => whenZero (immField w == 0) (.rdx (aField w).toNat)
  | 0x52 => whenZero (immHighField w == 0) (.rdfb (aField w).toNat (columnField w))
  | 0x53 => whenZero (immField w == 0) (.rdcsr (aField w).toNat)
  | _ => .error .unknownOpcode

/-- The word with fields `op`, `a`, `imm` (30_encoding.md R92). -/
def commandWord (op a : Byte) (imm : Word) : Word32 := op ++ a ++ imm

/-- The opcode of 30_encoding.md R96. -/
def opcodeOf : Instr → Byte
  | .brd _ _ => 0x10
  | .bwr _ _ => 0x11
  | .dec _ => 0x20
  | .enc _ => 0x21
  | .rdreg _ => 0x30
  | .wrreg _ => 0x31
  | .init => 0x40
  | .poll => 0x41
  | .capture => 0x42
  | .ldx _ _ => 0x50
  | .rdx _ => 0x51
  | .rdfb _ _ => 0x52
  | .rdcsr _ => 0x53

/-- Operand `a` by sub-format (30_encoding.md R94). -/
def aOperandOf : Instr → Nat
  | .brd _ n | .bwr _ n | .dec n | .enc n => n
  | .ldx i _ | .rdx i | .rdcsr i => i
  | .rdfb r _ => r
  | .rdreg _ | .wrreg _ | .init | .poll | .capture => 0

/-- Operand `imm` by sub-format (30_encoding.md R94). -/
def immOperandOf : Instr → Word
  | .brd addr _ | .bwr addr _ | .rdreg addr | .wrreg addr => addr
  | .ldx _ v => v
  | .rdfb _ c => BitVec.ofNat 16 c.val
  | .dec _ | .enc _ | .init | .poll | .capture | .rdx _ | .rdcsr _ => 0

/-- The word of a well-formed instruction (30_encoding.md R92, R94, R96). -/
def encode (i : Instr) : Word32 := commandWord (opcodeOf i) (BitVec.ofNat 8 (aOperandOf i)) (immOperandOf i)

/-- A row of the opcode map: mask and match (30_encoding.md R94, R96). -/
structure OpcodeRow where
  mask : Word32
  pattern : Word32
  deriving DecidableEq, Repr

/-- The mask of 30_encoding.md R94 and the match of R96, row by row. -/
def opcodeRows : List OpcodeRow :=
  [⟨0xFF000000, 0x10000000⟩, ⟨0xFF000000, 0x11000000⟩, ⟨0xFF00FFFF, 0x20000000⟩, ⟨0xFF00FFFF, 0x21000000⟩,
   ⟨0xFFFF0000, 0x30000000⟩, ⟨0xFFFF0000, 0x31000000⟩, ⟨0xFFFFFFFF, 0x40000000⟩, ⟨0xFFFFFFFF, 0x41000000⟩,
   ⟨0xFFFFFFFF, 0x42000000⟩, ⟨0xFF000000, 0x50000000⟩, ⟨0xFF00FFFF, 0x51000000⟩, ⟨0xFF00FFE0, 0x52000000⟩,
   ⟨0xFF00FFFF, 0x53000000⟩]

/-- What the decoder reads from an instruction whose bits are `w`, bit 0 the least significant of its one 32-bit word. -/
def decodeTableWord (nbits w : Nat) : Option Instr :=
  match decode (BitVec.ofNat 32 (w % 2 ^ nbits)) with
  | .ok i => some i
  | .error _ => none

end Sys2Proof
end

