-- ==== Sys2Proof/Config.lean ====
section
/-! DEFINITION. Parameters of the block (00_scope.md R6, R7) and the one free value (10_state.md R37).
The fixed sizes IMG_HEIGHT = 24, IMG_WIDTH = 32, XBUF_WORDS = 32, SUBPAGE_STEP = 2 of R6 and R7 stand as numerals
where they are used. -/

namespace Sys2Proof

/-- A field of a packed register: its least significant bit and its width (41_register_codec.md section 3). -/
structure Field where
  lsb : Nat
  width : Nat
  deriving DecidableEq, Repr

/-- The field lies inside bits 15 to 0 (00_scope.md R7). -/
abbrev Field.InWord (f : Field) : Prop := f.lsb + f.width ≤ 16

/-- The two fields share no bit (00_scope.md R7). -/
abbrev Field.Disjoint (f g : Field) : Prop := f.lsb + f.width ≤ g.lsb ∨ g.lsb + g.width ≤ f.lsb

/-- CFG_LAYOUT: the seven fields of the Configuration Register (10_state.md R30, R31). -/
structure CfgLayout where
  subpageEn : Field
  dataHold : Field
  subpageRepeat : Field
  selectSubpage : Field
  refresh : Field
  resolution : Field
  chess : Field
  deriving DecidableEq, Repr

/-- The fields in the document's order (10_state.md R30). -/
def CfgLayout.fields (l : CfgLayout) : List Field :=
  [l.subpageEn, l.dataHold, l.subpageRepeat, l.selectSubpage, l.refresh, l.resolution, l.chess]

/-- The constraints of 00_scope.md R7: widths of R30, inside the word, pairwise disjoint. -/
abbrev CfgLayout.Valid (l : CfgLayout) : Prop :=
  l.fields.map Field.width = [1, 1, 1, 3, 3, 2, 1] ∧ (∀ f ∈ l.fields, f.InWord) ∧ l.fields.Pairwise Field.Disjoint

/-- STAT_LAYOUT: the three fields of the Status Register (10_state.md R34). -/
structure StatLayout where
  subpage : Field
  newData : Field
  endOverwrite : Field
  deriving DecidableEq, Repr

/-- The fields in the order of 10_state.md R34. -/
def StatLayout.fields (l : StatLayout) : List Field := [l.subpage, l.newData, l.endOverwrite]

/-- The constraints of 00_scope.md R7: widths of R34, inside the word, pairwise disjoint. -/
abbrev StatLayout.Valid (l : StatLayout) : Prop :=
  l.fields.map Field.width = [3, 1, 1] ∧ (∀ f ∈ l.fields, f.InWord) ∧ l.fields.Pairwise Field.Disjoint

/-- The parameters the document leaves OPEN (00_scope.md R7). The machine carries them as fixed data (log 12):
a claim about every state is a claim about every choice of them. -/
structure Params where
  /-- DEV_ADDR, the 7-bit device address. -/
  devAddr : BitVec 7
  /-- ADDR_STATUS. -/
  addrStatus : Word
  /-- ADDR_CONFIG. -/
  addrConfig : Word
  /-- FRAME_BASE. -/
  frameBase : Word
  cfgLayout : CfgLayout
  statLayout : StatLayout
  /-- REFRESH_DEFAULT, a code 0..7. -/
  refreshDefault : BitVec 3
  deriving DecidableEq, Repr

/-- The constraints every choice of the layouts must meet (00_scope.md R7). -/
abbrev Params.Valid (p : Params) : Prop := p.cfgLayout.Valid ∧ p.statLayout.Valid

/-- The default layout of the Configuration Register (10_state.md R31). PRESUMED by the spec (log 13). -/
def CfgLayout.default : CfgLayout where
  subpageEn := ⟨0, 1⟩
  dataHold := ⟨2, 1⟩
  subpageRepeat := ⟨3, 1⟩
  selectSubpage := ⟨4, 3⟩
  refresh := ⟨7, 3⟩
  resolution := ⟨10, 2⟩
  chess := ⟨12, 1⟩

/-- The default layout of the Status Register (10_state.md R34). PRESUMED by the spec (log 13). -/
def StatLayout.default : StatLayout where
  subpage := ⟨0, 3⟩
  newData := ⟨3, 1⟩
  endOverwrite := ⟨4, 1⟩

/-- The defaults of 00_scope.md R7. PRESUMED by the spec (log 13). -/
def Params.default : Params where
  devAddr := 0x33
  addrStatus := 0x8000
  addrConfig := 0x800D
  frameBase := 0x0400
  cfgLayout := .default
  statLayout := .default
  refreshDefault := 7

namespace Config

/-- ROW_STRIDE (00_scope.md R7, decided equal to IMG_WIDTH). -/
def rowStride : Nat := 32

/-- RES_DEFAULT (00_scope.md R6): "resolution = maximum code" of 0..3. -/
def resDefault : BitVec 2 := 3

/-- SELECT_DEFAULT (00_scope.md R7). -/
def selectDefault : BitVec 3 := 0

/-- CFG_RESERVED_DEFAULT (00_scope.md R7): 0 in every reserved bit. -/
def cfgReservedDefault : Word := 0

/-- SETTLE_MS (00_scope.md R6). Timing only: no meaning reads it (43_sensor_controller.md R172, log 15). -/
def settleMs : Nat := 80

/-- BUS_HZ (00_scope.md R7), OPEN and without a default. No meaning reads it (log 15). -/
opaque busHz : Nat

/-- ELAPSED_TICK (00_scope.md R7), OPEN and without a default. No meaning reads it (log 15). -/
opaque elapsedTick : Nat

/-- The free value `draw(16)` of ELAPSED (10_state.md R37): the `k`-th draw. Nothing constrains it (log 11). -/
opaque elapsedDraw : Nat → Word

end Config
end Sys2Proof
end

