-- ==== Sys2Proof/Machine/Bits.lean ====
section
/-! DEFINITION. Bytes of a word and the swap (20_memory.md R65, 41_register_codec.md R140). -/

namespace Sys2Proof.Machine

/-- `v[15:8]`. -/
def highByte (v : Word) : Byte := v.extractLsb' 8 8

/-- `v[7:0]`. -/
def lowByte (v : Word) : Byte := v.extractLsb' 0 8

/-- `{hi, lo}` (00_scope.md R8). -/
def joinBytes (hi lo : Byte) : Word := hi ++ lo

/-- `swap16(v) = {v[7:0], v[15:8]}` (41_register_codec.md R140). -/
def swap16 (v : Word) : Word := joinBytes (lowByte v) (highByte v)

/-- `decode(raw) = swap16(raw)` (41_register_codec.md R141). -/
def codecDecode (raw : Word) : Word := swap16 raw

/-- `encode(v) = swap16(v)` (41_register_codec.md R142). -/
def codecEncode (v : Word) : Word := swap16 v

/-- The raw words of received bytes: "first byte low" (40_bus_transport.md R122, 20_memory.md R65). -/
def rawWords : List Byte → List Word
  | b0 :: b1 :: rest => joinBytes b1 b0 :: rawWords rest
  | _ => []

/-- The bytes of raw words in wire order: "low byte of the raw word first" (40_bus_transport.md R124). -/
def rawBytes : List Word → List Byte
  | [] => []
  | w :: rest => lowByte w :: highByte w :: rawBytes rest

end Sys2Proof.Machine
end

