-- ==== Sys2Proof/Machine/Flags.lean ====
section
/-! DEFINITION. The block has no flag register (10_state.md R25); its flag-like state is the has-new-data bit of a packed
register. The field functions on packed registers (41_register_codec.md R146 to R149) and CFG_DEFAULT (10_state.md R32). -/

namespace Sys2Proof.Machine

/-- `mask_f = ((1 << width_f) - 1) << lsb_f` (41_register_codec.md section 3). -/
def maskOf (f : Field) : Word := BitVec.ofNat 16 ((2 ^ f.width - 1) <<< f.lsb)

/-- `get(w, f) = (w & mask_f) >> lsb_f` (41_register_codec.md R146). -/
def getField (w : Word) (f : Field) : Word := (w &&& maskOf f) >>> f.lsb

/-- `set(w, f, v) = (w & ~mask_f) | ((v << lsb_f) & mask_f)` (41_register_codec.md R147). -/
def setField (w : Word) (f : Field) (v : Word) : Word := (w &&& ~~~(maskOf f)) ||| ((v <<< f.lsb) &&& maskOf f)

/-- The record of `cfg_unpack` (41_register_codec.md R148), each field at its width (10_state.md R30). -/
structure CfgRecord where
  subpageEn : BitVec 1
  dataHold : BitVec 1
  subpageRepeat : BitVec 1
  selectSubpage : BitVec 3
  refresh : BitVec 3
  resolution : BitVec 2
  chess : BitVec 1
  reserved : Word
  deriving DecidableEq, Repr

/-- CFG_RESERVED_MASK: the bits of no field (10_state.md R31). -/
def cfgReservedMask (l : CfgLayout) : Word :=
  ~~~(maskOf l.subpageEn ||| maskOf l.dataHold ||| maskOf l.subpageRepeat ||| maskOf l.selectSubpage |||
    maskOf l.refresh ||| maskOf l.resolution ||| maskOf l.chess)

/-- `cfg_unpack(w)` (41_register_codec.md R148). -/
def cfgUnpack (l : CfgLayout) (w : Word) : CfgRecord where
  subpageEn := (getField w l.subpageEn).setWidth 1
  dataHold := (getField w l.dataHold).setWidth 1
  subpageRepeat := (getField w l.subpageRepeat).setWidth 1
  selectSubpage := (getField w l.selectSubpage).setWidth 3
  refresh := (getField w l.refresh).setWidth 3
  resolution := (getField w l.resolution).setWidth 2
  chess := (getField w l.chess).setWidth 1
  reserved := w &&& cfgReservedMask l

/-- `cfg_pack(rec)`: `rec.reserved` with the seven fields inserted (41_register_codec.md R148). -/
def cfgPack (l : CfgLayout) (r : CfgRecord) : Word :=
  let w1 := setField r.reserved l.subpageEn (r.subpageEn.setWidth 16)
  let w2 := setField w1 l.dataHold (r.dataHold.setWidth 16)
  let w3 := setField w2 l.subpageRepeat (r.subpageRepeat.setWidth 16)
  let w4 := setField w3 l.selectSubpage (r.selectSubpage.setWidth 16)
  let w5 := setField w4 l.refresh (r.refresh.setWidth 16)
  let w6 := setField w5 l.resolution (r.resolution.setWidth 16)
  setField w6 l.chess (r.chess.setWidth 16)

/-- The fields of CFG_DEFAULT: "subpage mode enabled, data-hold disabled, subpage-repeat disabled, refresh-rate =
fastest supported code, resolution = maximum code, chessboard pattern disabled" (10_state.md R32). -/
def cfgDefaultRecord (p : Params) : CfgRecord where
  subpageEn := 1
  dataHold := 0
  subpageRepeat := 0
  selectSubpage := Config.selectDefault
  refresh := p.refreshDefault
  resolution := Config.resDefault
  chess := 0
  reserved := Config.cfgReservedDefault

/-- CFG_DEFAULT (10_state.md R32). -/
def cfgDefault (p : Params) : Word := cfgPack p.cfgLayout (cfgDefaultRecord p)

/-- `stat_subpage(w)` (41_register_codec.md R149). -/
def statSubpage (l : StatLayout) (w : Word) : Word := getField w l.subpage

/-- `stat_new_data(w)` (41_register_codec.md R149). -/
def statNewData (l : StatLayout) (w : Word) : Word := getField w l.newData

/-- `stat_end_overwrite(w)` (41_register_codec.md R149). No meaning reads it (10_state.md R34). -/
def statEndOverwrite (l : StatLayout) (w : Word) : Word := getField w l.endOverwrite

/-- `stat_ack(w) = set(w, new_data, 0)` (41_register_codec.md R149). -/
def statAck (l : StatLayout) (w : Word) : Word := setField w l.newData 0

end Sys2Proof.Machine
end

