-- ==== Sys2Proof/Machine/State.lean ====
section
/-! DEFINITION. The state of the block (10_state.md R20), what stands around it as plain data (00_scope.md R11), the
reasons a step can stop, and the state after reset (10_state.md R45). -/

namespace Sys2Proof.Machine

/-- The values of `STATE` (10_state.md R26). -/
inductive Ctl where
  /-- 0: "no Initialize has succeeded since reset or since the last Initialize began". -/
  | uninit
  /-- 1: "Initialize has succeeded and no Poll or Capture has ended since". -/
  | configured
  /-- 2: "configured, and not inside a Capture". -/
  | idle
  /-- 3: "inside a Capture; never the value between two commands". -/
  | capturing
  deriving DecidableEq, Repr

/-- The error codes of a response, OK among them (60_exceptions.md R220). -/
inductive ErrCode where
  | ok | noAck | shortRead | shortWrite | illegalCmd | badOperand | badState
  deriving DecidableEq, Repr

/-- A response: error code, auxiliary byte, data (30_encoding.md R93). -/
structure Response where
  err : ErrCode
  aux : Byte
  data : Word
  deriving DecidableEq, Repr

/-- The bus events (00_scope.md R10). -/
inductive BusEvent where
  /-- `S`. -/
  | start
  /-- `Sr`. -/
  | repStart
  /-- `P`. -/
  | stop
  /-- `T(b)/A` (`ack = true`) or `T(b)/N`: the device's answer to a transmitted byte. -/
  | transmit (b : Byte) (ack : Bool)
  /-- `R(b)/A` (`ack = true`) or `R(b)/N`: the master's answer to a received byte. -/
  | receive (b : Byte) (ack : Bool)
  deriving DecidableEq, Repr

/-- What the device does at one bus event (20_memory.md R70): "for `T(b)`, whether to acknowledge; for `R`, which
byte to supply". The event reads the part it needs. -/
structure Answer where
  ack : Bool
  data : Byte
  deriving DecidableEq, Repr

/-- The reference device's words, held by the byte: cell `2a` is the high byte of `DEV[a]`, cell `2a+1` its low byte,
the order on the wire (20_memory.md R65, R71; log 8). Canonical: addresses strictly rising, no byte 0x00 listed. -/
abbrev Memory := List Host.Cell

/-- Where the reference device is in the transaction in progress: the bytes it received since `S`, whether the data
phase of a read has begun, whether it refused a byte, how many bytes it has supplied (20_memory.md R71, log 7). -/
structure Transfer where
  received : List Byte
  reading : Bool
  refused : Bool
  supplied : Nat
  deriving DecidableEq, Repr

/-- No transaction in progress at the device. -/
def Transfer.none : Transfer := ⟨[], false, false, 0⟩

/-- The reference device of 20_memory.md R71. `refusals`: for the coming transmitted bytes in order, whether a scripted
refusal applies; past its end none does (log 7). -/
structure RefDevice where
  present : Bool
  mem : Memory
  refusals : List Bool
  transfer : Transfer
  deriving DecidableEq, Repr

/-- The device on the bus (20_memory.md R70). -/
inductive Device where
  /-- Any oracle, as the sequence of its answers to the coming bus events (log 4). Past its end no event is ever
  answered (70_reset_and_hazards.md R262, log 5). -/
  | oracle (answers : List Answer)
  /-- The reference device (R71). -/
  | reference (r : RefDevice)
  deriving DecidableEq, Repr

/-- What of the transient state of 10_state.md R42 can outlive a command. -/
inductive Link where
  /-- "no transaction in progress, the bus free" (R42). -/
  | free
  /-- A command waits for the answer to a bus event that never comes (70_reset_and_hazards.md R262). -/
  | stalled
  /-- Reset abandoned a command in a transaction: nothing may be concluded of the bus (70_reset_and_hazards.md R251,
  93_implementation_defined.md U13; log 6). -/
  | cut
  deriving DecidableEq, Repr

/-- What the outside does next (log 1). -/
inductive Input where
  /-- The host presents a command word (30_encoding.md R90). -/
  | command (w : Word32)
  /-- `rst` is asserted (70_reset_and_hazards.md R250). -/
  | reset
  /-- The device changes on its own, as between two commands (20_memory.md R70, R71). It is idle afterwards. -/
  | device (d : Device)
  deriving DecidableEq, Repr

/-- The block, and around it what one deterministic step needs as data. -/
structure State where
  /-- `X`, the transfer buffer (10_state.md R21). -/
  x : Vector Word 32
  /-- `STATE` (10_state.md R26). -/
  ctl : Ctl
  /-- `CFG`, the configuration shadow (10_state.md R29). -/
  cfg : Word
  /-- `STAT`, the status shadow (10_state.md R33). -/
  stat : Word
  /-- `ROW` (10_state.md R36). -/
  row : BitVec 5
  /-- `ELAPSED` (10_state.md R37). -/
  elapsed : Word
  /-- `FB`, 24 rows of 32 words (10_state.md R40). -/
  fb : Vector (Vector Word 32) 24
  /-- Whether a transaction is in progress (10_state.md R42). -/
  link : Link
  /-- What the outside does next, in order (log 1). -/
  inputs : List Input
  /-- The responses produced, oldest first (30_encoding.md R90, log 2). -/
  rsps : List Response
  /-- The bus events so far, oldest first (00_scope.md R10). -/
  bus : List BusEvent
  /-- The device on the bus (20_memory.md R70). -/
  dev : Device
  /-- The model's own counter of draws (10_state.md R37, log 11). -/
  draws : Nat
  /-- The OPEN parameters, fixed for the machine (00_scope.md R7, log 12). -/
  params : Params
  deriving DecidableEq, Repr

/-- Why the machine stops. -/
inductive Fault where
  /-- Raised by a bus transaction of any command when the bus is not free: after a reset that cut a transaction nothing
  may be concluded of the bus (93_implementation_defined.md U13, log 6). Safe: the model stops where the block would
  go on in an unknown way. -/
  | busUndefined
  deriving DecidableEq, Repr

/-- Why the model has no meaning for an instruction. -/
inductive Refusal where
  /-- Raised by exec's arm for an instruction that has no meaning yet; no arm does now. Safe. -/
  | notModelled (mnemonic : String)
  deriving DecidableEq, Repr

/-- The reference device with every word 0x0000, present, without scripted refusals (20_memory.md R71). -/
def RefDevice.blank : RefDevice := ⟨true, [], [], .none⟩

/-- After reset (10_state.md R45, 70_reset_and_hazards.md R250). `FB` and `STATE` are the document's values; `X`, `CFG`,
`STAT`, `ROW`, `ELAPSED` the spec's decision D21 (log 10). DESIGN CHOICE: the device fitted (log 9), the empty lists
(log 1, log 2, log 3), `draws` (log 11). PRESUMED by the spec: the default parameters (log 13). -/
def State.reset : State where
  x := Vector.replicate 32 0
  ctl := .uninit
  cfg := 0
  stat := 0
  row := 0
  elapsed := 0
  fb := Vector.replicate 24 (Vector.replicate 32 0)
  link := .free
  inputs := []
  rsps := []
  bus := []
  dev := .reference .blank
  draws := 0
  params := .default

end Sys2Proof.Machine
end

