-- ==== Sys2Proof/Machine/Operands.lean ====
section
/-! DEFINITION. Operand forms: the ranges of 30_encoding.md R94, the row address of 20_memory.md R63, the register numbers
of 10_state.md R38. -/

namespace Sys2Proof.Machine

/-- A word count in range: 0 <= n <= 32 (30_encoding.md R94, sub-formats N and AN). -/
abbrev CountInRange (n : Nat) : Prop := n ≤ 32

/-- A buffer index in range: 0 <= i <= 31 (30_encoding.md R94, sub-formats XI and X). -/
abbrev IndexInRange (i : Nat) : Prop := i < 32

/-- A row in range: 0 <= r <= 23 (30_encoding.md R94, sub-format RC). -/
abbrev RowInRange (r : Nat) : Prop := r < 24

/-- `RowAddr(r) = (FRAME_BASE + r * ROW_STRIDE) mod 2^16` (20_memory.md R63). -/
def rowAddr (p : Params) (r : Nat) : Word := p.frameBase + BitVec.ofNat 16 (r * Config.rowStride)

/-- The numbering of `STATE` (10_state.md R26). -/
def Ctl.code : Ctl → BitVec 2
  | .uninit => 0
  | .configured => 1
  | .idle => 2
  | .capturing => 3

/-- `SUBPAGE`: the field `STAT.subpage` (10_state.md R35). -/
def State.subpage (s : State) : Word := statSubpage s.params.statLayout s.stat

/-- `csr(i)` of 10_state.md R38; none for 6..255. -/
def csr (i : Nat) (s : State) : Option Word :=
  match i with
  | 0 => some (s.ctl.code.setWidth 16)
  | 1 => some s.cfg
  | 2 => some s.stat
  | 3 => some s.subpage
  | 4 => some (s.row.setWidth 16)
  | 5 => some s.elapsed
  | _ => none

/-- The reading of pixel (r, c): its pattern in two's complement (10_state.md R40, 00_scope.md R8). -/
def State.reading (s : State) (r : Fin 24) (c : Fin 32) : Int := (s.fb[r])[c].toInt

end Sys2Proof.Machine
end

