-- ==== Sys2Proof/Machine/Ops.lean ====
section
/-! DEFINITION. The named operations over the block's state: the reference device's memory, the transfer buffer, the Frame
Buffer, responding, raising an error (60_exceptions.md R228), stalling and reset (70_reset_and_hazards.md R250, R262). -/

namespace Sys2Proof.Machine

/-! ### Memory of the reference device (20_memory.md R71, log 8) -/

/-- The number of byte cells of the device space: 2^16 words. -/
def memCells : Nat := 2 ^ 17

/-- What a cell that is not listed reads as (log 8). -/
def unlistedByte : Byte := 0

/-- Read of one byte cell. -/
def loadByte : Memory → Nat → Byte
  | [], _ => unlistedByte
  | c :: cs, a => if c.1 = a then c.2 else loadByte cs a

/-- The list without the entries at `a`. -/
def dropCell (m : Memory) (a : Nat) : Memory := m.filter fun c => decide (c.1 ≠ a)

/-- The list with a cell put before the first entry of a higher address. -/
def insertCell (c : Host.Cell) : Memory → Memory
  | [] => [c]
  | d :: ds => if c.1 < d.1 then c :: d :: ds else d :: insertCell c ds

/-- Write of one byte cell; a cell that would read as an unlisted one is not listed. -/
def storeByte (m : Memory) (a : Nat) (b : Byte) : Memory :=
  if b = unlistedByte then dropCell m a else insertCell (a, b) (dropCell m a)

/-- Write of bytes to consecutive cells from `a`, modulo the size of the space (20_memory.md R61, R71). -/
def storeBytes (m : Memory) (a : Nat) : List Byte → Memory
  | [] => m
  | b :: bs => storeBytes (storeByte m (a % memCells) b) (a + 1) bs

/-- `DEV[a]` (20_memory.md R71). -/
def loadWord (m : Memory) (a : Word) : Word := joinBytes (loadByte m (2 * a.toNat)) (loadByte m (2 * a.toNat + 1))

/-- `DEV[a] <- v` (20_memory.md R71). -/
def storeWord (m : Memory) (a : Word) (v : Word) : Memory := storeBytes m (2 * a.toNat) [highByte v, lowByte v]

/-- The canonical form: addresses strictly rising and inside the space, no byte that an unlisted cell reads as. -/
abbrev Memory.wf (m : Memory) : Prop :=
  m.Pairwise (fun c d => c.1 < d.1) ∧ (∀ c ∈ m, c.1 < memCells ∧ c.2 ≠ unlistedByte)

/-- A device whose memory, if the model holds it, is canonical. -/
def Device.wf : Device → Bool
  | .oracle _ => true
  | .reference r => decide (Memory.wf r.mem)

/-! ### The transfer buffer and the Frame Buffer -/

/-- The words `old` with the words `new` in place of the first ones. -/
def overwriteWords : (new old : List Word) → List Word
  | [], old => old
  | _ :: _, [] => []
  | w :: new, _ :: old => w :: overwriteWords new old

/-- The words with the first `n` swapped. -/
def swapWords : (n : Nat) → (old : List Word) → List Word
  | 0, old => old
  | _ + 1, [] => []
  | n + 1, w :: old => swap16 w :: swapWords n old

@[simp] theorem overwriteWords_length (new old : List Word) : (overwriteWords new old).length = old.length := by
  induction new, old using overwriteWords.induct with
  | case1 old => rfl
  | case2 w new => rfl
  | case3 w new v old ih => simp [overwriteWords, ih]

@[simp] theorem swapWords_length (n : Nat) (old : List Word) : (swapWords n old).length = old.length := by
  induction n, old using swapWords.induct with
  | case1 old => rfl
  | case2 n => rfl
  | case3 n w old ih => simp [swapWords, ih]

/-- The buffer with the words given in `X[0], X[1], ...` (40_bus_transport.md R126). -/
def fillBuffer (x : Vector Word 32) (ws : List Word) : Vector Word 32 :=
  ⟨(overwriteWords ws x.toList).toArray, by simp⟩

/-- The buffer with `X[0..n-1]` swapped (41_register_codec.md R143). -/
def swapBuffer (x : Vector Word 32) (n : Nat) : Vector Word 32 := ⟨(swapWords n x.toList).toArray, by simp⟩

/-- `X[i] <- w[i]` for the words given, from `X[0]` (40_bus_transport.md R126). -/
def State.fillX (s : State) (ws : List Word) : State := { s with x := fillBuffer s.x ws }

/-- `X[i] <- swap16(X[i])` for `i = 0 .. n-1` (41_register_codec.md R143). -/
def State.swapX (s : State) (n : Nat) : State := { s with x := swapBuffer s.x n }

/-- `[X[0], ..., X[n-1]]` (40_bus_transport.md R127). -/
def State.firstX (s : State) (n : Nat) : List Word := s.x.toList.take n

/-- `X[i] <- v` (44_host_access.md R200). -/
def State.putX (s : State) (i : Nat) (h : i < 32) (v : Word) : State := { s with x := s.x.set i v h }

/-- `FB[r][c] <- X[c]` for every column: "A row of the Frame Buffer changes as a unit" (43_sensor_controller.md R184). -/
def State.storeRow (s : State) (r : Nat) : State := { s with fb := s.fb.setIfInBounds r s.x }

/-! ### Responses and errors -/

/-- The code of each error (60_exceptions.md R220). -/
def ErrCode.code : ErrCode → Byte
  | .ok => 0x00
  | .noAck => 0x01
  | .shortRead => 0x02
  | .shortWrite => 0x03
  | .illegalCmd => 0x10
  | .badOperand => 0x11
  | .badState => 0x12

/-- The response word `err[31:24] aux[23:16] data[15:0]` (30_encoding.md R93). -/
def Response.word (r : Response) : Word32 := r.err.code ++ r.aux ++ r.data

/-- `respond(aux, data)`: "end the command with error code OK" (00_scope.md R9). -/
def State.respond (s : State) (aux : Byte) (data : Word) : State := { s with rsps := s.rsps ++ [⟨.ok, aux, data⟩] }

/-- `raise E(aux)`: the response is `{E, aux, 0x0000}`; nothing else is written (60_exceptions.md R228). There is no
return from an error (60_exceptions.md R231). -/
def State.raise (s : State) (e : ErrCode) (aux : Byte) : State := { s with rsps := s.rsps ++ [⟨e, aux, 0⟩] }

/-! ### The bus link, reset and the other inputs -/

/-- The command in progress waits for ever: no response, no further command (70_reset_and_hazards.md R262). -/
def State.stall (s : State) : State := { s with link := .stalled }

/-- What reset leaves of the bus: free, unless it cut a transaction (70_reset_and_hazards.md R251, log 6). -/
def Link.afterReset : Link → Link
  | .free => .free
  | .stalled => .cut
  | .cut => .cut

/-- `rst`: every piece of state of 10_state.md R20 at the value of R45, the command in progress abandoned without a
response (70_reset_and_hazards.md R250, R251). It does not reach the device (R252). -/
def State.applyReset (s : State) : State :=
  { s with
    x := State.reset.x
    ctl := State.reset.ctl
    cfg := State.reset.cfg
    stat := State.reset.stat
    row := State.reset.row
    elapsed := State.reset.elapsed
    fb := State.reset.fb
    link := s.link.afterReset }

/-- The device is `d` from now on; a bus that a reset had cut is taken to be idle again
(93_implementation_defined.md U13, log 6). -/
def State.connect (s : State) (d : Device) : State :=
  { s with dev := d, link := if s.link = .cut then .free else s.link }

/-- The free value of ELAPSED: "any value, chosen afresh at each such `CAPTURE`" (10_state.md R37, log 11). -/
def State.drawElapsed (s : State) : State :=
  { s with elapsed := Config.elapsedDraw s.draws, draws := s.draws + 1 }

end Sys2Proof.Machine
end

