-- ==== Sys2Proof/Machine/Codec.lean ====
section
/-! DEFINITION. Register Codec commands: DEC, ENC (41_register_codec.md). -/

namespace Sys2Proof.Machine

/-- `DEC n` (41_register_codec.md R143). -/
def execDec (n : Nat) (s : State) : Host.Outcome State Fault Refusal :=
  if CountInRange n then .next ((s.swapX n).respond 0 0) else .next (s.raise .badOperand 0)

/-- `ENC n` (41_register_codec.md R144). -/
def execEnc (n : Nat) (s : State) : Host.Outcome State Fault Refusal :=
  if CountInRange n then .next ((s.swapX n).respond 0 0) else .next (s.raise .badOperand 0)

end Sys2Proof.Machine
end

