-- ==== Sys2Proof/Machine/Device.lean ====
section
/-! DEFINITION. What the device does at each bus event: any answers (20_memory.md R70) or the reference device (R71). -/

namespace Sys2Proof.Machine

/-- `S`: a transaction begins at the reference device. -/
def RefDevice.onStart (r : RefDevice) : RefDevice := { r with transfer := .none }

/-- `Sr`: the data phase of a read begins. -/
def RefDevice.onRepStart (r : RefDevice) : RefDevice := { r with transfer := { r.transfer with reading := true } }

/-- `T(b)`: acknowledged "if present (and no scripted refusal applies)" (20_memory.md R71). -/
def RefDevice.onTransmit (r : RefDevice) (b : Byte) : Bool × RefDevice :=
  let ack := r.present && !r.refusals.headD false
  (ack, { r with
    refusals := r.refusals.tail
    transfer := { r.transfer with
      received := r.transfer.received ++ [b]
      refused := r.transfer.refused || !ack } })

/-- The device address of the transaction: the two bytes after `SLA_W`, high byte first (20_memory.md R64). -/
def Transfer.address (t : Transfer) : Word :=
  match t.received with
  | _ :: hi :: lo :: _ => joinBytes hi lo
  | _ => 0

/-- `R`: "word i is DEV[(a+i) mod 2^16], sent as DEV[..][15:8] then DEV[..][7:0]" (20_memory.md R71). -/
def RefDevice.onReceive (r : RefDevice) : Byte × RefDevice :=
  (loadByte r.mem ((2 * r.transfer.address.toNat + r.transfer.supplied) % memCells),
   { r with transfer := { r.transfer with supplied := r.transfer.supplied + 1 } })

/-- `P`: the words of a complete write "at the stop condition" (20_memory.md R71); nothing is stored when a byte was
refused (93_implementation_defined.md U11). -/
def RefDevice.onStop (r : RefDevice) : RefDevice :=
  let m :=
    if r.transfer.reading || r.transfer.refused then r.mem
    else storeBytes r.mem (2 * r.transfer.address.toNat) (r.transfer.received.drop 3)
  { r with mem := m, transfer := .none }

/-- The device sees `S`. -/
def Device.onStart : Device → Device
  | .oracle as => .oracle as
  | .reference r => .reference r.onStart

/-- The device sees `Sr`. -/
def Device.onRepStart : Device → Device
  | .oracle as => .oracle as
  | .reference r => .reference r.onRepStart

/-- The device sees `P`. -/
def Device.onStop : Device → Device
  | .oracle as => .oracle as
  | .reference r => .reference r.onStop

/-- The device's answer to `T(b)`: acknowledge or not; none when it never answers (70_reset_and_hazards.md R262). -/
def Device.onTransmit (d : Device) (b : Byte) : Option (Bool × Device) :=
  match d with
  | .oracle [] => none
  | .oracle (a :: as) => some (a.ack, .oracle as)
  | .reference r => some ((r.onTransmit b).1, .reference (r.onTransmit b).2)

/-- The byte the device supplies at `R`; none when it never answers. -/
def Device.onReceive (d : Device) : Option (Byte × Device) :=
  match d with
  | .oracle [] => none
  | .oracle (a :: as) => some (a.data, .oracle as)
  | .reference r => some (r.onReceive.1, .reference r.onReceive.2)

end Sys2Proof.Machine
end

