-- ==== Sys2Proof/Machine/Bus.lean ====
section
/-! DEFINITION. The I2C master register read/write sequencer: `MemRead` and `MemWrite` event by event
(40_bus_transport.md R120 to R125), and an access of the block over them. -/

namespace Sys2Proof.Machine

/-- `SLA_W = {DEV_ADDR[6:0], 0}` (30_encoding.md R102). -/
def slaW (p : Params) : Byte := p.devAddr ++ 0#1

/-- `SLA_R = {DEV_ADDR[6:0], 1}` (30_encoding.md R102). -/
def slaR (p : Params) : Byte := p.devAddr ++ 1#1

/-- The bytes of the address phase (40_bus_transport.md R121), high address byte first (20_memory.md R64). -/
def addressPhase (p : Params) (addr : Word) : List Byte := [slaW p, highByte addr, lowByte addr]

/-- The errors of a transaction with the byte count the pseudocode carries (40_bus_transport.md R122, R124). -/
inductive BusErr where
  | noAck
  | shortRead (k : Nat)
  | shortWrite (k : Nat)
  deriving DecidableEq, Repr

/-- The response code of a bus error (60_exceptions.md R220). -/
def BusErr.code : BusErr → ErrCode
  | .noAck => .noAck
  | .shortRead _ => .shortRead
  | .shortWrite _ => .shortWrite

/-- `k`, "0 for NO_ACK" (40_bus_transport.md R126), as the auxiliary byte. -/
def BusErr.count : BusErr → Byte
  | .noAck => 0
  | .shortRead k => BitVec.ofNat 8 k
  | .shortWrite k => BitVec.ofNat 8 k

/-- How the transmission of a run of bytes ends. -/
inductive SendEnd where
  | allAcked
  /-- The byte after `k` acknowledged ones was refused. -/
  | refusedAt (k : Nat)
  | unanswered
  deriving DecidableEq, Repr

/-- The events of a run of transmitted bytes, the device after it, how it ended. -/
structure Sent where
  events : List BusEvent
  dev : Device
  result : SendEnd
  deriving DecidableEq, Repr

/-- `T(b)` for the bytes in order until one is refused; `k` bytes were acknowledged before
(40_bus_transport.md R122, R124). -/
def sendBytes (k : Nat) (d : Device) : List Byte → Sent
  | [] => ⟨[], d, .allAcked⟩
  | b :: bs =>
    match d.onTransmit b with
    | none => ⟨[], d, .unanswered⟩
    | some (false, d') => ⟨[.transmit b false], d', .refusedAt k⟩
    | some (true, d') =>
      let rest := sendBytes (k + 1) d' bs
      ⟨.transmit b true :: rest.events, rest.dev, rest.result⟩

/-- The events of a run of received bytes, the device after it, the bytes if all came. -/
structure Received where
  events : List BusEvent
  dev : Device
  bytes : Option (List Byte)
  deriving DecidableEq, Repr

/-- `R()` for `m` bytes: "the master answers A if j < 2n-1, N if j = 2n-1" (40_bus_transport.md R122). -/
def recvBytes (d : Device) : Nat → Received
  | 0 => ⟨[], d, some []⟩
  | m + 1 =>
    match d.onReceive with
    | none => ⟨[], d, none⟩
    | some (b, d') =>
      let rest := recvBytes d' m
      ⟨.receive b (decide (m ≠ 0)) :: rest.events, rest.dev, rest.bytes.map (b :: ·)⟩

/-- How a transaction ends: `Ok`, `Err(E, k)`, or never (40_bus_transport.md R130). -/
inductive TxnEnd (α : Type) where
  | ok (a : α)
  | err (e : BusErr)
  | unanswered
  deriving DecidableEq, Repr

/-- A transaction: its events in order, the device after it, its end. -/
structure Txn (α : Type) where
  events : List BusEvent
  dev : Device
  result : TxnEnd α
  deriving DecidableEq, Repr

/-- `MemRead(addr, n)` (40_bus_transport.md R122). -/
def memRead (p : Params) (d : Device) (addr : Word) (n : Nat) : Txn (List Word) :=
  if n = 0 then ⟨[], d, .ok []⟩
  else
    let a := sendBytes 0 d.onStart (addressPhase p addr)
    match a.result with
    | .unanswered => ⟨.start :: a.events, a.dev, .unanswered⟩
    | .refusedAt _ => ⟨.start :: a.events ++ [.stop], a.dev.onStop, .err .noAck⟩
    | .allAcked =>
      let r := sendBytes 0 a.dev.onRepStart [slaR p]
      match r.result with
      | .unanswered => ⟨.start :: a.events ++ .repStart :: r.events, r.dev, .unanswered⟩
      | .refusedAt k => ⟨.start :: a.events ++ .repStart :: r.events ++ [.stop], r.dev.onStop, .err (.shortRead k)⟩
      | .allAcked =>
        let q := recvBytes r.dev (2 * n)
        match q.bytes with
        | none => ⟨.start :: a.events ++ .repStart :: r.events ++ q.events, q.dev, .unanswered⟩
        | some bs =>
          ⟨.start :: a.events ++ .repStart :: r.events ++ q.events ++ [.stop], q.dev.onStop, .ok (rawWords bs)⟩

/-- `MemWrite(addr, n, w)` with `n` the number of words given (40_bus_transport.md R124). -/
def memWrite (p : Params) (d : Device) (addr : Word) (ws : List Word) : Txn Unit :=
  if ws = [] then ⟨[], d, .ok ()⟩
  else
    let a := sendBytes 0 d.onStart (addressPhase p addr)
    match a.result with
    | .unanswered => ⟨.start :: a.events, a.dev, .unanswered⟩
    | .refusedAt _ => ⟨.start :: a.events ++ [.stop], a.dev.onStop, .err .noAck⟩
    | .allAcked =>
      let q := sendBytes 0 a.dev (rawBytes ws)
      match q.result with
      | .unanswered => ⟨.start :: a.events ++ q.events, q.dev, .unanswered⟩
      | .refusedAt k => ⟨.start :: a.events ++ q.events ++ [.stop], q.dev.onStop, .err (.shortWrite k)⟩
      | .allAcked => ⟨.start :: a.events ++ q.events ++ [.stop], q.dev.onStop, .ok ()⟩

/-- What an access of the block over the bus yields, with the state after it. -/
inductive Access (α : Type) where
  | ok (a : α) (s : State)
  | err (e : BusErr) (s : State)
  /-- The event in progress is never answered (70_reset_and_hazards.md R262). -/
  | stalled (s : State)
  /-- The bus is not free, so nothing may be concluded (93_implementation_defined.md U13). -/
  | undefinedBus

/-- The state with a transaction's events recorded and its device. -/
def State.afterTxn {α : Type} (s : State) (t : Txn α) : State := { s with bus := s.bus ++ t.events, dev := t.dev }

/-- The access that a transaction is. -/
def Access.ofTxn {α : Type} (t : Txn α) (s : State) : Access α :=
  match t.result with
  | .ok a => .ok a (s.afterTxn t)
  | .err e => .err e (s.afterTxn t)
  | .unanswered => .stalled (s.afterTxn t)

/-- `MemRead(addr, n)` by the block. A transfer of zero words needs no bus (40_bus_transport.md R125). -/
def busRead (addr : Word) (n : Nat) (s : State) : Access (List Word) :=
  if n ≠ 0 ∧ s.link ≠ .free then .undefinedBus else .ofTxn (memRead s.params s.dev addr n) s

/-- `MemWrite(addr, n, w)` by the block. -/
def busWrite (addr : Word) (ws : List Word) (s : State) : Access Unit :=
  if ws ≠ [] ∧ s.link ≠ .free then .undefinedBus else .ofTxn (memWrite s.params s.dev addr ws) s

/-- How a command goes on after an access: its `Ok` part, its error clause, else it hangs or stops (00_scope.md R9, `?`). -/
def Access.andThen {α : Type} (a : Access α) (onOk : α → State → Host.Outcome State Fault Refusal)
    (onErr : BusErr → State → Host.Outcome State Fault Refusal) : Host.Outcome State Fault Refusal :=
  match a with
  | .ok v s => onOk v s
  | .err e s => onErr e s
  | .stalled s => .next s.stall
  | .undefinedBus => .fault .busUndefined

end Sys2Proof.Machine
end

