-- ==== Sys2Proof/Machine/RegAccess.lean ====
section
/-! DEFINITION. Register access: RegRead and RegWrite (42_register_access.md R160, R161) and the commands RDREG, WRREG. -/

namespace Sys2Proof.Machine

/-- `RegRead(addr)`: `MemRead(addr, 1)`, then the swap of its one word (42_register_access.md R160). -/
def regRead (addr : Word) (s : State) : Access Word :=
  match busRead addr 1 s with
  | .ok ws s' => .ok (codecDecode (ws.headD 0)) s'
  | .err e s' => .err e s'
  | .stalled s' => .stalled s'
  | .undefinedBus => .undefinedBus

/-- `RegWrite(addr, v)`: `MemWrite(addr, 1, [swap16(v)])` (42_register_access.md R161). -/
def regWrite (addr v : Word) (s : State) : Access Unit := busWrite addr [codecEncode v] s

/-- `RDREG addr` (42_register_access.md R162). -/
def execRdreg (addr : Word) (s : State) : Host.Outcome State Fault Refusal :=
  (regRead addr s).andThen
    (fun v s => .next ((s.putX 0 (by decide) v).respond 0 v))
    (fun e s => .next (s.raise e.code 0))

/-- `WRREG addr` (42_register_access.md R163). -/
def execWrreg (addr : Word) (s : State) : Host.Outcome State Fault Refusal :=
  (regWrite addr s.x[0] s).andThen
    (fun _ s => .next (s.respond 0 0))
    (fun e s => .next (s.raise e.code e.count))

end Sys2Proof.Machine
end

