-- ==== Sys2Proof/Machine/Controller.lean ====
section
/-! DEFINITION. Sensor Controller commands: INIT, POLL, CAPTURE (43_sensor_controller.md). -/

namespace Sys2Proof.Machine

/-- `INIT` (43_sensor_controller.md R171, R173). The settle delay and the bus clock have no modelled effect
(R172, log 15). -/
def execInit (s : State) : Host.Outcome State Fault Refusal :=
  let s := { s with ctl := .uninit, cfg := cfgDefault s.params }
  (regWrite s.params.addrConfig s.cfg s).andThen
    (fun _ s =>
      (regRead s.params.addrConfig s).andThen
        (fun v s => .next ({ s with cfg := v, ctl := .configured }.respond 0 v))
        (fun e s => .next (s.raise e.code 1)))
    (fun e s => .next (s.raise e.code 0))

/-- `POLL` after its state check (43_sensor_controller.md R178, R179, R181). -/
def pollStatus (s : State) : Host.Outcome State Fault Refusal :=
  (regRead s.params.addrStatus s).andThen
    (fun v s =>
      let s := { s with stat := v }
      if statNewData s.params.statLayout v = 1 then
        let s := { s with stat := statAck s.params.statLayout v }
        (regWrite s.params.addrStatus s.stat s).andThen
          (fun _ s => .next ({ s with ctl := .idle }.respond 1 s.stat))
          (fun e s => .next (s.raise e.code 1))
      else .next ({ s with ctl := .idle }.respond 0 s.stat))
    (fun e s => .next (s.raise e.code 0))

/-- `POLL` (43_sensor_controller.md R178): BAD_STATE in UNINIT (60_exceptions.md R225). -/
def execPoll (s : State) : Host.Outcome State Fault Refusal :=
  if s.ctl = .uninit then .next (s.raise .badState 0) else pollStatus s

/-- The end of a `CAPTURE` without error (43_sensor_controller.md R183). -/
def captureDone (count : Nat) (s : State) : Host.Outcome State Fault Refusal :=
  .next ({ s with ctl := .idle }.respond (BitVec.ofNat 8 count) s.elapsed)

/-- What a `CAPTURE` does with the words of one row: stage in X, decode in place, store the row, step by 2
(43_sensor_controller.md R183, R184). -/
def State.takeRow (s : State) (ws : List Word) : State :=
  let s := ((s.fillX ws).swapX 32).storeRow s.row.toNat
  { s with row := s.row + 2 }

/-- The loop of `CAPTURE` (43_sensor_controller.md R183), `count` rows stored so far. `fuel` bounds the iterations; 12
are enough (R188, log 16). A failing row ends the command (R185). -/
def captureRows : Nat → Nat → State → Host.Outcome State Fault Refusal
  | 0, count, s => captureDone count s
  | fuel + 1, count, s =>
    if RowInRange s.row.toNat then
      (busRead (rowAddr s.params s.row.toNat) 32 s).andThen
        (fun ws s => captureRows fuel (count + 1) (s.takeRow ws))
        (fun e s => .next ({ s with ctl := .idle }.raise e.code (s.row.setWidth 8)))
    else captureDone count s

/-- `CAPTURE` (43_sensor_controller.md R183, R185): BAD_STATE in UNINIT (60_exceptions.md R225). -/
def execCapture (s : State) : Host.Outcome State Fault Refusal :=
  if s.ctl = .uninit then .next (s.raise .badState 0)
  else captureRows 12 0 { s.drawElapsed with ctl := .capturing, row := s.subpage.setWidth 5 }

end Sys2Proof.Machine
end

