-- ==== Sys2Proof/Machine/HostAccess.lean ====
section
/-! DEFINITION. Host access commands: LDX, RDX, RDFB, RDCSR (44_host_access.md). -/

namespace Sys2Proof.Machine

/-- `LDX i, v` (44_host_access.md R200). -/
def execLdx (i : Nat) (v : Word) (s : State) : Host.Outcome State Fault Refusal :=
  if h : IndexInRange i then .next ((s.putX i h v).respond 0 0) else .next (s.raise .badOperand 0)

/-- `RDX i` (44_host_access.md R201). -/
def execRdx (i : Nat) (s : State) : Host.Outcome State Fault Refusal :=
  if h : IndexInRange i then .next (s.respond 0 (s.x[i]'h)) else .next (s.raise .badOperand 0)

/-- `RDFB r, c` (44_host_access.md R202). -/
def execRdfb (r : Nat) (c : Fin 32) (s : State) : Host.Outcome State Fault Refusal :=
  if h : RowInRange r then .next (s.respond 0 (s.fb[r]'h)[c]) else .next (s.raise .badOperand 0)

/-- `RDCSR i` (44_host_access.md R203). -/
def execRdcsr (i : Nat) (s : State) : Host.Outcome State Fault Refusal :=
  match csr i s with
  | some v => .next (s.respond 0 v)
  | none => .next (s.raise .badOperand 0)

end Sys2Proof.Machine
end

