-- ==== Sys2Proof/Machine/Transport.lean ====
section
/-! DEFINITION. Bus Transport commands: BRD, BWR (40_bus_transport.md). -/

namespace Sys2Proof.Machine

/-- `BRD addr, n` (40_bus_transport.md R126). -/
def execBrd (addr : Word) (n : Nat) (s : State) : Host.Outcome State Fault Refusal :=
  if CountInRange n then
    (busRead addr n s).andThen
      (fun ws s => .next ((s.fillX ws).respond 0 0))
      (fun e s => .next (s.raise e.code e.count))
  else .next (s.raise .badOperand 0)

/-- `BWR addr, n` (40_bus_transport.md R127). -/
def execBwr (addr : Word) (n : Nat) (s : State) : Host.Outcome State Fault Refusal :=
  if CountInRange n then
    (busWrite addr (s.firstX n) s).andThen
      (fun _ s => .next (s.respond 0 0))
      (fun e s => .next (s.raise e.code e.count))
  else .next (s.raise .badOperand 0)

end Sys2Proof.Machine
end

