-- ==== Sys2Proof/Machine/Dispatch.lean ====
section
/-! DEFINITION. One arm per command (30_encoding.md R96). -/

namespace Sys2Proof.Machine

/-- The effect of a decoded command, from acceptance to response (30_encoding.md R90). -/
def exec (i : Instr) (s : State) : Host.Outcome State Fault Refusal :=
  match i with
  -- Bus Transport
  | .brd addr n => Sys2Proof.Machine.execBrd addr n s
  | .bwr addr n => Sys2Proof.Machine.execBwr addr n s
  -- Register Codec
  | .dec n => Sys2Proof.Machine.execDec n s
  | .enc n => Sys2Proof.Machine.execEnc n s
  -- Register access
  | .rdreg addr => Sys2Proof.Machine.execRdreg addr s
  | .wrreg addr => Sys2Proof.Machine.execWrreg addr s
  -- Sensor Controller
  | .init => Sys2Proof.Machine.execInit s
  | .poll => Sys2Proof.Machine.execPoll s
  | .capture => Sys2Proof.Machine.execCapture s
  -- Host access
  | .ldx k v => Sys2Proof.Machine.execLdx k v s
  | .rdx k => Sys2Proof.Machine.execRdx k s
  | .rdfb r c => Sys2Proof.Machine.execRdfb r c s
  | .rdcsr k => Sys2Proof.Machine.execRdcsr k s

end Sys2Proof.Machine
end

