-- ==== Sys2Proof/Machine/Step.lean ====
section
/-! DEFINITION. One step: what the outside does next (log 1). A command is taken, executed whole and answered
(30_encoding.md R90); with nothing to take the block waits. -/

namespace Sys2Proof.Machine

/-- The input at the head is taken. -/
def State.dropInput (s : State) : State := { s with inputs := s.inputs.tail }

/-- A command word is decoded, then executed; an illegal word raises ILLEGAL_CMD (30_encoding.md R97, 60_exceptions.md
R223, R230). -/
def runCommand (w : Word32) (s : State) : Host.Outcome State Fault Refusal :=
  match decode w with
  | .ok i => exec i s
  | .error _ => .next (s.raise .illegalCmd 0)

/-- One step of the machine. A stalled block takes no command (70_reset_and_hazards.md R262). -/
def step (s : State) : Host.Outcome State Fault Refusal :=
  match s.inputs with
  | [] => .next s
  | .reset :: _ => .next s.dropInput.applyReset
  | .device d :: _ => .next (s.dropInput.connect d)
  | .command w :: _ => if s.link = .stalled then .next s else runCommand w s.dropInput

/-- The state in which the host presents the command word `w` next (log 1). A stalled block would not take it
(70_reset_and_hazards.md R262). -/
def State.withFetchWord (s : State) (nbits w : Nat) : State :=
  { s with inputs := .command (BitVec.ofNat 32 (w % 2 ^ nbits)) :: s.inputs }

end Sys2Proof.Machine
end

