-- ==== Sys2Proof/Safety.lean ====
section
/-! DEFINITION. The terms claims are stated in: the invariant of a run, the form of a bus record, which command can raise
which error, and the wire frames of 30_encoding.md R103 and R104. -/

namespace Sys2Proof.Machine

/-! ### Block state and invariant -/

/-- The state of 10_state.md R20 is the same. -/
abbrev State.SameBlock (s t : State) : Prop :=
  t.x = s.x ∧ t.ctl = s.ctl ∧ t.cfg = s.cfg ∧ t.stat = s.stat ∧ t.row = s.row ∧ t.elapsed = s.elapsed ∧ t.fb = s.fb

/-- A device that an input brings has a canonical memory. -/
def Input.wf : Input → Bool
  | .command _ => true
  | .reset => true
  | .device d => d.wf

/-- What every step keeps: the layouts meet 00_scope.md R7; "`ROW` takes the values 0 to 25" (10_state.md R24);
CAPTURING is "never the value between two commands" (R26, R28); `STAT`'s has-new-data bit is 0 between commands (R25);
the reference device's memory is canonical (log 8). -/
abbrev State.Inv (s : State) : Prop :=
  s.params.Valid ∧ s.row.toNat ≤ 25 ∧ (s.ctl = .capturing → s.link = .stalled) ∧
    statNewData s.params.statLayout s.stat = 0 ∧ s.dev.wf = true ∧ ∀ i ∈ s.inputs, i.wf = true

/-! ### The form of a bus record -/

/-- Where a reader of the bus is in a transaction. -/
inductive BusPhase where
  /-- No transaction in progress. -/
  | idle
  /-- Inside a transaction. -/
  | busy
  /-- A not-acknowledge was given: only `P` may follow. -/
  | mustStop
  /-- The record has not the form of transactions. -/
  | broken
  deriving DecidableEq, Repr

/-- One event: `S` only opens, `P` only closes, every other event is inside (40_bus_transport.md R122, R124). -/
def BusPhase.after : BusPhase → BusEvent → BusPhase
  | .idle, .start => .busy
  | .busy, .repStart => .busy
  | .busy, .transmit _ ack => if ack then .busy else .mustStop
  | .busy, .receive _ ack => if ack then .busy else .mustStop
  | .busy, .stop => .idle
  | .mustStop, .stop => .idle
  | _, _ => .broken

/-- The phase after a run of events from a free bus. -/
def busPhase (es : List BusEvent) : BusPhase := es.foldl BusPhase.after .idle

/-- The device refused a transmitted byte in these events. -/
abbrev HasRefusal (es : List BusEvent) : Prop := ∃ b, BusEvent.transmit b false ∈ es

/-! ### Wire frames -/

/-- The address phase with every byte acknowledged (40_bus_transport.md R121). -/
def addressEvents (p : Params) (addr : Word) : List BusEvent :=
  [.start, .transmit (slaW p) true, .transmit (highByte addr) true, .transmit (lowByte addr) true]

/-- "The master acknowledges every received byte but the last" (30_encoding.md R103). -/
def receiveEvents : List Byte → List BusEvent
  | [] => []
  | [b] => [.receive b false]
  | b :: bs => .receive b true :: receiveEvents bs

/-- The frame of a read that supplied `bs` (30_encoding.md R103). -/
def readFrame (p : Params) (addr : Word) (bs : List Byte) : List BusEvent :=
  addressEvents p addr ++ [.repStart, .transmit (slaR p) true] ++ receiveEvents bs ++ [.stop]

/-- The frame of a write that sent `bs`, every byte acknowledged (30_encoding.md R104). -/
def writeFrame (p : Params) (addr : Word) (bs : List Byte) : List BusEvent :=
  addressEvents p addr ++ bs.map (BusEvent.transmit · true) ++ [.stop]

/-- Every answer acknowledges. -/
abbrev AllAck (as : List Answer) : Prop := ∀ a ∈ as, a.ack = true

/-! ### Rows of a capture -/

/-- The rows of a `CAPTURE` from `r` on: `r, r+2, ...` below 24 (43_sensor_controller.md R186). -/
def rowsFrom (r : Nat) : List Nat := (List.range 24).filter fun q => decide (r ≤ q ∧ (q - r) % 2 = 0)

/-- A run of reads, one row each, that all succeeded. -/
structure RowReads where
  words : List (List Word)
  events : List BusEvent
  dev : Device
  deriving DecidableEq, Repr

/-- The row reads of the given rows in order, if every one succeeds (43_sensor_controller.md R183). -/
def readRows (p : Params) (d : Device) : List Nat → Option RowReads
  | [] => some ⟨[], [], d⟩
  | r :: rs =>
    match (memRead p d (rowAddr p r) 32).result with
    | .ok ws =>
      (readRows p (memRead p d (rowAddr p r) 32).dev rs).map fun q =>
        ⟨ws :: q.words, (memRead p d (rowAddr p r) 32).events ++ q.events, q.dev⟩
    | _ => none

/-- A row of decoded words (41_register_codec.md R141). -/
def decodedRow (ws : List Word) : Vector Word 32 := Vector.ofFn fun c => swap16 (ws.getD c.val 0)

/-- The Frame Buffer with the k-th of `wss`, decoded, in row `r + 2k`, every other row as it was
(43_sensor_controller.md R184). -/
def frameWith (fb : Vector (Vector Word 32) 24) (r : Nat) (wss : List (List Word)) : Vector (Vector Word 32) 24 :=
  Vector.ofFn fun q =>
    if r ≤ q.val ∧ (q.val - r) % 2 = 0 then
      match wss[(q.val - r) / 2]? with
      | some ws => decodedRow ws
      | none => fb[q]
    else fb[q]

/-- The transfer buffer after the row reads: the decoded last row, or as it was when there is none
(43_sensor_controller.md R183, R185). -/
def lastRow (x : Vector Word 32) (wss : List (List Word)) : Vector Word 32 :=
  match wss.getLast? with
  | some ws => decodedRow ws
  | none => x

/-! ### What a command may write -/

/-- "Which command reads and writes X": the words a command may write (10_state.md R22). -/
def mayWriteX : Instr → Nat → Bool
  | .brd _ n, k | .dec n, k | .enc n, k => decide (k < n)
  | .rdreg _, k => k == 0
  | .capture, _ => true
  | .ldx i _, k => k == i
  | .bwr _ _, _ | .wrreg _, _ | .init, _ | .poll, _ | .rdx _, _ | .rdfb _ _, _ | .rdcsr _, _ => false

/-- The commands that use the bus (20_memory.md R60). -/
def usesBus : Instr → Bool
  | .brd _ _ | .bwr _ _ | .rdreg _ | .wrreg _ | .init | .poll | .capture => true
  | .dec _ | .enc _ | .ldx _ _ | .rdx _ | .rdfb _ _ | .rdcsr _ => false

/-- The byte cells of the words `addr, addr+1, ..., addr+n-1` of the device space (20_memory.md R61, log 8). -/
def cellsOf (addr : Word) (n : Nat) : List Nat := (List.range (2 * n)).map fun j => (2 * addr.toNat + j) % memCells

/-- The byte cells of the reference device a command may store to: the words of its write transactions
(40_bus_transport.md R127, 42_register_access.md R163, 43_sensor_controller.md R171, R178). -/
def storedCells (i : Instr) (p : Params) : List Nat :=
  match i with
  | .bwr addr n => if CountInRange n then cellsOf addr n else []
  | .wrreg addr => cellsOf addr 1
  | .init => cellsOf p.addrConfig 1
  | .poll => cellsOf p.addrStatus 1
  | .brd _ _ | .dec _ | .enc _ | .rdreg _ | .capture | .ldx _ _ | .rdx _ | .rdfb _ _ | .rdcsr _ => []

/-! ### Errors -/

/-- An operand outside the range column of 30_encoding.md R94 (60_exceptions.md R224). -/
def outOfRange : Instr → Bool
  | .brd _ n | .bwr _ n | .dec n | .enc n => decide (32 < n)
  | .ldx i _ | .rdx i => decide (31 < i)
  | .rdfb r _ => decide (23 < r)
  | .rdcsr i => decide (5 < i)
  | .rdreg _ | .wrreg _ | .init | .poll | .capture => false

/-- "Which command can raise which error" once it is decoded (60_exceptions.md R234). -/
def mayRaise : Instr → List ErrCode
  | .brd _ _ => [.noAck, .shortRead, .badOperand]
  | .bwr _ _ => [.noAck, .shortWrite, .badOperand]
  | .dec _ | .enc _ => [.badOperand]
  | .rdreg _ => [.noAck, .shortRead]
  | .wrreg _ => [.noAck, .shortWrite]
  | .init => [.noAck, .shortRead, .shortWrite]
  | .poll => [.noAck, .shortRead, .shortWrite, .badState]
  | .capture => [.noAck, .shortRead, .badState]
  | .ldx _ _ | .rdx _ | .rdfb _ _ | .rdcsr _ => [.badOperand]

end Sys2Proof.Machine
end

