-- ==== Sys2Proof/Certificates/Slice0/Obligations.lean ====
section
/-! DEFINITION. What is claimed of the model. Each claim's docstring names the rule of spec/ it formalises. -/

open Sys2Proof Sys2Proof.Machine

/-! ### Encoding -/

/-- Every well-formed instruction, with every operand its encoding admits, decodes from its word
(30_encoding.md R92, R94, R96). -/
def Obligations.DecodeEncodeRoundTrip : Prop :=
  ∀ i : Instr, i.wf = true → decode (encode i) = .ok i

/-- A word that decodes is the word of what it decodes to: no word is a second spelling (30_encoding.md R98, R99). -/
def Obligations.EncodeDecodeRoundTrip : Prop :=
  ∀ (w : Word32) (i : Instr), decode w = .ok i → i.wf = true ∧ encode i = w

/-- A word is a command exactly when some row's mask and match say so, and then for one row only (30_encoding.md R94). -/
def Obligations.DecodeIsMaskAndMatch : Prop :=
  (∀ w : Word32, (∃ i, decode w = .ok i) ↔ ∃ r ∈ opcodeRows, w &&& r.mask = r.pattern) ∧
  (∀ w : Word32, ∀ r ∈ opcodeRows, ∀ q ∈ opcodeRows, w &&& r.mask = r.pattern → w &&& q.mask = q.pattern → r = q)

/-- The words of 95_test_vectors.md V1 to V8. -/
def Obligations.SampleWordsDecode : Prop :=
  decode 0x10200400 = .ok (.brd 0x0400 32) ∧ decode 0x1101800D = .ok (.bwr 0x800D 1) ∧
  decode 0x20200000 = .ok (.dec 32) ∧ decode 0x21010000 = .ok (.enc 1) ∧
  decode 0x30008000 = .ok (.rdreg 0x8000) ∧ decode 0x3100800D = .ok (.wrreg 0x800D) ∧
  decode 0x40000000 = .ok .init ∧ decode 0x41000000 = .ok .poll ∧ decode 0x42000000 = .ok .capture ∧
  decode 0x5003BEEF = .ok (.ldx 3 0xBEEF) ∧ decode 0x511F0000 = .ok (.rdx 31) ∧
  decode 0x5217001F = .ok (.rdfb 23 31) ∧ decode 0x53050000 = .ok (.rdcsr 5)

/-- The response word `err[31:24] aux[23:16] data[15:0]` (30_encoding.md R93) with the codes of 60_exceptions.md R220. -/
def Obligations.ResponseWordLayout : Prop :=
  ∀ r : Response, r.word.toNat = (match r.err with
      | .ok => 0x00 | .noAck => 0x01 | .shortRead => 0x02 | .shortWrite => 0x03
      | .illegalCmd => 0x10 | .badOperand => 0x11 | .badState => 0x12) * 2 ^ 24 + r.aux.toNat * 2 ^ 16 + r.data.toNat

/-! ### The step -/

/-- A command word that decodes is taken and executed (30_encoding.md R90). The step adds nothing around exec but the
removal of the word from the host's list, which is the model's (log 1). -/
def Obligations.StepRunsDecodedInstruction : Prop :=
  ∀ (s : State) (w : Word32) (rest : List Input) (i : Instr),
    s.inputs = .command w :: rest → s.link ≠ .stalled → decode w = .ok i → step s = exec i { s with inputs := rest }

/-- ILLEGAL_CMD (60_exceptions.md R223), raised by the decoder for a word that no row's mask and match give and for no
other: `aux = 0`, nothing written, no bus event, the response 0x10000000. -/
def Obligations.IllegalCommandRaises : Prop :=
  (∀ (s : State) (w : Word32) (rest : List Input),
    s.inputs = .command w :: rest → s.link ≠ .stalled → (∀ r ∈ opcodeRows, w &&& r.mask ≠ r.pattern) →
      step s = .next { s with inputs := rest, rsps := s.rsps ++ [⟨.illegalCmd, 0, 0⟩] }) ∧
  (∀ (i : Instr) (s t : State) (aux : Byte) (data : Word), exec i s = .next t →
    t.rsps ≠ s.rsps ++ [⟨.illegalCmd, aux, data⟩]) ∧
  (⟨.illegalCmd, 0, 0⟩ : Response).word = 0x10000000

/-- Steps that accept no command: nothing to take; a stalled block, which accepts none (70_reset_and_hazards.md R262);
the device changing on its own (20_memory.md R70). That the block then waits with its state unchanged, and that the
change ends a cut bus, is the model's (log 1, log 6). -/
def Obligations.StepsThatAcceptNoCommand : Prop :=
  ∀ s : State,
    (s.inputs = [] → step s = .next s) ∧
    (∀ w rest, s.inputs = .command w :: rest → s.link = .stalled → step s = .next s) ∧
    (∀ d rest, s.inputs = .device d :: rest →
      step s = .next { s with inputs := rest, dev := d, link := if s.link = .cut then .free else s.link })

/-- Reset (70_reset_and_hazards.md R250, R252): every piece of state at its reset value, a command in progress ended
without a response, ready for a command; the device is not reached. That it is a step of its own, what is left of the bus,
and that the bus record, the responses given, the parameters and the remaining inputs stay are the model's (log 1, log 2,
log 6, log 17); the values are the spec's decision D21 (log 10). -/
def Obligations.ResetInputResetsTheBlock : Prop :=
  ∀ (s : State) (rest : List Input), s.inputs = .reset :: rest → ∃ t, step s = .next t ∧
    (∀ i : Fin 32, t.x[i] = 0) ∧ t.ctl = .uninit ∧ t.cfg = 0 ∧ t.stat = 0 ∧ t.row = 0 ∧ t.elapsed = 0 ∧
    (∀ (r : Fin 24) (c : Fin 32), (t.fb[r])[c] = 0) ∧
    t.link ≠ .stalled ∧ (s.link = .free → t.link = .free) ∧
    t.rsps = s.rsps ∧ t.bus = s.bus ∧ t.dev = s.dev ∧ t.params = s.params ∧ t.inputs = rest

/-- The reset values (10_state.md R45). -/
def Obligations.ResetStateValues : Prop :=
  (∀ i : Fin 32, State.reset.x[i] = 0) ∧ State.reset.ctl = .uninit ∧ State.reset.cfg = 0 ∧ State.reset.stat = 0 ∧
  State.reset.row = 0 ∧ State.reset.elapsed = 0 ∧ (∀ (r : Fin 24) (c : Fin 32), (State.reset.fb[r])[c] = 0) ∧
  State.reset.link = .free

/-- The invariant holds after reset. -/
def Obligations.InvariantAtReset : Prop := State.reset.Inv

/-- Every step keeps the invariant: ROW 0..25 (10_state.md R24), never CAPTURING between commands (R28), the latched
has-new-data bit 0 (R25), a canonical memory of the reference device (log 8). -/
def Obligations.StepKeepsInvariant : Prop :=
  ∀ s t : State, s.Inv → step s = .next t → t.Inv

/-! ### Values: swap, fields, addresses -/

/-- The swap (41_register_codec.md R140). -/
def Obligations.SwapExchangesBytes : Prop :=
  ∀ v : Word, (swap16 v).toNat = v.toNat % 256 * 256 + v.toNat / 256 ∧ swap16 (swap16 v) = v ∧
    (swap16 v = v ↔ v.toNat % 256 = v.toNat / 256)

/-- Extract and insert (41_register_codec.md R146, R147): a field's value, and that an insert changes no other bit. -/
def Obligations.FieldExtractInsert : Prop :=
  ∀ (w v : Word) (f : Field), f.InWord →
    (getField w f).toNat = w.toNat / 2 ^ f.lsb % 2 ^ f.width ∧
    (getField (setField w f v) f).toNat = v.toNat % 2 ^ f.width ∧
    (∀ i, i < f.lsb ∨ f.lsb + f.width ≤ i → (setField w f v).getLsbD i = w.getLsbD i) ∧
    (∀ g : Field, g.InWord → f.Disjoint g → getField (setField w f v) g = getField w g)

/-- The laws of pack and unpack (41_register_codec.md R148). -/
def Obligations.CfgPackUnpack : Prop :=
  ∀ l : CfgLayout, l.Valid →
    (∀ w : Word, cfgPack l (cfgUnpack l w) = w) ∧
    (∀ r : CfgRecord, r.reserved &&& ~~~(cfgReservedMask l) = 0 → cfgUnpack l (cfgPack l r) = r)

/-- CFG_DEFAULT (10_state.md R32): its fields for every valid layout, its value for the default one. -/
def Obligations.CfgDefaultFields : Prop :=
  (∀ p : Params, p.Valid → cfgUnpack p.cfgLayout (cfgDefault p) = ⟨1, 0, 0, 0, p.refreshDefault, 3, 0, 0⟩) ∧
  cfgDefault .default = 0x0F81

/-- The Status Register functions (41_register_codec.md R149): each field's value; the acknowledge clears the has-new-data
bit and no other; the words of the default layout. -/
def Obligations.StatAckClearsOneBit : Prop :=
  (∀ (l : StatLayout) (w : Word), l.Valid →
    (statSubpage l w).toNat = w.toNat / 2 ^ l.subpage.lsb % 8 ∧ (statNewData l w).toNat = w.toNat / 2 ^ l.newData.lsb % 2 ∧
    (statEndOverwrite l w).toNat = w.toNat / 2 ^ l.endOverwrite.lsb % 2 ∧ statNewData l (statAck l w) = 0 ∧
    ∀ i, i ≠ l.newData.lsb → (statAck l w).getLsbD i = w.getLsbD i) ∧
  (∀ w : Word, statAck .default w = w &&& 0xFFF7) ∧
  statAck .default 0x0019 = 0x0011 ∧ statSubpage .default 0x0019 = 1

/-- The row address (20_memory.md R63) and the addressing bytes (30_encoding.md R102). -/
def Obligations.AddressesOnTheBus : Prop :=
  (∀ (p : Params) (r : Nat), r < 24 → (rowAddr p r).toNat = (p.frameBase.toNat + r * 32) % 2 ^ 16) ∧
  (∀ p : Params, (slaW p).toNat = 2 * p.devAddr.toNat ∧ (slaR p).toNat = 2 * p.devAddr.toNat + 1) ∧
  rowAddr .default 0 = 0x0400 ∧ rowAddr .default 1 = 0x0420 ∧ rowAddr .default 22 = 0x06C0 ∧ rowAddr .default 23 = 0x06E0 ∧
  slaW .default = 0x66 ∧ slaR .default = 0x67

/-! ### Host access and codec -/

/-- `LDX i, v` (44_host_access.md R200). -/
def Obligations.LdxWritesOneWord : Prop :=
  ∀ (i : Nat) (v : Word) (s : State),
    (∀ h : i < 32, exec (.ldx i v) s = .next { s with x := s.x.set i v h, rsps := s.rsps ++ [⟨.ok, 0, 0⟩] }) ∧
    (31 < i → exec (.ldx i v) s = .next { s with rsps := s.rsps ++ [⟨.badOperand, 0, 0⟩] }) ∧
    (i < 256 → (encode (.ldx i v)).toNat = 0x50 * 2 ^ 24 + i * 2 ^ 16 + v.toNat)

/-- `RDX i` (44_host_access.md R201). -/
def Obligations.RdxReturnsWord : Prop :=
  ∀ (i : Nat) (s : State),
    (∀ h : i < 32, exec (.rdx i) s = .next { s with rsps := s.rsps ++ [⟨.ok, 0, s.x[i]'h⟩] }) ∧
    (31 < i → exec (.rdx i) s = .next { s with rsps := s.rsps ++ [⟨.badOperand, 0, 0⟩] }) ∧
    (i < 256 → (encode (.rdx i)).toNat = 0x51 * 2 ^ 24 + i * 2 ^ 16)

/-- `RDFB r, c` (44_host_access.md R202); a word with a bit of `cmd[15:5]` set is illegal. -/
def Obligations.RdfbReturnsCell : Prop :=
  ∀ (r : Nat) (c : Fin 32) (s : State),
    (∀ h : r < 24, exec (.rdfb r c) s = .next { s with rsps := s.rsps ++ [⟨.ok, 0, (s.fb[r]'h)[c]⟩] }) ∧
    (23 < r → exec (.rdfb r c) s = .next { s with rsps := s.rsps ++ [⟨.badOperand, 0, 0⟩] }) ∧
    (r < 256 → (encode (.rdfb r c)).toNat = 0x52 * 2 ^ 24 + r * 2 ^ 16 + c.val) ∧
    (∀ w : Word32, w.toNat / 2 ^ 24 = 0x52 → w.toNat / 2 ^ 5 % 2 ^ 11 ≠ 0 → decode w = .error .nonzeroField)

/-- `RDCSR i` (44_host_access.md R203, 10_state.md R38). -/
def Obligations.RdcsrReturnsRegister : Prop :=
  ∀ s : State, let answers (i : Nat) (v : Word) := exec (.rdcsr i) s = .next { s with rsps := s.rsps ++ [⟨.ok, 0, v⟩] }
    answers 0 (match s.ctl with | .uninit => 0 | .configured => 1 | .idle => 2 | .capturing => 3) ∧
    answers 1 s.cfg ∧ answers 2 s.stat ∧ answers 3 (statSubpage s.params.statLayout s.stat) ∧
    answers 4 (BitVec.ofNat 16 s.row.toNat) ∧ answers 5 s.elapsed ∧
    ∀ i, 5 < i → exec (.rdcsr i) s = .next { s with rsps := s.rsps ++ [⟨.badOperand, 0, 0⟩] }

/-- `DEC n` and `ENC n` (41_register_codec.md R143, R144). -/
def Obligations.CodecSwapsFirstWords : Prop :=
  ∀ (n : Nat) (s : State), ∀ i ∈ [Instr.dec n, Instr.enc n],
    (n ≤ 32 → exec i s = .next { s with
        x := Vector.ofFn fun k : Fin 32 => if k.val < n then swap16 s.x[k] else s.x[k]
        rsps := s.rsps ++ [⟨.ok, 0, 0⟩] }) ∧
    (32 < n → exec i s = .next { s with rsps := s.rsps ++ [⟨.badOperand, 0, 0⟩] }) ∧
    (n < 256 → (encode i).toNat = (if i = .dec n then 0x20 else 0x21) * 2 ^ 24 + n * 2 ^ 16)

/-- A transfer of zero words (41_register_codec.md R145, 40_bus_transport.md R125): no bus event, no state changed,
whatever the bus and the device are. -/
def Obligations.ZeroWordTransfersAreNoops : Prop :=
  (∀ (p : Params) (d : Device) (addr : Word), memRead p d addr 0 = ⟨[], d, .ok []⟩ ∧ memWrite p d addr [] = ⟨[], d, .ok ()⟩) ∧
  (∀ (s : State) (addr : Word), ∀ i ∈ [Instr.dec 0, .enc 0, .brd addr 0, .bwr addr 0],
    exec i s = .next { s with rsps := s.rsps ++ [⟨.ok, 0, 0⟩] })

/-! ### Command errors -/

/-- BAD_OPERAND (60_exceptions.md R224): raised for an operand out of its range and for nothing else; `aux = 0`, nothing
written, no bus event. -/
def Obligations.BadOperandLeavesStateAlone : Prop :=
  (∀ (i : Instr) (s : State), outOfRange i = true →
    exec i s = .next { s with rsps := s.rsps ++ [⟨.badOperand, 0, 0⟩] }) ∧
  (∀ (i : Instr) (s t : State) (aux : Byte) (data : Word), exec i s = .next t →
    t.rsps = s.rsps ++ [⟨.badOperand, aux, data⟩] → outOfRange i = true) ∧
  (⟨.badOperand, 0, 0⟩ : Response).word = 0x11000000

/-- BAD_STATE (60_exceptions.md R225): raised by `POLL` and `CAPTURE` in UNINIT and by no other command; `aux = 0`,
nothing written, no bus event. -/
def Obligations.BadStateOnlyBeforeInit : Prop :=
  (∀ s : State, s.ctl = .uninit → ∀ i ∈ [Instr.poll, .capture],
    exec i s = .next { s with rsps := s.rsps ++ [⟨.badState, 0, 0⟩] }) ∧
  (∀ (i : Instr) (s t : State) (aux : Byte) (data : Word), exec i s = .next t →
    t.rsps = s.rsps ++ [⟨.badState, aux, data⟩] → s.ctl = .uninit ∧ (i = .poll ∨ i = .capture)) ∧
  (⟨.badState, 0, 0⟩ : Response).word = 0x12000000

/-! ### Transactions -/

/-- A read transaction whose bytes are acknowledged (40_bus_transport.md R122, 30_encoding.md R103), for any answers of
the device: four acknowledges, then the bytes it supplies. Raw word: first byte low (20_memory.md R65). -/
def Obligations.MemReadFrame : Prop :=
  ∀ (p : Params) (addr : Word) (n : Nat) (acks bytes rest : List Answer),
    0 < n → acks.length = 4 → AllAck acks → bytes.length = 2 * n →
    ∃ ws, memRead p (.oracle (acks ++ bytes ++ rest)) addr n =
        ⟨readFrame p addr (bytes.map Answer.data), .oracle rest, .ok ws⟩ ∧
      ws.length = n ∧
      ∀ i, i < n → ws[i]? = (bytes.map Answer.data)[2 * i + 1]?.bind fun hi =>
        (bytes.map Answer.data)[2 * i]?.map fun lo => hi ++ lo

/-- Refusals in a read transaction (40_bus_transport.md R122, R123): of address byte `j`, NO_ACK and the later bytes not
sent; of `SLA_R`, SHORT_READ with count 0. Either way `P` ends it. -/
def Obligations.MemReadRefusals : Prop :=
  ∀ (p : Params) (addr : Word) (n : Nat) (acks rest : List Answer) (no : Answer),
    0 < n → AllAck acks → no.ack = false →
    (acks.length < 3 → memRead p (.oracle (acks ++ no :: rest)) addr n =
      ⟨(addressEvents p addr).take (acks.length + 1) ++
        (addressPhase p addr)[acks.length]?.toList.map (BusEvent.transmit · false) ++ [.stop], .oracle rest, .err .noAck⟩) ∧
    (acks.length = 3 → memRead p (.oracle (acks ++ no :: rest)) addr n =
      ⟨addressEvents p addr ++ [.repStart, .transmit (slaR p) false, .stop], .oracle rest, .err (.shortRead 0)⟩)

/-- A write transaction whose bytes are acknowledged (40_bus_transport.md R124, 30_encoding.md R104): of each raw word
the low byte first. -/
def Obligations.MemWriteFrame : Prop :=
  ∀ (p : Params) (addr : Word) (ws : List Word) (acks rest : List Answer),
    ws ≠ [] → acks.length = 3 + 2 * ws.length → AllAck acks →
    memWrite p (.oracle (acks ++ rest)) addr ws =
      ⟨writeFrame p addr (ws.flatMap fun w => [w.extractLsb' 0 8, w.extractLsb' 8 8]), .oracle rest, .ok ()⟩

/-- Refusals in a write transaction (40_bus_transport.md R124): of address byte `j`, NO_ACK; of data byte `j`,
SHORT_WRITE with count `j`. Either way `P` ends it and no later byte is sent. -/
def Obligations.MemWriteRefusals : Prop :=
  ∀ (p : Params) (addr : Word) (ws : List Word) (acks rest : List Answer) (no : Answer),
    ws ≠ [] → AllAck acks → no.ack = false →
    let bytes := ws.flatMap fun w => [w.extractLsb' 0 8, w.extractLsb' 8 8]
    (acks.length < 3 → memWrite p (.oracle (acks ++ no :: rest)) addr ws =
      ⟨(addressEvents p addr).take (acks.length + 1) ++
        (addressPhase p addr)[acks.length]?.toList.map (BusEvent.transmit · false) ++ [.stop], .oracle rest, .err .noAck⟩) ∧
    (∀ j, j < 2 * ws.length → acks.length = 3 + j → memWrite p (.oracle (acks ++ no :: rest)) addr ws =
      ⟨addressEvents p addr ++ (bytes.take j).map (BusEvent.transmit · true) ++
        bytes[j]?.toList.map (BusEvent.transmit · false) ++ [.stop], .oracle rest, .err (.shortWrite j)⟩)

/-- A transaction with an event that is never answered never ends (40_bus_transport.md R130): too few answers, all
acknowledging. Answers that end are the model's form of it (log 5). -/
def Obligations.UnansweredEventNeverEnds : Prop :=
  ∀ (p : Params) (addr : Word) (as : List Answer), AllAck as →
    (∀ n, 0 < n → as.length < 4 + 2 * n → (memRead p (.oracle as) addr n).result = .unanswered) ∧
    (∀ ws, ws ≠ [] → as.length < 3 + 2 * ws.length → (memWrite p (.oracle as) addr ws).result = .unanswered)

/-! ### Transport and register access -/

/-- `BRD addr, n` (40_bus_transport.md R126), for every device and every controller state. -/
def Obligations.BrdReadsRawWords : Prop :=
  ∀ (addr : Word) (n : Nat) (s : State) (es : List BusEvent) (d : Device),
    (32 < n → exec (.brd addr n) s = .next { s with rsps := s.rsps ++ [⟨.badOperand, 0, 0⟩] }) ∧
    (n ≤ 32 → s.link = .free →
      (∀ ws, memRead s.params s.dev addr n = ⟨es, d, .ok ws⟩ → ws.length = n ∧
        exec (.brd addr n) s = .next { s with
          x := Vector.ofFn fun i : Fin 32 => if i.val < n then ws.getD i.val 0 else s.x[i]
          bus := s.bus ++ es, dev := d, rsps := s.rsps ++ [⟨.ok, 0, 0⟩] }) ∧
      (∀ e, memRead s.params s.dev addr n = ⟨es, d, .err e⟩ → (e = .noAck ∨ e = .shortRead 0) ∧
        exec (.brd addr n) s = .next { s with bus := s.bus ++ es, dev := d, rsps := s.rsps ++ [⟨e.code, 0, 0⟩] })) ∧
    (n < 256 → (encode (.brd addr n)).toNat = 0x10 * 2 ^ 24 + n * 2 ^ 16 + addr.toNat)

/-- `BWR addr, n` (40_bus_transport.md R127): X goes out raw and stays; SHORT_WRITE reports the bytes acknowledged. -/
def Obligations.BwrSendsRawWords : Prop :=
  ∀ (addr : Word) (n : Nat) (s : State) (es : List BusEvent) (d : Device),
    (32 < n → exec (.bwr addr n) s = .next { s with rsps := s.rsps ++ [⟨.badOperand, 0, 0⟩] }) ∧
    (n ≤ 32 → s.link = .free →
      (memWrite s.params s.dev addr (s.x.toList.take n) = ⟨es, d, .ok ()⟩ →
        exec (.bwr addr n) s = .next { s with bus := s.bus ++ es, dev := d, rsps := s.rsps ++ [⟨.ok, 0, 0⟩] }) ∧
      (memWrite s.params s.dev addr (s.x.toList.take n) = ⟨es, d, .err .noAck⟩ →
        exec (.bwr addr n) s = .next { s with bus := s.bus ++ es, dev := d, rsps := s.rsps ++ [⟨.noAck, 0, 0⟩] }) ∧
      (∀ k, memWrite s.params s.dev addr (s.x.toList.take n) = ⟨es, d, .err (.shortWrite k)⟩ → k < 2 * n ∧
        exec (.bwr addr n) s = .next { s with
          bus := s.bus ++ es, dev := d, rsps := s.rsps ++ [⟨.shortWrite, BitVec.ofNat 8 k, 0⟩] }) ∧
      (∀ k, memWrite s.params s.dev addr (s.x.toList.take n) ≠ ⟨es, d, .err (.shortRead k)⟩)) ∧
    (n < 256 → (encode (.bwr addr n)).toNat = 0x11 * 2 ^ 24 + n * 2 ^ 16 + addr.toNat)

/-- `RDREG addr` (42_register_access.md R162): the value is the swapped raw word. -/
def Obligations.RdregReadsValue : Prop :=
  ∀ (addr : Word) (s : State) (es : List BusEvent) (d : Device), s.link = .free →
    (∀ w, memRead s.params s.dev addr 1 = ⟨es, d, .ok [w]⟩ →
      exec (.rdreg addr) s = .next { s with
        x := s.x.set 0 (swap16 w), bus := s.bus ++ es, dev := d, rsps := s.rsps ++ [⟨.ok, 0, swap16 w⟩] }) ∧
    (∀ e, memRead s.params s.dev addr 1 = ⟨es, d, .err e⟩ → (e = .noAck ∨ e = .shortRead 0) ∧
      exec (.rdreg addr) s = .next { s with bus := s.bus ++ es, dev := d, rsps := s.rsps ++ [⟨e.code, 0, 0⟩] }) ∧
    (encode (.rdreg addr)).toNat = 0x30 * 2 ^ 24 + addr.toNat

/-- `WRREG addr` (42_register_access.md R163): the swapped `X[0]` is sent; no state of the block changes. -/
def Obligations.WrregWritesValue : Prop :=
  ∀ (addr : Word) (s : State) (es : List BusEvent) (d : Device), s.link = .free →
    (memWrite s.params s.dev addr [swap16 s.x[0]] = ⟨es, d, .ok ()⟩ →
      exec (.wrreg addr) s = .next { s with bus := s.bus ++ es, dev := d, rsps := s.rsps ++ [⟨.ok, 0, 0⟩] }) ∧
    (memWrite s.params s.dev addr [swap16 s.x[0]] = ⟨es, d, .err .noAck⟩ →
      exec (.wrreg addr) s = .next { s with bus := s.bus ++ es, dev := d, rsps := s.rsps ++ [⟨.noAck, 0, 0⟩] }) ∧
    (∀ k, memWrite s.params s.dev addr [swap16 s.x[0]] = ⟨es, d, .err (.shortWrite k)⟩ → k < 2 ∧
      exec (.wrreg addr) s = .next { s with
        bus := s.bus ++ es, dev := d, rsps := s.rsps ++ [⟨.shortWrite, BitVec.ofNat 8 k, 0⟩] }) ∧
    (encode (.wrreg addr)).toNat = 0x31 * 2 ^ 24 + addr.toNat

/-- `RDREG addr` is `BRD addr, 1` ; `DEC 1` ; `RDX 0` when the `BRD` succeeds, and answers as the `BRD` when it fails
(42_register_access.md R164). -/
def Obligations.RdregIsBrdDecRdx : Prop :=
  ∀ (addr : Word) (s t : State), s.link = .free → exec (.brd addr 1) s = .next t →
    (∀ aux data, t.rsps = s.rsps ++ [⟨.ok, aux, data⟩] →
      ∃ u v r, exec (.dec 1) t = .next u ∧ exec (.rdx 0) u = .next v ∧ v.rsps = u.rsps ++ [r] ∧
        exec (.rdreg addr) s = .next { v with rsps := s.rsps ++ [r] }) ∧
    (∀ e aux data, e ≠ .ok → t.rsps = s.rsps ++ [⟨e, aux, data⟩] → exec (.rdreg addr) s = .next t ∧ t.x = s.x)

/-- `WRREG addr` has the bus events, the final state and the response of `ENC 1` ; `BWR addr, 1` ; `DEC 1`, the response
being the `BWR`'s (42_register_access.md R165). -/
def Obligations.WrregIsEncBwrDec : Prop :=
  ∀ (addr : Word) (s t u v : State) (r : Response), s.link = .free →
    exec (.enc 1) s = .next t → exec (.bwr addr 1) t = .next u → u.rsps = t.rsps ++ [r] → exec (.dec 1) u = .next v →
    exec (.wrreg addr) s = .next { v with rsps := s.rsps ++ [r] }

/-! ### Controller -/

/-- `INIT` (43_sensor_controller.md R171, R173), from every controller state: the default goes out; the read-back comes in
uncompared; an error carries the index of the failing transaction and leaves CFG_DEFAULT and UNINIT. `STAT`, `ROW`,
`ELAPSED`, `X`, `FB` stay (R174). -/
def Obligations.InitConfigures : Prop :=
  ∀ (s : State) (es₁ es₂ : List BusEvent) (d₁ d₂ : Device), s.link = .free →
    let sent := memWrite s.params s.dev s.params.addrConfig [swap16 (cfgDefault s.params)]
    (∀ w, sent = ⟨es₁, d₁, .ok ()⟩ → memRead s.params d₁ s.params.addrConfig 1 = ⟨es₂, d₂, .ok [w]⟩ →
      exec .init s = .next { s with
        ctl := .configured, cfg := swap16 w
        bus := s.bus ++ es₁ ++ es₂, dev := d₂, rsps := s.rsps ++ [⟨.ok, 0, swap16 w⟩] }) ∧
    (∀ e, sent = ⟨es₁, d₁, .err e⟩ → (e = .noAck ∨ e = .shortWrite 0 ∨ e = .shortWrite 1) ∧
      exec .init s = .next { s with
        ctl := .uninit, cfg := cfgDefault s.params
        bus := s.bus ++ es₁, dev := d₁, rsps := s.rsps ++ [⟨e.code, 0, 0⟩] }) ∧
    (∀ e, sent = ⟨es₁, d₁, .ok ()⟩ → memRead s.params d₁ s.params.addrConfig 1 = ⟨es₂, d₂, .err e⟩ →
      (e = .noAck ∨ e = .shortRead 0) ∧
      exec .init s = .next { s with
        ctl := .uninit, cfg := cfgDefault s.params
        bus := s.bus ++ es₁ ++ es₂, dev := d₂, rsps := s.rsps ++ [⟨e.code, 1, 0⟩] }) ∧
    (encode .init).toNat = 0x40000000

/-- `POLL` (43_sensor_controller.md R178, R179): it writes back exactly when the word it read has the flag set, with the
flag cleared and no other bit changed; the subpage is latched either way (R181). A failed read leaves STAT, a failed
write-back leaves it cleared locally, STATE unchanged; BAD_STATE in UNINIT. -/
def Obligations.PollReportsNewData : Prop :=
  ∀ (s : State) (es₁ es₂ : List BusEvent) (d₁ d₂ : Device),
    let read := memRead s.params s.dev s.params.addrStatus 1
    let ack (w : Word) := statAck s.params.statLayout (swap16 w)
    (s.ctl = .uninit → exec .poll s = .next { s with rsps := s.rsps ++ [⟨.badState, 0, 0⟩] }) ∧
    (s.link = .free → s.ctl ≠ .uninit →
      (∀ w, read = ⟨es₁, d₁, .ok [w]⟩ → statNewData s.params.statLayout (swap16 w) = 1 →
        (memWrite s.params d₁ s.params.addrStatus [swap16 (ack w)] = ⟨es₂, d₂, .ok ()⟩ →
          exec .poll s = .next { s with
            stat := ack w, ctl := .idle, bus := s.bus ++ es₁ ++ es₂, dev := d₂
            rsps := s.rsps ++ [⟨.ok, 1, ack w⟩] }) ∧
        (∀ e, memWrite s.params d₁ s.params.addrStatus [swap16 (ack w)] = ⟨es₂, d₂, .err e⟩ →
          (e = .noAck ∨ e = .shortWrite 0 ∨ e = .shortWrite 1) ∧
          exec .poll s = .next { s with
            stat := ack w, bus := s.bus ++ es₁ ++ es₂, dev := d₂, rsps := s.rsps ++ [⟨e.code, 1, 0⟩] })) ∧
      (∀ w, read = ⟨es₁, d₁, .ok [w]⟩ → statNewData s.params.statLayout (swap16 w) ≠ 1 →
        exec .poll s = .next { s with
          stat := swap16 w, ctl := .idle, bus := s.bus ++ es₁, dev := d₁, rsps := s.rsps ++ [⟨.ok, 0, swap16 w⟩] }) ∧
      (∀ e, read = ⟨es₁, d₁, .err e⟩ → (e = .noAck ∨ e = .shortRead 0) ∧
        exec .poll s = .next { s with bus := s.bus ++ es₁, dev := d₁, rsps := s.rsps ++ [⟨e.code, 0, 0⟩] })) ∧
    (encode .poll).toNat = 0x41000000

/-- `CAPTURE` when every row read succeeds (43_sensor_controller.md R183, R186): the rows `s, s+2, ...` decoded into FB,
the count of rows and ELAPSED answered. ELAPSED is a free value (10_state.md R37, log 11). -/
def Obligations.CaptureStoresRows : Prop :=
  ∀ (s : State) (q : RowReads), s.params.Valid → s.link = .free → s.ctl ≠ .uninit →
    readRows s.params s.dev (rowsFrom s.subpage.toNat) = some q →
    exec .capture s = .next { s with
      ctl := .idle
      elapsed := Config.elapsedDraw s.draws, draws := s.draws + 1
      row := if s.subpage.toNat % 2 = 0 then 24 else 25
      x := lastRow s.x q.words
      fb := frameWith s.fb s.subpage.toNat q.words
      bus := s.bus ++ q.events, dev := q.dev
      rsps := s.rsps ++ [⟨.ok, BitVec.ofNat 8 ((25 - s.subpage.toNat) / 2), Config.elapsedDraw s.draws⟩] }

/-- Errors of `CAPTURE` (43_sensor_controller.md R185): BAD_STATE in UNINIT; when the read of row `r` fails the rows
before it are stored, it and the later ones keep their values, ROW and `aux` name it, STATE is IDLE. The
counter of draws is the model's (log 11). -/
def Obligations.CaptureStopsAtFailingRow : Prop :=
  (∀ s : State, s.ctl = .uninit → exec .capture s = .next { s with rsps := s.rsps ++ [⟨.badState, 0, 0⟩] }) ∧
  (∀ (s : State) (pre post : List Nat) (r : Nat) (q : RowReads) (es : List BusEvent) (d : Device) (e : BusErr),
    s.params.Valid → s.link = .free → s.ctl ≠ .uninit →
    rowsFrom s.subpage.toNat = pre ++ r :: post → readRows s.params s.dev pre = some q →
    memRead s.params q.dev (rowAddr s.params r) 32 = ⟨es, d, .err e⟩ → (e = .noAck ∨ e = .shortRead 0) ∧
    exec .capture s = .next { s with
      ctl := .idle
      elapsed := Config.elapsedDraw s.draws, draws := s.draws + 1
      row := BitVec.ofNat 5 r
      x := lastRow s.x q.words
      fb := frameWith s.fb s.subpage.toNat q.words
      bus := s.bus ++ q.events ++ es, dev := d
      rsps := s.rsps ++ [⟨e.code, BitVec.ofNat 8 r, 0⟩] })

/-- A row changes as a unit (43_sensor_controller.md R184): after a `CAPTURE`, however it ended, each row is as before or
holds the 64 bytes of one complete read transaction of that row, the first byte of each word high. -/
def Obligations.CaptureRowIsOneTransaction : Prop :=
  ∀ s t : State, exec .capture s = .next t → ∀ r : Fin 24, t.fb[r] = s.fb[r] ∨
    ∃ (before after : List BusEvent) (bytes : List Byte), bytes.length = 64 ∧
      t.bus = s.bus ++ before ++ readFrame s.params (rowAddr s.params r.val) bytes ++ after ∧
      ∀ c : Fin 32, (t.fb[r])[c] = bytes.getD (2 * c.val) 0 ++ bytes.getD (2 * c.val + 1) 0

/-- Interlace (43_sensor_controller.md R186) as a frame: whatever the device answers and however the `CAPTURE` ends, a row
below the latched subpage or of the other parity is unchanged, and so are CFG, STAT and the parameters. -/
def Obligations.CaptureInterlace : Prop :=
  ∀ s t : State, s.params.Valid → exec .capture s = .next t →
    (∀ r : Fin 24, r.val < s.subpage.toNat ∨ r.val % 2 ≠ s.subpage.toNat % 2 → t.fb[r] = s.fb[r]) ∧
    t.cfg = s.cfg ∧ t.stat = s.stat ∧ t.params = s.params

/-! ### The whole machine -/

/-- The frame of every command: each piece of state is written only by the commands the rules name (10_state.md R22,
44_host_access.md R204, 40_bus_transport.md R129), and only commands that use the bus reach the bus and the device. -/
def Obligations.WhoWritesWhat : Prop :=
  ∀ (i : Instr) (s t : State), exec i s = .next t →
    (∀ k : Fin 32, t.x[k] ≠ s.x[k] → mayWriteX i k.val = true) ∧
    (t.cfg ≠ s.cfg → i = .init) ∧ (t.stat ≠ s.stat → i = .poll) ∧
    (t.row ≠ s.row ∨ t.elapsed ≠ s.elapsed ∨ t.fb ≠ s.fb ∨ t.draws ≠ s.draws → i = .capture) ∧
    (t.ctl ≠ s.ctl → i = .init ∨ i = .poll ∨ i = .capture) ∧
    (t.bus ≠ s.bus ∨ t.dev ≠ s.dev ∨ t.link ≠ s.link → usesBus i = true) ∧
    t.params = s.params ∧ t.inputs = s.inputs

/-- Every transition of STATE, and no other (10_state.md R27). A command that is stalled has not ended. -/
def Obligations.ControllerTransitions : Prop :=
  ∀ (i : Instr) (s t : State) (r : Response), exec i s = .next t → t.rsps = s.rsps ++ [r] →
    (i = .init → t.ctl = if r.err = .ok then .configured else .uninit) ∧
    (i = .poll → t.ctl = if r.err = .ok then .idle else s.ctl) ∧
    (i = .capture → t.ctl = if s.ctl = .uninit then .uninit else .idle) ∧
    (i ≠ .init → i ≠ .poll → i ≠ .capture → t.ctl = s.ctl)

/-- CONFIGURED and IDLE are indistinguishable but to `RDCSR 0` (10_state.md R28). -/
def Obligations.ConfiguredIdleIndistinguishable : Prop :=
  ∀ (i : Instr) (s : State), i ≠ .rdcsr 0 →
    (∀ t, exec i { s with ctl := .configured } = .next t →
      ∃ u, exec i { s with ctl := .idle } = .next u ∧ { t with ctl := .idle } = { u with ctl := .idle }) ∧
    (∀ u, exec i { s with ctl := .idle } = .next u →
      ∃ t, exec i { s with ctl := .configured } = .next t ∧ { t with ctl := .idle } = { u with ctl := .idle })

/-- The transport, codec, register access and host access commands are accepted in every STATE and never change it, and
act alike in all, but for `RDCSR 0`, which reads it (40_bus_transport.md R129, 41_register_codec.md R152,
44_host_access.md R204). -/
def Obligations.LeafCommandsIgnoreState : Prop :=
  ∀ (i : Instr) (s t : State) (c : Ctl),
    i.family = .transport ∨ i.family = .codec ∨ i.family = .registerAccess ∨ i.family = .hostAccess →
    exec i s = .next t →
      t.ctl = s.ctl ∧ (i ≠ .rdcsr 0 → exec i { s with ctl := c } = .next { t with ctl := c })

/-- Exactly one response per command (30_encoding.md R90), with `data = 0` whenever it is an error (R93), unless the
command hangs, and then none (70_reset_and_hazards.md R262). -/
def Obligations.OneResponsePerCommand : Prop :=
  ∀ (i : Instr) (s t : State), exec i s = .next t →
    (t.link = s.link ∧ ∃ r, t.rsps = s.rsps ++ [r] ∧ (r.err ≠ .ok → r.data = 0)) ∨
    (t.link = .stalled ∧ t.rsps = s.rsps ∧ usesBus i = true)

/-- A decoded command raises only the errors 60_exceptions.md R234 gives it. -/
def Obligations.ErrorsOfTheTable : Prop :=
  ∀ (i : Instr) (s t : State) (r : Response), exec i s = .next t → t.rsps = s.rsps ++ [r] →
    r.err = .ok ∨ r.err ∈ mayRaise i

/-- No failure of the bus is hidden (60_exceptions.md R233): a command that ended answers a bus error exactly when the
device refused a byte of its transactions. -/
def Obligations.NoFailureIsHidden : Prop :=
  ∀ (i : Instr) (s t : State) (r : Response), exec i s = .next t → t.rsps = s.rsps ++ [r] →
    ∃ es, t.bus = s.bus ++ es ∧ (HasRefusal es ↔ r.err = .noAck ∨ r.err = .shortRead ∨ r.err = .shortWrite)

/-- Every transaction that begins with `S` ends with `P`, none begins inside another, and nothing but `P` follows a
refusal (40_bus_transport.md R122, R124; 10_state.md R42): after a command that ended, the bus is free. A stalled one
leaves a transaction open. -/
def Obligations.BusTransactionsComplete : Prop :=
  ∀ (i : Instr) (s t : State), s.link = .free → exec i s = .next t →
    ∃ es, t.bus = s.bus ++ es ∧ (t.link = .free ∧ busPhase es = .idle ∨ t.link = .stalled ∧ busPhase es = .busy)

/-- Every command on a free bus answers a next state; none is refused; the one fault is a transaction on a bus that is
not free: of `BRD` and `BWR` with a count in range and not 0, of `RDREG`, `WRREG` and `INIT`, of `POLL` and `CAPTURE` after
an Initialize (93_implementation_defined.md U13; the fault is the model's, log 6). -/
def Obligations.CommandsRunOnFreeBus : Prop :=
  (∀ (i : Instr) (s : State), s.link = .free → ∃ t, exec i s = .next t) ∧
  (∀ (i : Instr) (s : State) (r : Refusal), exec i s ≠ .refused r) ∧
  (∀ (i : Instr) (s : State), usesBus i = false → ∃ t, exec i s = .next t) ∧
  (∀ (addr : Word) (n : Nat) (s : State), s.link ≠ .free →
    let faults (i : Instr) := exec i s = .fault .busUndefined
    (0 < n → n ≤ 32 → faults (.brd addr n) ∧ faults (.bwr addr n)) ∧
    faults (.rdreg addr) ∧ faults (.wrreg addr) ∧ faults .init ∧
    (s.ctl ≠ .uninit → faults .poll ∧ (s.params.Valid → faults .capture)))

/-- A command with a transaction that is never answered hangs: no response, the block stalled
(70_reset_and_hazards.md R262), with what it had written before: `INIT` in UNINIT in its write or its read-back, `POLL`
in its read or, the flag cleared locally, in its write-back, `CAPTURE` in CAPTURING at any row, the rows before it stored
(43_sensor_controller.md R171, R178, R183). The counter of draws is the model's (log 11). -/
def Obligations.UnansweredCommandHangs : Prop :=
  ∀ (s : State) (addr : Word) (n : Nat) (es es₂ : List BusEvent) (d d₂ : Device), s.link = .free →
    let hang : State := { s with bus := s.bus ++ es, dev := d, link := .stalled }
    let hang₂ : State := { s with bus := s.bus ++ es ++ es₂, dev := d₂, link := .stalled }
    let sent := memWrite s.params s.dev s.params.addrConfig [swap16 (cfgDefault s.params)]
    let read := memRead s.params s.dev s.params.addrStatus 1
    let ack (w : Word) := statAck s.params.statLayout (swap16 w)
    (n ≤ 32 → memRead s.params s.dev addr n = ⟨es, d, .unanswered⟩ → exec (.brd addr n) s = .next hang) ∧
    (n ≤ 32 → memWrite s.params s.dev addr (s.x.toList.take n) = ⟨es, d, .unanswered⟩ →
      exec (.bwr addr n) s = .next hang) ∧
    (memRead s.params s.dev addr 1 = ⟨es, d, .unanswered⟩ → exec (.rdreg addr) s = .next hang) ∧
    (memWrite s.params s.dev addr [swap16 s.x[0]] = ⟨es, d, .unanswered⟩ → exec (.wrreg addr) s = .next hang) ∧
    (sent = ⟨es, d, .unanswered⟩ → exec .init s = .next { hang with ctl := .uninit, cfg := cfgDefault s.params }) ∧
    (sent = ⟨es, d, .ok ()⟩ → memRead s.params d s.params.addrConfig 1 = ⟨es₂, d₂, .unanswered⟩ →
      exec .init s = .next { hang₂ with ctl := .uninit, cfg := cfgDefault s.params }) ∧
    (s.ctl ≠ .uninit → read = ⟨es, d, .unanswered⟩ → exec .poll s = .next hang) ∧
    (∀ w, s.ctl ≠ .uninit → read = ⟨es, d, .ok [w]⟩ → statNewData s.params.statLayout (swap16 w) = 1 →
      memWrite s.params d s.params.addrStatus [swap16 (ack w)] = ⟨es₂, d₂, .unanswered⟩ →
      exec .poll s = .next { hang₂ with stat := ack w }) ∧
    (∀ (pre post : List Nat) (r : Nat) (q : RowReads), s.ctl ≠ .uninit → s.params.Valid →
      rowsFrom s.subpage.toNat = pre ++ r :: post → readRows s.params s.dev pre = some q →
      memRead s.params q.dev (rowAddr s.params r) 32 = ⟨es, d, .unanswered⟩ →
      exec .capture s = .next { s with
        ctl := .capturing, elapsed := Config.elapsedDraw s.draws, draws := s.draws + 1
        row := BitVec.ofNat 5 r
        x := lastRow s.x q.words
        fb := frameWith s.fb s.subpage.toNat q.words
        bus := s.bus ++ q.events ++ es, dev := d, link := .stalled })

/-! ### The reference device -/

/-- The reference device answers a read with the words at consecutive addresses, high byte first (20_memory.md R71), and
keeps every word. -/
def Obligations.ReferenceDeviceReads : Prop :=
  ∀ (p : Params) (r : RefDevice) (addr : Word) (n : Nat), r.present = true → r.refusals = [] →
    ∃ (es : List BusEvent) (r' : RefDevice) (ws : List Word),
      memRead p (.reference r) addr n = ⟨es, .reference r', .ok ws⟩ ∧
      r'.mem = r.mem ∧ r'.present = true ∧ r'.refusals = [] ∧ ws.length = n ∧
      ∀ i, i < n → ws[i]? = some (swap16 (loadWord r.mem (addr + BitVec.ofNat 16 i)))

/-- The reference device stores the words of a complete write, first byte high (20_memory.md R71); every cell of
no word written keeps its byte. The byte cells are the model's (log 8). -/
def Obligations.ReferenceDeviceStores : Prop :=
  ∀ (p : Params) (r : RefDevice) (addr : Word) (ws : List Word), r.present = true → r.refusals = [] →
    ws.length ≤ 32 →
    ∃ (es : List BusEvent) (r' : RefDevice),
      memWrite p (.reference r) addr ws = ⟨es, .reference r', .ok ()⟩ ∧
      r'.present = true ∧ r'.refusals = [] ∧
      (∀ i, ∀ h : i < ws.length, loadWord r'.mem (addr + BitVec.ofNat 16 i) = swap16 ws[i]) ∧
      (∀ a, a ∉ cellsOf addr ws.length → loadByte r'.mem a = loadByte r.mem a)

/-- The memory frame of every command over the reference device: every byte is unchanged except those of the words its
write transactions name (20_memory.md R71), and all of them when a byte was refused in the only write.
The byte cells are the model's (log 8). -/
def Obligations.ReferenceMemoryFrame : Prop :=
  ∀ (i : Instr) (s t : State) (r : RefDevice), s.dev = .reference r → exec i s = .next t →
    ∃ r', t.dev = .reference r' ∧
      (∀ a, a ∉ storedCells i s.params → loadByte r'.mem a = loadByte r.mem a) ∧
      (∀ q, t.rsps = s.rsps ++ [q] → q.err ≠ .ok → i ≠ .init → r'.mem = r.mem)

/-- "`LDX 0, v` ; `WRREG a` ; `RDREG a` responds with `data = v`, for every `v`" over the reference device
(42_register_access.md R165). -/
def Obligations.RegisterWriteThenRead : Prop :=
  ∀ (s : State) (r : RefDevice) (a v : Word), s.link = .free → s.dev = .reference r → r.present = true →
    r.refusals = [] →
    ∃ t u w, exec (.ldx 0 v) s = .next t ∧ exec (.wrreg a) t = .next u ∧ exec (.rdreg a) u = .next w ∧
      w.rsps = s.rsps ++ [⟨.ok, 0, 0⟩, ⟨.ok, 0, 0⟩, ⟨.ok, 0, v⟩]

/-- The flag is cleared exactly once (43_sensor_controller.md R180): over the reference device with no change between
them, of two polls the first reports what the Status Register's flag says and the second reports `false`, with one read
transaction of the Status Register and no write transaction. -/
def Obligations.AcknowledgeExactlyOnce : Prop :=
  ∀ (s : State) (r : RefDevice), s.params.Valid → s.link = .free → s.ctl ≠ .uninit → s.dev = .reference r →
    r.present = true → r.refusals = [] →
    ∃ t u v, exec .poll s = .next t ∧ exec .poll t = .next u ∧
      t.rsps = s.rsps ++ [⟨.ok,
        (statNewData s.params.statLayout (loadWord r.mem s.params.addrStatus)).setWidth 8, v⟩] ∧
      u.rsps = t.rsps ++ [⟨.ok, 0, v⟩] ∧ u.dev = t.dev ∧
      u.bus = t.bus ++ readFrame s.params s.params.addrStatus [v.extractLsb' 8 8, v.extractLsb' 0 8]

/-- Every command that uses the bus ends with OK over a present reference device without scripted refusals
(20_memory.md R71), whatever the device holds: `BRD` and `BWR` with a count in range, `POLL` and `CAPTURE` after an
Initialize. -/
def Obligations.BusCommandsCompleteOverReferenceDevice : Prop :=
  ∀ (s : State) (r : RefDevice) (addr : Word) (n : Nat), s.params.Valid → s.link = .free → s.dev = .reference r →
    r.present = true → r.refusals = [] → n ≤ 32 →
    let completes (i : Instr) := ∃ t q, exec i s = .next t ∧ t.rsps = s.rsps ++ [q] ∧ q.err = .ok ∧ t.link = .free
    completes (.brd addr n) ∧ completes (.bwr addr n) ∧ completes (.rdreg addr) ∧ completes (.wrreg addr) ∧
    completes .init ∧ (s.ctl ≠ .uninit → completes .poll ∧ completes .capture)
end

