-- ==== Sys2Proof/Laws/Bits.lean ====
section
/-! SUPPORT. Small lemmas of the byte, swap and field functions. -/

namespace Sys2Proof.Machine

/-! ### Bytes and swap -/

theorem highByte_toNat (v : Word) : (highByte v).toNat = v.toNat / 256 := by
  have := v.isLt
  simp only [highByte, BitVec.extractLsb'_toNat, Nat.shiftRight_eq_div_pow]
  omega

theorem lowByte_toNat (v : Word) : (lowByte v).toNat = v.toNat % 256 := by
  simp only [lowByte, BitVec.extractLsb'_toNat, Nat.shiftRight_eq_div_pow]
  omega

theorem joinBytes_toNat (hi lo : Byte) : (joinBytes hi lo).toNat = hi.toNat * 256 + lo.toNat := by
  have := lo.isLt
  simp only [joinBytes, BitVec.toNat_append, Nat.shiftLeft_eq]
  rw [Nat.mul_comm, ← Nat.two_pow_add_eq_or_of_lt (by simpa using lo.isLt) hi.toNat]

@[simp] theorem highByte_joinBytes (hi lo : Byte) : highByte (joinBytes hi lo) = hi := by
  apply BitVec.eq_of_toNat_eq
  have := lo.isLt
  rw [highByte_toNat, joinBytes_toNat]
  omega

@[simp] theorem lowByte_joinBytes (hi lo : Byte) : lowByte (joinBytes hi lo) = lo := by
  apply BitVec.eq_of_toNat_eq
  have := lo.isLt
  rw [lowByte_toNat, joinBytes_toNat]
  omega

@[simp] theorem joinBytes_high_low (v : Word) : joinBytes (highByte v) (lowByte v) = v := by
  apply BitVec.eq_of_toNat_eq
  rw [joinBytes_toNat, highByte_toNat, lowByte_toNat]
  omega

@[simp] theorem swap16_joinBytes (hi lo : Byte) : swap16 (joinBytes hi lo) = joinBytes lo hi := by
  simp [swap16]

@[simp] theorem highByte_swap16 (v : Word) : highByte (swap16 v) = lowByte v := by simp [swap16]

@[simp] theorem lowByte_swap16 (v : Word) : lowByte (swap16 v) = highByte v := by simp [swap16]

/-- The swap is its own inverse (41_register_codec.md R140). -/
@[simp] theorem swap16_swap16 (v : Word) : swap16 (swap16 v) = v := by simp [swap16]

/-! ### Raw words and their bytes -/

@[simp] theorem rawWords_length (bs : List Byte) : (rawWords bs).length = bs.length / 2 := by
  induction bs using rawWords.induct with
  | case1 b0 b1 rest ih => simp [rawWords, ih]; omega
  | case2 bs h =>
    match bs with
    | [] => rfl
    | [_] => simp [rawWords]
    | a :: b :: r => exact absurd rfl (h a b r)

/-- Word `i` of a transfer is bytes `2i` and `2i+1`, the first low (20_memory.md R65, R66). -/
theorem rawWords_getElem? (bs : List Byte) (i : Nat) :
    (rawWords bs)[i]? = bs[2 * i + 1]?.bind fun hi => bs[2 * i]?.map fun lo => joinBytes hi lo := by
  induction bs using rawWords.induct generalizing i with
  | case1 b0 b1 rest ih =>
    cases i with
    | zero => simp [rawWords]
    | succ k => simp [rawWords, ih, Nat.mul_add]
  | case2 bs h =>
    match bs with
    | [] => simp [rawWords]
    | [_] => simp [rawWords]
    | a :: b :: r => exact absurd rfl (h a b r)

@[simp] theorem rawBytes_nil : rawBytes [] = [] := rfl

@[simp] theorem rawBytes_cons (w : Word) (ws : List Word) :
    rawBytes (w :: ws) = lowByte w :: highByte w :: rawBytes ws := rfl

@[simp] theorem rawBytes_length (ws : List Word) : (rawBytes ws).length = 2 * ws.length := by
  induction ws with
  | nil => rfl
  | cons w ws ih => simp [ih]; omega

theorem rawBytes_flatMap (ws : List Word) : rawBytes ws = ws.flatMap fun w => [lowByte w, highByte w] := by
  induction ws with
  | nil => rfl
  | cons w ws ih => simp [ih]

theorem rawBytes_getElem?_even (ws : List Word) (i : Nat) : (rawBytes ws)[2 * i]? = ws[i]?.map lowByte := by
  induction ws generalizing i with
  | nil => simp
  | cons w ws ih =>
    cases i with
    | zero => simp
    | succ k => simp [Nat.mul_add, ih]

theorem rawBytes_getElem?_odd (ws : List Word) (i : Nat) : (rawBytes ws)[2 * i + 1]? = ws[i]?.map highByte := by
  induction ws generalizing i with
  | nil => simp
  | cons w ws ih =>
    cases i with
    | zero => simp
    | succ k => simp [Nat.mul_add, ih]

/-! ### Fields of packed registers, bit by bit -/

/-- A mask holds the bits of its field. -/
theorem maskOf_getLsbD (f : Field) (i : Nat) :
    (maskOf f).getLsbD i = decide (i < 16 ∧ f.lsb ≤ i ∧ i < f.lsb + f.width) := by
  simp only [maskOf, BitVec.getLsbD_ofNat, Nat.testBit_shiftLeft, Nat.testBit_two_pow_sub_one]
  by_cases h1 : i < 16 <;> by_cases h2 : f.lsb ≤ i <;> simp [h1, h2]
  omega

/-- Bit `j` of an extracted field is bit `lsb + j` of the word, inside the field (41_register_codec.md R146). -/
theorem getField_getLsbD (w : Word) (f : Field) (j : Nat) :
    (getField w f).getLsbD j = (decide (j < f.width) && w.getLsbD (f.lsb + j)) := by
  simp only [getField, BitVec.getLsbD_ushiftRight, BitVec.getLsbD_and, maskOf_getLsbD]
  by_cases h1 : j < f.width <;> by_cases h2 : f.lsb + j < 16 <;> simp [h1, h2]
  exact BitVec.getLsbD_of_ge _ _ (by omega)

/-- An insert writes the bits of its field and no other (41_register_codec.md R147). -/
theorem setField_getLsbD (w v : Word) (f : Field) (i : Nat) :
    (setField w f v).getLsbD i =
      if i < 16 ∧ f.lsb ≤ i ∧ i < f.lsb + f.width then v.getLsbD (i - f.lsb) else w.getLsbD i := by
  simp only [setField, BitVec.getLsbD_or, BitVec.getLsbD_and, BitVec.getLsbD_not, BitVec.getLsbD_shiftLeft,
    maskOf_getLsbD]
  by_cases h1 : i < 16
  · by_cases h2 : f.lsb ≤ i <;> by_cases h3 : i < f.lsb + f.width <;> simp [h1, h2, h3]
  · simp [h1, BitVec.getLsbD_of_ge w i (by omega)]

/-- A field of a word with the field inserted is the value, cut to the field's width. -/
theorem getField_setField_same (w v : Word) (f : Field) (hf : f.InWord) (j : Nat) :
    (getField (setField w f v) f).getLsbD j = (decide (j < f.width) && v.getLsbD j) := by
  have := hf
  rw [getField_getLsbD, setField_getLsbD]
  by_cases h : j < f.width
  · rw [if_pos (by omega)]; simp [h]
  · simp [h]

/-- An insert does not touch a disjoint field. -/
theorem getField_setField_other (w v : Word) (f g : Field) (h : f.Disjoint g) :
    getField (setField w f v) g = getField w g := by
  have := h
  apply BitVec.eq_of_getLsbD_eq
  intro j _
  rw [getField_getLsbD, getField_getLsbD, setField_getLsbD]
  by_cases hj : j < g.width
  · rw [if_neg (by omega)]
  · simp [hj]

@[simp] theorem getField_zero (f : Field) : getField 0 f = 0 := by simp [getField]

/-- The has-new-data flag is 0 or 1 (10_state.md R34). -/
theorem statNewData_eq_zero {l : StatLayout} (h : l.Valid) {v : Word} (hv : statNewData l v ≠ 1) : statNewData l v = 0 := by
  have hw : l.newData.width = 1 := by
    have := h.1
    simp only [StatLayout.fields, List.map_cons, List.map_nil, List.cons.injEq] at this
    exact this.2.1
  refine BitVec.eq_of_getLsbD_eq fun i _ => ?_
  by_contra hc
  refine hv (BitVec.eq_of_getLsbD_eq fun j _ => ?_)
  simp only [statNewData, getField_getLsbD, hw] at hc ⊢
  by_cases h0 : i = 0
  · subst h0
    by_cases hj : j = 0
    · subst hj; simpa using hc
    · simp [hj]
  · simp [h0] at hc

end Sys2Proof.Machine
end

