-- ==== Sys2Proof/Laws/Memory.lean ====
section
/-! SUPPORT. The reference device's memory: read after write, and that every operation keeps the canonical form. -/

namespace Sys2Proof.Machine

/-! ### Read after write -/

@[simp] theorem loadByte_nil (a : Nat) : loadByte [] a = unlistedByte := rfl

@[simp] theorem loadByte_cons (c : Host.Cell) (m : Memory) (a : Nat) :
    loadByte (c :: m) a = if c.1 = a then c.2 else loadByte m a := rfl

theorem loadByte_dropCell (m : Memory) (a b : Nat) :
    loadByte (dropCell m a) b = if b = a then unlistedByte else loadByte m b := by
  induction m with
  | nil => simp [dropCell]
  | cons c m ih =>
    simp only [dropCell] at ih ⊢
    by_cases hc : c.1 = a
    · rw [List.filter_cons_of_neg (by simpa using hc), ih]
      by_cases hb : b = a
      · simp [hb]
      · simp [hb, show c.1 ≠ b by omega]
    · rw [List.filter_cons_of_pos (by simpa using hc), loadByte_cons, ih, loadByte_cons]
      by_cases hb : b = a
      · subst hb; simp [hc]
      · simp [hb]

theorem loadByte_insertCell (c : Host.Cell) (m : Memory) (b : Nat) (h : ∀ d ∈ m, d.1 ≠ c.1) :
    loadByte (insertCell c m) b = if b = c.1 then c.2 else loadByte m b := by
  induction m with
  | nil => simp [insertCell, eq_comm]
  | cons d m ih =>
    have hd : d.1 ≠ c.1 := h d (by simp)
    simp only [insertCell]
    split
    · simp [eq_comm]
    · rw [loadByte_cons, ih fun e he => h e (by simp [he]), loadByte_cons]
      by_cases hb : b = c.1
      · subst hb; simp [hd]
      · simp [hb]

theorem mem_dropCell {m : Memory} {a : Nat} {c : Host.Cell} : c ∈ dropCell m a ↔ c ∈ m ∧ c.1 ≠ a := by
  simp [dropCell]

/-- A byte read after a write: the byte written at its address, the old one elsewhere. -/
@[simp] theorem loadByte_storeByte (m : Memory) (a b : Nat) (v : Byte) :
    loadByte (storeByte m a v) b = if b = a then v else loadByte m b := by
  unfold storeByte
  split
  · rename_i hv; subst hv; exact loadByte_dropCell m a b
  · rw [loadByte_insertCell _ _ _ fun d hd => (mem_dropCell.mp hd).2, loadByte_dropCell]
    by_cases h : b = a <;> simp [h]

/-- A run of bytes leaves every cell outside it alone. -/
theorem loadByte_storeBytes_of_ne (bs : List Byte) (m : Memory) (a b : Nat)
    (h : ∀ j, j < bs.length → (a + j) % memCells ≠ b) : loadByte (storeBytes m a bs) b = loadByte m b := by
  induction bs generalizing m a with
  | nil => rfl
  | cons v bs ih =>
    have h0 : a % memCells ≠ b := by simpa using h 0 (by simp)
    rw [storeBytes, ih _ _ fun j hj => by
      rw [show a + 1 + j = a + (j + 1) by omega]; exact h (j + 1) (by simpa using hj)]
    simp [h0.symm]

/-- A run of bytes no longer than the space is read back byte by byte. -/
theorem loadByte_storeBytes (bs : List Byte) (m : Memory) (a j : Nat) (hj : j < bs.length)
    (hl : bs.length ≤ memCells) : loadByte (storeBytes m a bs) ((a + j) % memCells) = bs[j] := by
  induction bs generalizing m a j with
  | nil => simp at hj
  | cons v bs ih =>
    cases j with
    | zero =>
      rw [storeBytes, loadByte_storeBytes_of_ne]
      · simp
      · intro k hk
        simp only [List.length_cons, memCells] at hl hk ⊢
        omega
    | succ k =>
      have := ih (storeByte m (a % memCells) v) (a + 1) k (by simpa using hj) (by simp at hl; omega)
      rw [storeBytes, show a + (k + 1) = a + 1 + k by omega, this]
      rfl

/-! ### The canonical form -/

theorem wf_nil : Memory.wf [] := by simp [Memory.wf]

theorem wf_dropCell {m : Memory} (h : Memory.wf m) (a : Nat) : Memory.wf (dropCell m a) :=
  ⟨h.1.filter _, fun c hc => h.2 c (mem_dropCell.mp hc).1⟩

theorem mem_insertCell {c d : Host.Cell} {m : Memory} : d ∈ insertCell c m ↔ d = c ∨ d ∈ m := by
  induction m with
  | nil => simp [insertCell]
  | cons e m ih =>
    simp only [insertCell]
    split
    · simp
    · simp [ih]; tauto

theorem wf_insertCell {m : Memory} {c : Host.Cell} (h : Memory.wf m) (hc : c.1 < memCells) (hb : c.2 ≠ unlistedByte)
    (hn : ∀ d ∈ m, d.1 ≠ c.1) : Memory.wf (insertCell c m) := by
  refine ⟨?_, fun d hd => ?_⟩
  · have hp := h.1
    clear h
    induction m with
    | nil => simp [insertCell]
    | cons e m ih =>
      simp only [insertCell]
      rw [List.pairwise_cons] at hp
      split
      · rename_i hlt
        refine List.pairwise_cons.mpr ⟨fun d hd => ?_, List.pairwise_cons.mpr hp⟩
        rcases List.mem_cons.mp hd with rfl | hd
        · exact hlt
        · exact hlt.trans (hp.1 d hd)
      · refine List.pairwise_cons.mpr ⟨fun d hd => ?_, ih (fun d hd => hn d (by simp [hd])) hp.2⟩
        have := hn e (by simp)
        rcases mem_insertCell.mp hd with rfl | hd
        · omega
        · exact hp.1 d hd
  · rcases mem_insertCell.mp hd with rfl | hd
    · exact ⟨hc, hb⟩
    · exact h.2 d hd

theorem wf_storeByte {m : Memory} (h : Memory.wf m) {a : Nat} (ha : a < memCells) (v : Byte) :
    Memory.wf (storeByte m a v) := by
  unfold storeByte
  split
  · exact wf_dropCell h a
  · rename_i hv
    exact wf_insertCell (wf_dropCell h a) ha hv fun d hd => (mem_dropCell.mp hd).2

theorem wf_storeBytes {m : Memory} (h : Memory.wf m) (a : Nat) (bs : List Byte) : Memory.wf (storeBytes m a bs) := by
  induction bs generalizing m a with
  | nil => exact h
  | cons v bs ih => exact ih (wf_storeByte h (Nat.mod_lt _ (by decide)) v) _

theorem wf_storeWord {m : Memory} (h : Memory.wf m) (a v : Word) : Memory.wf (storeWord m a v) := wf_storeBytes h _ _

/-! ### The device keeps the form -/

theorem onStart_wf {d : Device} (h : d.wf = true) : d.onStart.wf = true := by cases d <;> exact h

theorem onRepStart_wf {d : Device} (h : d.wf = true) : d.onRepStart.wf = true := by cases d <;> exact h

theorem onStop_wf {d : Device} (h : d.wf = true) : d.onStop.wf = true := by
  cases d with
  | oracle as => rfl
  | reference r =>
    simp only [Device.wf, Device.onStop, RefDevice.onStop, decide_eq_true_eq] at h ⊢
    split
    · exact h
    · exact wf_storeBytes h _ _

theorem onTransmit_wf {d d' : Device} {b : Byte} {ack : Bool} (h : d.wf = true)
    (e : d.onTransmit b = some (ack, d')) : d'.wf = true := by
  match d with
  | .oracle [] => simp [Device.onTransmit] at e
  | .oracle (a :: as) => simp only [Device.onTransmit, Option.some.injEq, Prod.mk.injEq] at e; rw [← e.2]; rfl
  | .reference r => simp only [Device.onTransmit, Option.some.injEq, Prod.mk.injEq] at e; rw [← e.2]; exact h

theorem onReceive_wf {d d' : Device} {b : Byte} (h : d.wf = true) (e : d.onReceive = some (b, d')) :
    d'.wf = true := by
  match d with
  | .oracle [] => simp [Device.onReceive] at e
  | .oracle (a :: as) => simp only [Device.onReceive, Option.some.injEq, Prod.mk.injEq] at e; rw [← e.2]; rfl
  | .reference r => simp only [Device.onReceive, Option.some.injEq, Prod.mk.injEq] at e; rw [← e.2]; exact h

end Sys2Proof.Machine
end

