-- ==== Sys2Proof/Laws/State.lean ====
section
/-! SUPPORT. One lemma per field per update of State. -/

namespace Sys2Proof.Machine

variable (s : State)

/-! ### fillX: X filled from words (40_bus_transport.md R126) -/

@[simp] theorem fillX_x (ws : List Word) : (s.fillX ws).x = fillBuffer s.x ws := rfl
@[simp] theorem fillX_ctl (ws : List Word) : (s.fillX ws).ctl = s.ctl := rfl
@[simp] theorem fillX_cfg (ws : List Word) : (s.fillX ws).cfg = s.cfg := rfl
@[simp] theorem fillX_stat (ws : List Word) : (s.fillX ws).stat = s.stat := rfl
@[simp] theorem fillX_row (ws : List Word) : (s.fillX ws).row = s.row := rfl
@[simp] theorem fillX_elapsed (ws : List Word) : (s.fillX ws).elapsed = s.elapsed := rfl
@[simp] theorem fillX_fb (ws : List Word) : (s.fillX ws).fb = s.fb := rfl
@[simp] theorem fillX_link (ws : List Word) : (s.fillX ws).link = s.link := rfl
@[simp] theorem fillX_inputs (ws : List Word) : (s.fillX ws).inputs = s.inputs := rfl
@[simp] theorem fillX_rsps (ws : List Word) : (s.fillX ws).rsps = s.rsps := rfl
@[simp] theorem fillX_bus (ws : List Word) : (s.fillX ws).bus = s.bus := rfl
@[simp] theorem fillX_dev (ws : List Word) : (s.fillX ws).dev = s.dev := rfl
@[simp] theorem fillX_draws (ws : List Word) : (s.fillX ws).draws = s.draws := rfl
@[simp] theorem fillX_params (ws : List Word) : (s.fillX ws).params = s.params := rfl

/-! ### swapX: words of X swapped (41_register_codec.md R143) -/

@[simp] theorem swapX_x (n : Nat) : (s.swapX n).x = swapBuffer s.x n := rfl
@[simp] theorem swapX_ctl (n : Nat) : (s.swapX n).ctl = s.ctl := rfl
@[simp] theorem swapX_cfg (n : Nat) : (s.swapX n).cfg = s.cfg := rfl
@[simp] theorem swapX_stat (n : Nat) : (s.swapX n).stat = s.stat := rfl
@[simp] theorem swapX_row (n : Nat) : (s.swapX n).row = s.row := rfl
@[simp] theorem swapX_elapsed (n : Nat) : (s.swapX n).elapsed = s.elapsed := rfl
@[simp] theorem swapX_fb (n : Nat) : (s.swapX n).fb = s.fb := rfl
@[simp] theorem swapX_link (n : Nat) : (s.swapX n).link = s.link := rfl
@[simp] theorem swapX_inputs (n : Nat) : (s.swapX n).inputs = s.inputs := rfl
@[simp] theorem swapX_rsps (n : Nat) : (s.swapX n).rsps = s.rsps := rfl
@[simp] theorem swapX_bus (n : Nat) : (s.swapX n).bus = s.bus := rfl
@[simp] theorem swapX_dev (n : Nat) : (s.swapX n).dev = s.dev := rfl
@[simp] theorem swapX_draws (n : Nat) : (s.swapX n).draws = s.draws := rfl
@[simp] theorem swapX_params (n : Nat) : (s.swapX n).params = s.params := rfl

/-! ### putX: one word of X written (44_host_access.md R200) -/

@[simp] theorem putX_x (i : Nat) (h : i < 32) (v : Word) : (s.putX i h v).x = s.x.set i v h := rfl
@[simp] theorem putX_ctl (i : Nat) (h : i < 32) (v : Word) : (s.putX i h v).ctl = s.ctl := rfl
@[simp] theorem putX_cfg (i : Nat) (h : i < 32) (v : Word) : (s.putX i h v).cfg = s.cfg := rfl
@[simp] theorem putX_stat (i : Nat) (h : i < 32) (v : Word) : (s.putX i h v).stat = s.stat := rfl
@[simp] theorem putX_row (i : Nat) (h : i < 32) (v : Word) : (s.putX i h v).row = s.row := rfl
@[simp] theorem putX_elapsed (i : Nat) (h : i < 32) (v : Word) : (s.putX i h v).elapsed = s.elapsed := rfl
@[simp] theorem putX_fb (i : Nat) (h : i < 32) (v : Word) : (s.putX i h v).fb = s.fb := rfl
@[simp] theorem putX_link (i : Nat) (h : i < 32) (v : Word) : (s.putX i h v).link = s.link := rfl
@[simp] theorem putX_inputs (i : Nat) (h : i < 32) (v : Word) : (s.putX i h v).inputs = s.inputs := rfl
@[simp] theorem putX_rsps (i : Nat) (h : i < 32) (v : Word) : (s.putX i h v).rsps = s.rsps := rfl
@[simp] theorem putX_bus (i : Nat) (h : i < 32) (v : Word) : (s.putX i h v).bus = s.bus := rfl
@[simp] theorem putX_dev (i : Nat) (h : i < 32) (v : Word) : (s.putX i h v).dev = s.dev := rfl
@[simp] theorem putX_draws (i : Nat) (h : i < 32) (v : Word) : (s.putX i h v).draws = s.draws := rfl
@[simp] theorem putX_params (i : Nat) (h : i < 32) (v : Word) : (s.putX i h v).params = s.params := rfl

/-! ### storeRow: one row of FB written (43_sensor_controller.md R184) -/

@[simp] theorem storeRow_x (r : Nat) : (s.storeRow r).x = s.x := rfl
@[simp] theorem storeRow_ctl (r : Nat) : (s.storeRow r).ctl = s.ctl := rfl
@[simp] theorem storeRow_cfg (r : Nat) : (s.storeRow r).cfg = s.cfg := rfl
@[simp] theorem storeRow_stat (r : Nat) : (s.storeRow r).stat = s.stat := rfl
@[simp] theorem storeRow_row (r : Nat) : (s.storeRow r).row = s.row := rfl
@[simp] theorem storeRow_elapsed (r : Nat) : (s.storeRow r).elapsed = s.elapsed := rfl
@[simp] theorem storeRow_fb (r : Nat) : (s.storeRow r).fb = s.fb.setIfInBounds r s.x := rfl
@[simp] theorem storeRow_link (r : Nat) : (s.storeRow r).link = s.link := rfl
@[simp] theorem storeRow_inputs (r : Nat) : (s.storeRow r).inputs = s.inputs := rfl
@[simp] theorem storeRow_rsps (r : Nat) : (s.storeRow r).rsps = s.rsps := rfl
@[simp] theorem storeRow_bus (r : Nat) : (s.storeRow r).bus = s.bus := rfl
@[simp] theorem storeRow_dev (r : Nat) : (s.storeRow r).dev = s.dev := rfl
@[simp] theorem storeRow_draws (r : Nat) : (s.storeRow r).draws = s.draws := rfl
@[simp] theorem storeRow_params (r : Nat) : (s.storeRow r).params = s.params := rfl

/-! ### takeRow: one row of a capture (43_sensor_controller.md R183) -/

@[simp] theorem takeRow_x (ws : List Word) : (s.takeRow ws).x = swapBuffer (fillBuffer s.x ws) 32 := rfl
@[simp] theorem takeRow_ctl (ws : List Word) : (s.takeRow ws).ctl = s.ctl := rfl
@[simp] theorem takeRow_cfg (ws : List Word) : (s.takeRow ws).cfg = s.cfg := rfl
@[simp] theorem takeRow_stat (ws : List Word) : (s.takeRow ws).stat = s.stat := rfl
@[simp] theorem takeRow_row (ws : List Word) : (s.takeRow ws).row = s.row + 2 := rfl
@[simp] theorem takeRow_elapsed (ws : List Word) : (s.takeRow ws).elapsed = s.elapsed := rfl
@[simp] theorem takeRow_fb (ws : List Word) : (s.takeRow ws).fb = s.fb.setIfInBounds s.row.toNat (swapBuffer (fillBuffer s.x ws) 32) := rfl
@[simp] theorem takeRow_link (ws : List Word) : (s.takeRow ws).link = s.link := rfl
@[simp] theorem takeRow_inputs (ws : List Word) : (s.takeRow ws).inputs = s.inputs := rfl
@[simp] theorem takeRow_rsps (ws : List Word) : (s.takeRow ws).rsps = s.rsps := rfl
@[simp] theorem takeRow_bus (ws : List Word) : (s.takeRow ws).bus = s.bus := rfl
@[simp] theorem takeRow_dev (ws : List Word) : (s.takeRow ws).dev = s.dev := rfl
@[simp] theorem takeRow_draws (ws : List Word) : (s.takeRow ws).draws = s.draws := rfl
@[simp] theorem takeRow_params (ws : List Word) : (s.takeRow ws).params = s.params := rfl

/-! ### respond: an OK response (00_scope.md R9) -/

@[simp] theorem respond_x (aux : Byte) (data : Word) : (s.respond aux data).x = s.x := rfl
@[simp] theorem respond_ctl (aux : Byte) (data : Word) : (s.respond aux data).ctl = s.ctl := rfl
@[simp] theorem respond_cfg (aux : Byte) (data : Word) : (s.respond aux data).cfg = s.cfg := rfl
@[simp] theorem respond_stat (aux : Byte) (data : Word) : (s.respond aux data).stat = s.stat := rfl
@[simp] theorem respond_row (aux : Byte) (data : Word) : (s.respond aux data).row = s.row := rfl
@[simp] theorem respond_elapsed (aux : Byte) (data : Word) : (s.respond aux data).elapsed = s.elapsed := rfl
@[simp] theorem respond_fb (aux : Byte) (data : Word) : (s.respond aux data).fb = s.fb := rfl
@[simp] theorem respond_link (aux : Byte) (data : Word) : (s.respond aux data).link = s.link := rfl
@[simp] theorem respond_inputs (aux : Byte) (data : Word) : (s.respond aux data).inputs = s.inputs := rfl
@[simp] theorem respond_rsps (aux : Byte) (data : Word) : (s.respond aux data).rsps = s.rsps ++ [⟨.ok, aux, data⟩] := rfl
@[simp] theorem respond_bus (aux : Byte) (data : Word) : (s.respond aux data).bus = s.bus := rfl
@[simp] theorem respond_dev (aux : Byte) (data : Word) : (s.respond aux data).dev = s.dev := rfl
@[simp] theorem respond_draws (aux : Byte) (data : Word) : (s.respond aux data).draws = s.draws := rfl
@[simp] theorem respond_params (aux : Byte) (data : Word) : (s.respond aux data).params = s.params := rfl

/-! ### raise: an error response (60_exceptions.md R228) -/

@[simp] theorem raise_x (e : ErrCode) (aux : Byte) : (s.raise e aux).x = s.x := rfl
@[simp] theorem raise_ctl (e : ErrCode) (aux : Byte) : (s.raise e aux).ctl = s.ctl := rfl
@[simp] theorem raise_cfg (e : ErrCode) (aux : Byte) : (s.raise e aux).cfg = s.cfg := rfl
@[simp] theorem raise_stat (e : ErrCode) (aux : Byte) : (s.raise e aux).stat = s.stat := rfl
@[simp] theorem raise_row (e : ErrCode) (aux : Byte) : (s.raise e aux).row = s.row := rfl
@[simp] theorem raise_elapsed (e : ErrCode) (aux : Byte) : (s.raise e aux).elapsed = s.elapsed := rfl
@[simp] theorem raise_fb (e : ErrCode) (aux : Byte) : (s.raise e aux).fb = s.fb := rfl
@[simp] theorem raise_link (e : ErrCode) (aux : Byte) : (s.raise e aux).link = s.link := rfl
@[simp] theorem raise_inputs (e : ErrCode) (aux : Byte) : (s.raise e aux).inputs = s.inputs := rfl
@[simp] theorem raise_rsps (e : ErrCode) (aux : Byte) : (s.raise e aux).rsps = s.rsps ++ [⟨e, aux, 0⟩] := rfl
@[simp] theorem raise_bus (e : ErrCode) (aux : Byte) : (s.raise e aux).bus = s.bus := rfl
@[simp] theorem raise_dev (e : ErrCode) (aux : Byte) : (s.raise e aux).dev = s.dev := rfl
@[simp] theorem raise_draws (e : ErrCode) (aux : Byte) : (s.raise e aux).draws = s.draws := rfl
@[simp] theorem raise_params (e : ErrCode) (aux : Byte) : (s.raise e aux).params = s.params := rfl

/-! ### stall: a hang (70_reset_and_hazards.md R262) -/

@[simp] theorem stall_x : (s.stall).x = s.x := rfl
@[simp] theorem stall_ctl : (s.stall).ctl = s.ctl := rfl
@[simp] theorem stall_cfg : (s.stall).cfg = s.cfg := rfl
@[simp] theorem stall_stat : (s.stall).stat = s.stat := rfl
@[simp] theorem stall_row : (s.stall).row = s.row := rfl
@[simp] theorem stall_elapsed : (s.stall).elapsed = s.elapsed := rfl
@[simp] theorem stall_fb : (s.stall).fb = s.fb := rfl
@[simp] theorem stall_link : (s.stall).link = .stalled := rfl
@[simp] theorem stall_inputs : (s.stall).inputs = s.inputs := rfl
@[simp] theorem stall_rsps : (s.stall).rsps = s.rsps := rfl
@[simp] theorem stall_bus : (s.stall).bus = s.bus := rfl
@[simp] theorem stall_dev : (s.stall).dev = s.dev := rfl
@[simp] theorem stall_draws : (s.stall).draws = s.draws := rfl
@[simp] theorem stall_params : (s.stall).params = s.params := rfl

/-! ### drawElapsed: a draw of ELAPSED (10_state.md R37) -/

@[simp] theorem drawElapsed_x : (s.drawElapsed).x = s.x := rfl
@[simp] theorem drawElapsed_ctl : (s.drawElapsed).ctl = s.ctl := rfl
@[simp] theorem drawElapsed_cfg : (s.drawElapsed).cfg = s.cfg := rfl
@[simp] theorem drawElapsed_stat : (s.drawElapsed).stat = s.stat := rfl
@[simp] theorem drawElapsed_row : (s.drawElapsed).row = s.row := rfl
@[simp] theorem drawElapsed_elapsed : (s.drawElapsed).elapsed = Config.elapsedDraw s.draws := rfl
@[simp] theorem drawElapsed_fb : (s.drawElapsed).fb = s.fb := rfl
@[simp] theorem drawElapsed_link : (s.drawElapsed).link = s.link := rfl
@[simp] theorem drawElapsed_inputs : (s.drawElapsed).inputs = s.inputs := rfl
@[simp] theorem drawElapsed_rsps : (s.drawElapsed).rsps = s.rsps := rfl
@[simp] theorem drawElapsed_bus : (s.drawElapsed).bus = s.bus := rfl
@[simp] theorem drawElapsed_dev : (s.drawElapsed).dev = s.dev := rfl
@[simp] theorem drawElapsed_draws : (s.drawElapsed).draws = s.draws + 1 := rfl
@[simp] theorem drawElapsed_params : (s.drawElapsed).params = s.params := rfl

/-! ### applyReset: reset (70_reset_and_hazards.md R250) -/

@[simp] theorem applyReset_x : (s.applyReset).x = State.reset.x := rfl
@[simp] theorem applyReset_ctl : (s.applyReset).ctl = .uninit := rfl
@[simp] theorem applyReset_cfg : (s.applyReset).cfg = 0 := rfl
@[simp] theorem applyReset_stat : (s.applyReset).stat = 0 := rfl
@[simp] theorem applyReset_row : (s.applyReset).row = 0 := rfl
@[simp] theorem applyReset_elapsed : (s.applyReset).elapsed = 0 := rfl
@[simp] theorem applyReset_fb : (s.applyReset).fb = State.reset.fb := rfl
@[simp] theorem applyReset_link : (s.applyReset).link = s.link.afterReset := rfl
@[simp] theorem applyReset_inputs : (s.applyReset).inputs = s.inputs := rfl
@[simp] theorem applyReset_rsps : (s.applyReset).rsps = s.rsps := rfl
@[simp] theorem applyReset_bus : (s.applyReset).bus = s.bus := rfl
@[simp] theorem applyReset_dev : (s.applyReset).dev = s.dev := rfl
@[simp] theorem applyReset_draws : (s.applyReset).draws = s.draws := rfl
@[simp] theorem applyReset_params : (s.applyReset).params = s.params := rfl

/-! ### connect: the device changes (20_memory.md R70) -/

@[simp] theorem connect_x (d : Device) : (s.connect d).x = s.x := rfl
@[simp] theorem connect_ctl (d : Device) : (s.connect d).ctl = s.ctl := rfl
@[simp] theorem connect_cfg (d : Device) : (s.connect d).cfg = s.cfg := rfl
@[simp] theorem connect_stat (d : Device) : (s.connect d).stat = s.stat := rfl
@[simp] theorem connect_row (d : Device) : (s.connect d).row = s.row := rfl
@[simp] theorem connect_elapsed (d : Device) : (s.connect d).elapsed = s.elapsed := rfl
@[simp] theorem connect_fb (d : Device) : (s.connect d).fb = s.fb := rfl
@[simp] theorem connect_link (d : Device) : (s.connect d).link = if s.link = .cut then .free else s.link := rfl
@[simp] theorem connect_inputs (d : Device) : (s.connect d).inputs = s.inputs := rfl
@[simp] theorem connect_rsps (d : Device) : (s.connect d).rsps = s.rsps := rfl
@[simp] theorem connect_bus (d : Device) : (s.connect d).bus = s.bus := rfl
@[simp] theorem connect_dev (d : Device) : (s.connect d).dev = d := rfl
@[simp] theorem connect_draws (d : Device) : (s.connect d).draws = s.draws := rfl
@[simp] theorem connect_params (d : Device) : (s.connect d).params = s.params := rfl

/-! ### dropInput: an input is taken -/

@[simp] theorem dropInput_x : (s.dropInput).x = s.x := rfl
@[simp] theorem dropInput_ctl : (s.dropInput).ctl = s.ctl := rfl
@[simp] theorem dropInput_cfg : (s.dropInput).cfg = s.cfg := rfl
@[simp] theorem dropInput_stat : (s.dropInput).stat = s.stat := rfl
@[simp] theorem dropInput_row : (s.dropInput).row = s.row := rfl
@[simp] theorem dropInput_elapsed : (s.dropInput).elapsed = s.elapsed := rfl
@[simp] theorem dropInput_fb : (s.dropInput).fb = s.fb := rfl
@[simp] theorem dropInput_link : (s.dropInput).link = s.link := rfl
@[simp] theorem dropInput_inputs : (s.dropInput).inputs = s.inputs.tail := rfl
@[simp] theorem dropInput_rsps : (s.dropInput).rsps = s.rsps := rfl
@[simp] theorem dropInput_bus : (s.dropInput).bus = s.bus := rfl
@[simp] theorem dropInput_dev : (s.dropInput).dev = s.dev := rfl
@[simp] theorem dropInput_draws : (s.dropInput).draws = s.draws := rfl
@[simp] theorem dropInput_params : (s.dropInput).params = s.params := rfl

/-! ### afterTxn: a transaction has happened -/

@[simp] theorem afterTxn_x {α : Type} (t : Txn α) : (s.afterTxn t).x = s.x := rfl
@[simp] theorem afterTxn_ctl {α : Type} (t : Txn α) : (s.afterTxn t).ctl = s.ctl := rfl
@[simp] theorem afterTxn_cfg {α : Type} (t : Txn α) : (s.afterTxn t).cfg = s.cfg := rfl
@[simp] theorem afterTxn_stat {α : Type} (t : Txn α) : (s.afterTxn t).stat = s.stat := rfl
@[simp] theorem afterTxn_row {α : Type} (t : Txn α) : (s.afterTxn t).row = s.row := rfl
@[simp] theorem afterTxn_elapsed {α : Type} (t : Txn α) : (s.afterTxn t).elapsed = s.elapsed := rfl
@[simp] theorem afterTxn_fb {α : Type} (t : Txn α) : (s.afterTxn t).fb = s.fb := rfl
@[simp] theorem afterTxn_link {α : Type} (t : Txn α) : (s.afterTxn t).link = s.link := rfl
@[simp] theorem afterTxn_inputs {α : Type} (t : Txn α) : (s.afterTxn t).inputs = s.inputs := rfl
@[simp] theorem afterTxn_rsps {α : Type} (t : Txn α) : (s.afterTxn t).rsps = s.rsps := rfl
@[simp] theorem afterTxn_bus {α : Type} (t : Txn α) : (s.afterTxn t).bus = s.bus ++ t.events := rfl
@[simp] theorem afterTxn_dev {α : Type} (t : Txn α) : (s.afterTxn t).dev = t.dev := rfl
@[simp] theorem afterTxn_draws {α : Type} (t : Txn α) : (s.afterTxn t).draws = s.draws := rfl
@[simp] theorem afterTxn_params {α : Type} (t : Txn α) : (s.afterTxn t).params = s.params := rfl

/-! ### The buffer after an update, word by word -/

theorem overwriteWords_getElem? (new old : List Word) (i : Nat) :
    (overwriteWords new old)[i]? = if i < old.length then some (new.getD i (old.getD i 0)) else none := by
  induction new, old using overwriteWords.induct generalizing i with
  | case1 old => by_cases h : i < old.length <;> simp [overwriteWords, h]
  | case2 w new => simp [overwriteWords]
  | case3 w new v old ih => cases i <;> simp [overwriteWords, ih]

theorem swapWords_getElem? (n : Nat) (old : List Word) (i : Nat) :
    (swapWords n old)[i]? = (old[i]?).map fun v => if i < n then swap16 v else v := by
  induction n, old using swapWords.induct generalizing i with
  | case1 old => simp [swapWords]
  | case2 n => simp [swapWords]
  | case3 n w old ih => cases i <;> simp [swapWords, ih]

/-- `X[i]` after a fill is the word given for it, else what it was. -/
@[simp] theorem fillBuffer_getElem (x : Vector Word 32) (ws : List Word) (i : Nat) (h : i < 32) :
    (fillBuffer x ws)[i] = ws.getD i x[i] := by
  have := overwriteWords_getElem? ws x.toList i
  simp only [Vector.length_toList, h, if_true] at this
  rw [List.getElem?_eq_some_iff] at this
  obtain ⟨_, e⟩ := this
  simpa [fillBuffer, h] using e

/-- `X[i]` after a swap of the first `n` words. -/
@[simp] theorem swapBuffer_getElem (x : Vector Word 32) (n i : Nat) (h : i < 32) :
    (swapBuffer x n)[i] = if i < n then swap16 x[i] else x[i] := by
  have := swapWords_getElem? n x.toList i
  rw [List.getElem?_eq_getElem (by simpa using h), List.getElem?_eq_getElem (by simpa using h)] at this
  simpa [swapBuffer] using this

theorem fillBuffer_eq_ofFn (x : Vector Word 32) (ws : List Word) :
    fillBuffer x ws = Vector.ofFn fun i : Fin 32 => ws.getD i.val x[i] := by
  ext i h; simp

theorem swapBuffer_eq_ofFn (x : Vector Word 32) (n : Nat) :
    swapBuffer x n = Vector.ofFn fun i : Fin 32 => if i.val < n then swap16 x[i] else x[i] := by
  ext i h; simp

@[simp] theorem fillBuffer_nil (x : Vector Word 32) : fillBuffer x [] = x := by ext i h; simp

@[simp] theorem swapBuffer_zero (x : Vector Word 32) : swapBuffer x 0 = x := by ext i h; simp

/-- "Applying `DEC n` twice restores X" (41_register_codec.md R143). -/
@[simp] theorem swapBuffer_swapBuffer (x : Vector Word 32) (n : Nat) : swapBuffer (swapBuffer x n) n = x := by
  refine Vector.ext fun i h => ?_
  by_cases hi : i < n <;> simp [hi]

end Sys2Proof.Machine
end

