-- ==== Sys2Proof/Laws/Bus.lean ====
section
/-! SUPPORT. What a run of bytes, a transaction and an access can do, said once. -/

namespace Sys2Proof.Machine

/-! ### Runs of bytes, whatever the device -/

/-- Everything a run of transmitted bytes can do. -/
theorem sendBytes_cases (k : Nat) (d : Device) (bs : List Byte) :
    ((sendBytes k d bs).result = .allAcked ∧ (sendBytes k d bs).events = bs.map (BusEvent.transmit · true)) ∨
    (∃ j, ∃ h : j < bs.length, (sendBytes k d bs).result = .refusedAt (k + j) ∧
      (sendBytes k d bs).events = (bs.take j).map (BusEvent.transmit · true) ++ [.transmit bs[j] false]) ∨
    (∃ j, j < bs.length ∧ (sendBytes k d bs).result = .unanswered ∧
      (sendBytes k d bs).events = (bs.take j).map (BusEvent.transmit · true)) := by
  induction bs generalizing k d with
  | nil => exact .inl ⟨rfl, rfl⟩
  | cons b bs ih =>
    simp only [sendBytes]
    split
    · exact .inr (.inr ⟨0, by simp, rfl, rfl⟩)
    · exact .inr (.inl ⟨0, by simp, rfl, rfl⟩)
    · rename_i d' _
      rcases ih (k + 1) d' with ⟨h1, h2⟩ | ⟨j, hj, h1, h2⟩ | ⟨j, hj, h1, h2⟩
      · exact .inl ⟨h1, by simp [h2]⟩
      · exact .inr (.inl ⟨j + 1, by simpa using hj, by simp [h1]; omega, by simp [h2]⟩)
      · exact .inr (.inr ⟨j + 1, by simpa using hj, h1, by simp [h2]⟩)

/-- Everything a run of received bytes can do. -/
theorem recvBytes_cases (d : Device) (m : Nat) :
    (∃ bs : List Byte, (recvBytes d m).bytes = some bs ∧ bs.length = m ∧ (recvBytes d m).events = receiveEvents bs) ∨
    (∃ bs : List Byte, (recvBytes d m).bytes = none ∧ bs.length < m ∧
      (recvBytes d m).events = bs.map (BusEvent.receive · true)) := by
  induction m generalizing d with
  | zero => exact .inl ⟨[], rfl, rfl, rfl⟩
  | succ m ih =>
    simp only [recvBytes]
    split
    · exact .inr ⟨[], rfl, by simp, rfl⟩
    · rename_i b d' _
      rcases ih d' with ⟨bs, h1, h2, h3⟩ | ⟨bs, h1, h2, h3⟩
      · refine .inl ⟨b :: bs, by simp [h1], by simp [h2], ?_⟩
        cases bs with
        | nil => simp at h2; subst h2; simp [h3, receiveEvents]
        | cons c cs =>
          have : m ≠ 0 := by rw [← h2]; simp
          simp [h3, receiveEvents, this]
      · have : m ≠ 0 := by omega
        exact .inr ⟨b :: bs, by simp [h1], by simpa using h2, by simp [h3, this]⟩

theorem sendBytes_wf {k : Nat} {d : Device} {bs : List Byte} (h : d.wf = true) : (sendBytes k d bs).dev.wf = true := by
  induction bs generalizing k d with
  | nil => exact h
  | cons b bs ih =>
    simp only [sendBytes]
    split
    · exact h
    · rename_i e; exact onTransmit_wf h e
    · rename_i e; exact ih (onTransmit_wf h e)

theorem recvBytes_wf {d : Device} {m : Nat} (h : d.wf = true) : (recvBytes d m).dev.wf = true := by
  induction m generalizing d with
  | zero => exact h
  | succ m ih =>
    simp only [recvBytes]
    split
    · exact h
    · rename_i e; exact ih (onReceive_wf h e)

/-! ### Transactions, whatever the device -/

/-- Everything a read transaction of at least one word can do (40_bus_transport.md R122, R123). -/
theorem memRead_cases (p : Params) (d : Device) (addr : Word) {n : Nat} (hn : n ≠ 0) :
    (∃ bs : List Byte, bs.length = 2 * n ∧ (memRead p d addr n).result = .ok (rawWords bs) ∧
      (memRead p d addr n).events = readFrame p addr bs) ∨
    (∃ j, ∃ h : j < (addressPhase p addr).length, (memRead p d addr n).result = .err .noAck ∧
      (memRead p d addr n).events = .start :: ((addressPhase p addr).take j).map (BusEvent.transmit · true) ++
        [.transmit (addressPhase p addr)[j] false, .stop]) ∨
    ((memRead p d addr n).result = .err (.shortRead 0) ∧
      (memRead p d addr n).events = addressEvents p addr ++ [.repStart, .transmit (slaR p) false, .stop]) ∨
    ((memRead p d addr n).result = .unanswered ∧ (
      (∃ j, j < (addressPhase p addr).length ∧
        (memRead p d addr n).events = .start :: ((addressPhase p addr).take j).map (BusEvent.transmit · true)) ∨
      (memRead p d addr n).events = addressEvents p addr ++ [.repStart] ∨
      (∃ bs : List Byte, bs.length < 2 * n ∧ (memRead p d addr n).events =
        addressEvents p addr ++ [.repStart, .transmit (slaR p) true] ++ bs.map (BusEvent.receive · true)))) := by
  have hA : BusEvent.start :: (addressPhase p addr).map (BusEvent.transmit · true) = addressEvents p addr := rfl
  simp only [memRead, hn, if_false]
  rcases sendBytes_cases 0 d.onStart (addressPhase p addr) with ⟨h1, h2⟩ | ⟨j, hj, h1, h2⟩ | ⟨j, hj, h1, h2⟩
  · simp only [h1, h2, hA]
    rcases sendBytes_cases 0 (sendBytes 0 d.onStart (addressPhase p addr)).dev.onRepStart [slaR p] with
      ⟨g1, g2⟩ | ⟨j, hj, g1, g2⟩ | ⟨j, hj, g1, g2⟩
    · simp only [g1, g2]
      rcases recvBytes_cases (sendBytes 0 (sendBytes 0 d.onStart (addressPhase p addr)).dev.onRepStart [slaR p]).dev
        (2 * n) with ⟨bs, r1, r2, r3⟩ | ⟨bs, r1, r2, r3⟩
      · simp only [r1, r3]
        exact .inl ⟨bs, r2, by simp, by simp [readFrame]⟩
      · simp only [r1, r3]
        exact .inr (.inr (.inr ⟨by simp, .inr (.inr ⟨bs, r2, by simp⟩)⟩))
    · have h0 : j = 0 := by simpa using hj
      subst h0
      simp only [g1, g2]
      exact .inr (.inr (.inl ⟨by simp, by simp⟩))
    · have h0 : j = 0 := by simpa using hj
      subst h0
      simp only [g1, g2]
      exact .inr (.inr (.inr ⟨by simp, .inr (.inl (by simp))⟩))
  · simp only [h1, h2]
    exact .inr (.inl ⟨j, hj, by simp⟩)
  · simp only [h1, h2]
    exact .inr (.inr (.inr ⟨by simp, .inl ⟨j, hj, by simp⟩⟩))

/-- Everything a write transaction of at least one word can do (40_bus_transport.md R124). -/
theorem memWrite_cases (p : Params) (d : Device) (addr : Word) {ws : List Word} (hw : ws ≠ []) :
    ((memWrite p d addr ws).result = .ok () ∧ (memWrite p d addr ws).events = writeFrame p addr (rawBytes ws)) ∨
    (∃ j, ∃ h : j < (addressPhase p addr).length, (memWrite p d addr ws).result = .err .noAck ∧
      (memWrite p d addr ws).events = .start :: ((addressPhase p addr).take j).map (BusEvent.transmit · true) ++
        [.transmit (addressPhase p addr)[j] false, .stop]) ∨
    (∃ j, ∃ h : j < (rawBytes ws).length, (memWrite p d addr ws).result = .err (.shortWrite j) ∧
      (memWrite p d addr ws).events = addressEvents p addr ++ ((rawBytes ws).take j).map (BusEvent.transmit · true) ++
        [.transmit (rawBytes ws)[j] false, .stop]) ∨
    ((memWrite p d addr ws).result = .unanswered ∧ (
      (∃ j, j < (addressPhase p addr).length ∧
        (memWrite p d addr ws).events = .start :: ((addressPhase p addr).take j).map (BusEvent.transmit · true)) ∨
      (∃ j, j < (rawBytes ws).length ∧ (memWrite p d addr ws).events =
        addressEvents p addr ++ ((rawBytes ws).take j).map (BusEvent.transmit · true)))) := by
  have hA : BusEvent.start :: (addressPhase p addr).map (BusEvent.transmit · true) = addressEvents p addr := rfl
  simp only [memWrite, hw, if_false]
  rcases sendBytes_cases 0 d.onStart (addressPhase p addr) with ⟨h1, h2⟩ | ⟨j, hj, h1, h2⟩ | ⟨j, hj, h1, h2⟩
  · simp only [h1, h2, hA]
    rcases sendBytes_cases 0 (sendBytes 0 d.onStart (addressPhase p addr)).dev (rawBytes ws) with
      ⟨g1, g2⟩ | ⟨j, hj, g1, g2⟩ | ⟨j, hj, g1, g2⟩
    · simp only [g1, g2]
      exact .inl ⟨by simp, by simp [writeFrame]⟩
    · simp only [g1, g2]
      exact .inr (.inr (.inl ⟨j, hj, by simp, by simp⟩))
    · simp only [g1, g2]
      exact .inr (.inr (.inr ⟨by simp, .inr ⟨j, hj, by simp⟩⟩))
  · simp only [h1, h2]
    exact .inr (.inl ⟨j, hj, by simp⟩)
  · simp only [h1, h2]
    exact .inr (.inr (.inr ⟨by simp, .inl ⟨j, hj, by simp⟩⟩))

@[simp] theorem memRead_zero (p : Params) (d : Device) (addr : Word) : memRead p d addr 0 = ⟨[], d, .ok []⟩ := rfl

@[simp] theorem memWrite_nil (p : Params) (d : Device) (addr : Word) : memWrite p d addr [] = ⟨[], d, .ok ()⟩ := rfl

/-- A read that succeeds yields the words asked for. -/
theorem memRead_length {p : Params} {d : Device} {addr : Word} {n : Nat} {ws : List Word}
    (h : (memRead p d addr n).result = .ok ws) : ws.length = n := by
  by_cases hn : n = 0
  · subst hn; cases h; rfl
  · rcases memRead_cases p d addr hn with ⟨bs, h1, h2, _⟩ | ⟨j, _, h2, _⟩ | ⟨h2, _⟩ | ⟨h2, _⟩ <;>
      rw [h2] at h <;> cases h
    simp [h1]

/-- The errors of a read: NO_ACK, or SHORT_READ with count 0 (40_bus_transport.md R123). -/
theorem memRead_err {p : Params} {d : Device} {addr : Word} {n : Nat} {e : BusErr}
    (h : (memRead p d addr n).result = .err e) : e = .noAck ∨ e = .shortRead 0 := by
  by_cases hn : n = 0
  · subst hn; cases h
  · rcases memRead_cases p d addr hn with ⟨bs, h1, h2, _⟩ | ⟨j, _, h2, _⟩ | ⟨h2, _⟩ | ⟨h2, _⟩ <;>
      rw [h2] at h <;> cases h <;> simp

/-- The errors of a write: NO_ACK, or SHORT_WRITE with fewer bytes than were to be sent (40_bus_transport.md R124). -/
theorem memWrite_err {p : Params} {d : Device} {addr : Word} {ws : List Word} {e : BusErr}
    (h : (memWrite p d addr ws).result = .err e) : e = .noAck ∨ ∃ k, k < 2 * ws.length ∧ e = .shortWrite k := by
  by_cases hw : ws = []
  · subst hw; cases h
  · rcases memWrite_cases p d addr hw with ⟨h2, _⟩ | ⟨j, _, h2, _⟩ | ⟨j, hj, h2, _⟩ | ⟨h2, _⟩ <;>
      rw [h2] at h <;> cases h
    · exact .inl rfl
    · exact .inr ⟨j, by simpa using hj, rfl⟩

theorem memRead_wf {p : Params} {d : Device} {addr : Word} {n : Nat} (h : d.wf = true) :
    (memRead p d addr n).dev.wf = true := by
  have hA := sendBytes_wf (k := 0) (bs := addressPhase p addr) (onStart_wf h)
  have hR := sendBytes_wf (k := 0) (bs := [slaR p]) (onRepStart_wf hA)
  have hQ := recvBytes_wf (m := 2 * n) hR
  unfold memRead
  split
  · exact h
  · dsimp only
    split
    · exact hA
    · exact onStop_wf hA
    · split
      · exact hR
      · exact onStop_wf hR
      · split
        · exact hQ
        · exact onStop_wf hQ

theorem memWrite_wf {p : Params} {d : Device} {addr : Word} {ws : List Word} (h : d.wf = true) :
    (memWrite p d addr ws).dev.wf = true := by
  have hA := sendBytes_wf (k := 0) (bs := addressPhase p addr) (onStart_wf h)
  have hQ := sendBytes_wf (k := 0) (bs := rawBytes ws) hA
  unfold memWrite
  split
  · exact h
  · dsimp only
    split
    · exact hA
    · exact onStop_wf hA
    · split
      · exact hQ
      · exact onStop_wf hQ
      · exact onStop_wf hQ

/-! ### Runs of bytes against given answers -/

/-- As many acknowledging answers as bytes: every byte is sent. -/
theorem sendBytes_acked (k : Nat) (bs : List Byte) (acks rest : List Answer) (hl : acks.length = bs.length)
    (ha : AllAck acks) :
    sendBytes k (.oracle (acks ++ rest)) bs = ⟨bs.map (BusEvent.transmit · true), .oracle rest, .allAcked⟩ := by
  induction bs generalizing k acks with
  | nil => simp at hl; subst hl; rfl
  | cons b bs ih =>
    match acks with
    | a :: acks =>
      have h1 : a.ack = true := ha a (by simp)
      have := ih (k + 1) acks (by simpa using hl) fun c hc => ha c (by simp [hc])
      simp [sendBytes, Device.onTransmit, h1, this]

/-- A refusing answer after `j` acknowledging ones: `j` bytes are sent, the next is refused. -/
theorem sendBytes_refused (k : Nat) (bs : List Byte) (acks rest : List Answer) (no : Answer) (hl : acks.length < bs.length)
    (ha : AllAck acks) (hn : no.ack = false) :
    sendBytes k (.oracle (acks ++ no :: rest)) bs =
      ⟨(bs.take acks.length).map (BusEvent.transmit · true) ++ [.transmit bs[acks.length] false], .oracle rest,
        .refusedAt (k + acks.length)⟩ := by
  induction bs generalizing k acks with
  | nil => simp at hl
  | cons b bs ih =>
    match acks with
    | [] => simp [sendBytes, Device.onTransmit, hn]
    | a :: acks =>
      have h1 : a.ack = true := ha a (by simp)
      have := ih (k + 1) acks (by simpa using hl) fun c hc => ha c (by simp [hc])
      simp [sendBytes, Device.onTransmit, h1, this]
      omega

/-- Too few answers, all acknowledging: the run never ends. -/
theorem sendBytes_short (k : Nat) (bs : List Byte) (as : List Answer) (hl : as.length < bs.length) (ha : AllAck as) :
    (sendBytes k (.oracle as) bs).result = .unanswered := by
  induction bs generalizing k as with
  | nil => simp at hl
  | cons b bs ih =>
    match as with
    | [] => rfl
    | a :: as =>
      have h1 : a.ack = true := ha a (by simp)
      have := ih (k + 1) as (by simpa using hl) fun c hc => ha c (by simp [hc])
      simp [sendBytes, Device.onTransmit, h1, this]

/-- As many answers as bytes asked for: their data are the bytes. -/
theorem recvBytes_answered (bytes rest : List Answer) :
    recvBytes (.oracle (bytes ++ rest)) bytes.length =
      ⟨receiveEvents (bytes.map Answer.data), .oracle rest, some (bytes.map Answer.data)⟩ := by
  induction bytes with
  | nil => rfl
  | cons a as ih =>
    cases as with
    | nil => simp [recvBytes, Device.onReceive, receiveEvents]
    | cons c cs => simp [recvBytes, Device.onReceive, receiveEvents] at ih ⊢; simp [ih]

theorem recvBytes_short (as : List Answer) (m : Nat) (h : as.length < m) : (recvBytes (.oracle as) m).bytes = none := by
  induction as generalizing m with
  | nil => match m with | m + 1 => rfl
  | cons a as ih => match m with | m + 1 => simp [recvBytes, Device.onReceive, ih m (by simpa using h)]

/-! ### The form of the record -/

theorem busPhase_append (es fs : List BusEvent) : (busPhase es = .idle) → busPhase (es ++ fs) = busPhase fs := by
  intro h
  simp only [busPhase, List.foldl_append] at h ⊢
  rw [h]

theorem foldl_transmit (bs : List Byte) : (bs.map (BusEvent.transmit · true)).foldl BusPhase.after .busy = .busy := by
  induction bs with
  | nil => rfl
  | cons b bs ih => exact ih

theorem foldl_receive (bs : List Byte) : (bs.map (BusEvent.receive · true)).foldl BusPhase.after .busy = .busy := by
  induction bs with
  | nil => rfl
  | cons b bs ih => exact ih

theorem foldl_receiveEvents (bs : List Byte) (h : bs ≠ []) :
    (receiveEvents bs).foldl BusPhase.after .busy = .mustStop := by
  induction bs using receiveEvents.induct with
  | case1 => exact absurd rfl h
  | case2 b => rfl
  | case3 b bs hb ih => rw [receiveEvents]; exact ih hb; exact hb

theorem not_mem_receiveEvents (bs : List Byte) (b : Byte) (a : Bool) : BusEvent.transmit b a ∉ receiveEvents bs := by
  induction bs using receiveEvents.induct with
  | case1 => simp [receiveEvents]
  | case2 b => simp [receiveEvents]
  | case3 b bs hb ih => rw [receiveEvents]; simp [ih]; exact hb

/-! ### The record and the refusals of a transaction -/

theorem busPhase_address_end (p : Params) (addr : Word) (j : Nat) :
    busPhase (.start :: ((addressPhase p addr).take j).map (BusEvent.transmit · true)) = .busy :=
  foldl_transmit _

theorem busPhase_address_refused (p : Params) (addr : Word) {j : Nat} (b : Byte) :
    busPhase (.start :: ((addressPhase p addr).take j).map (BusEvent.transmit · true) ++ [.transmit b false, .stop]) =
      .idle := by
  simp only [busPhase, List.cons_append, List.foldl_cons, List.foldl_append, show BusPhase.after .idle .start = .busy from rfl]
  rw [foldl_transmit]
  rfl

theorem not_hasRefusal_transmit (bs : List Byte) (b : Byte) :
    BusEvent.transmit b false ∉ bs.map (BusEvent.transmit · true) := by simp

theorem not_hasRefusal_receive (bs : List Byte) (b : Byte) :
    BusEvent.transmit b false ∉ bs.map (BusEvent.receive · true) := by simp

theorem not_hasRefusal_address (p : Params) (addr : Word) (b : Byte) :
    BusEvent.transmit b false ∉ addressEvents p addr := by simp [addressEvents]

/-- A read ends with the bus free, unless it never ends (40_bus_transport.md R122). -/
theorem memRead_phase (p : Params) (d : Device) (addr : Word) (n : Nat) :
    busPhase (memRead p d addr n).events = if (memRead p d addr n).result = .unanswered then .busy else .idle := by
  by_cases hn : n = 0
  · subst hn; rfl
  · have hA : (addressEvents p addr).foldl BusPhase.after .idle = .busy := rfl
    rcases memRead_cases p d addr hn with ⟨bs, h1, h2, h3⟩ | ⟨j, hj, h2, h3⟩ | ⟨h2, h3⟩ | ⟨h2, ⟨j, hj, h3⟩ | h3 | ⟨bs, _, h3⟩⟩
    · have hb : bs ≠ [] := by rintro rfl; simp at h1; omega
      simp only [h2, h3, readFrame, busPhase, List.foldl_append, hA]
      simp only [List.foldl_cons, List.foldl_nil, BusPhase.after, if_true, foldl_receiveEvents bs hb]
      simp
    · rw [h2, h3, busPhase_address_refused]; simp
    · rw [h2, h3]; simp [busPhase, hA, BusPhase.after]
    · rw [h2, h3, busPhase_address_end p addr j]; simp
    · rw [h2, h3]; simp [busPhase, hA, BusPhase.after]
    · rw [h2, h3]
      simp only [busPhase, List.foldl_append, hA]
      simp only [List.foldl_cons, List.foldl_nil, BusPhase.after, if_true, foldl_receive]

/-- A write ends with the bus free, unless it never ends (40_bus_transport.md R124). -/
theorem memWrite_phase (p : Params) (d : Device) (addr : Word) (ws : List Word) :
    busPhase (memWrite p d addr ws).events = if (memWrite p d addr ws).result = .unanswered then .busy else .idle := by
  by_cases hw : ws = []
  · subst hw; rfl
  · have hA : (addressEvents p addr).foldl BusPhase.after .idle = .busy := rfl
    rcases memWrite_cases p d addr hw with ⟨h2, h3⟩ | ⟨j, hj, h2, h3⟩ | ⟨j, hj, h2, h3⟩ | ⟨h2, ⟨j, hj, h3⟩ | ⟨j, _, h3⟩⟩
    · rw [h2, h3]; simp [writeFrame, busPhase, hA, foldl_transmit, BusPhase.after]
    · rw [h2, h3, busPhase_address_refused]; simp
    · rw [h2, h3]
      simp only [busPhase, List.foldl_append, hA, foldl_transmit]
      simp [BusPhase.after]
    · rw [h2, h3, busPhase_address_end p addr j]; simp
    · rw [h2, h3]
      simp only [busPhase, List.foldl_append, hA, foldl_transmit]
      simp

/-- A read that ended is an error exactly when the device refused a byte (40_bus_transport.md R123). -/
theorem memRead_refusal (p : Params) (d : Device) (addr : Word) (n : Nat) :
    HasRefusal (memRead p d addr n).events ↔ ∃ e, (memRead p d addr n).result = .err e := by
  by_cases hn : n = 0
  · subst hn; simp
  · rcases memRead_cases p d addr hn with ⟨bs, h1, h2, h3⟩ | ⟨j, hj, h2, h3⟩ | ⟨h2, h3⟩ | ⟨h2, ⟨j, hj, h3⟩ | h3 | ⟨bs, _, h3⟩⟩
    · rw [h2, h3]; simp [HasRefusal, readFrame, not_hasRefusal_address, not_mem_receiveEvents]
    · rw [h2, h3]; simp [HasRefusal]
    · rw [h2, h3]; simp [HasRefusal]
    · rw [h2, h3]; simp [HasRefusal, -List.map_take]
    · rw [h2, h3]; simp [HasRefusal, not_hasRefusal_address]
    · rw [h2, h3]; simp [HasRefusal, not_hasRefusal_address]

/-- A write that ended is an error exactly when the device refused a byte (40_bus_transport.md R124). -/
theorem memWrite_refusal (p : Params) (d : Device) (addr : Word) (ws : List Word) :
    HasRefusal (memWrite p d addr ws).events ↔ ∃ e, (memWrite p d addr ws).result = .err e := by
  by_cases hw : ws = []
  · subst hw; simp
  · rcases memWrite_cases p d addr hw with ⟨h2, h3⟩ | ⟨j, hj, h2, h3⟩ | ⟨j, hj, h2, h3⟩ | ⟨h2, ⟨j, hj, h3⟩ | ⟨j, _, h3⟩⟩
    · rw [h2, h3]; simp [HasRefusal, writeFrame, not_hasRefusal_address]
    · rw [h2, h3]; simp [HasRefusal]
    · rw [h2, h3]; simp [HasRefusal]
      exact ⟨_, .inr (.inr rfl)⟩
    · rw [h2, h3]; simp [HasRefusal, -List.map_take]
    · rw [h2, h3]; simp [HasRefusal, -List.map_take, not_hasRefusal_address]

/-- The wire form of a read of one raw word, low byte first (30_encoding.md R103, 20_memory.md R65). -/
theorem memRead_one_events {p : Params} {d : Device} {addr w : Word} (h : (memRead p d addr 1).result = .ok [w]) :
    (memRead p d addr 1).events = readFrame p addr [lowByte w, highByte w] := by
  rcases memRead_cases p d addr (n := 1) (by decide) with ⟨bs, h1, h2, h3⟩ | ⟨j, _, h2, _⟩ | ⟨h2, _⟩ | ⟨h2, _⟩ <;>
    rw [h2] at h <;> simp at h
  match bs, h1 with
  | [b0, b1], _ => simp [rawWords] at h; subst h; rw [h3]; simp

/-! ### Accesses -/

/-- Everything an access to read can be. -/
theorem busRead_free {addr : Word} {n : Nat} {s : State} (h : s.link = .free) :
    busRead addr n s = .ofTxn (memRead s.params s.dev addr n) s := by simp [busRead, h]

theorem busRead_zero (addr : Word) (s : State) : busRead addr 0 s = .ok [] s := by
  simp [busRead, Access.ofTxn, State.afterTxn]

theorem busRead_blocked {addr : Word} {n : Nat} {s : State} (hn : n ≠ 0) (h : s.link ≠ .free) :
    busRead addr n s = .undefinedBus := by simp [busRead, h, hn]

theorem busWrite_free {addr : Word} {ws : List Word} {s : State} (h : s.link = .free) :
    busWrite addr ws s = .ofTxn (memWrite s.params s.dev addr ws) s := by simp [busWrite, h]

theorem busWrite_nil (addr : Word) (s : State) : busWrite addr [] s = .ok () s := by
  simp [busWrite, Access.ofTxn, State.afterTxn]

theorem busWrite_blocked {addr : Word} {ws : List Word} {s : State} (hw : ws ≠ []) (h : s.link ≠ .free) :
    busWrite addr ws s = .undefinedBus := by simp [busWrite, h, hw]

/-- A command that answers a next state after an access: its access succeeded, failed, or was never answered. -/
theorem andThen_next {α : Type} {a : Access α} {f : α → State → Host.Outcome State Fault Refusal}
    {g : BusErr → State → Host.Outcome State Fault Refusal} {t : State} (h : a.andThen f g = .next t) :
    (∃ v s, a = .ok v s ∧ f v s = .next t) ∨ (∃ e s, a = .err e s ∧ g e s = .next t) ∨
      (∃ s, a = .stalled s ∧ t = s.stall) := by
  cases a with
  | ok v s => exact .inl ⟨v, s, rfl, h⟩
  | err e s => exact .inr (.inl ⟨e, s, rfl, h⟩)
  | stalled s => cases h; exact .inr (.inr ⟨s, rfl, rfl⟩)
  | undefinedBus => cases h

/-- An access that is a transaction, taken apart. -/
theorem ofTxn_ok {α : Type} {t : Txn α} {s s' : State} {a : α} (h : Access.ofTxn t s = .ok a s') :
    t.result = .ok a ∧ s' = s.afterTxn t := by
  unfold Access.ofTxn at h
  split at h <;> simp at h
  rename_i e; exact ⟨h.1 ▸ e, h.2.symm⟩

theorem ofTxn_err {α : Type} {t : Txn α} {s s' : State} {e : BusErr} (h : Access.ofTxn t s = .err e s') :
    t.result = .err e ∧ s' = s.afterTxn t := by
  unfold Access.ofTxn at h
  split at h <;> simp at h
  rename_i e'; exact ⟨h.1 ▸ e', h.2.symm⟩

theorem ofTxn_stalled {α : Type} {t : Txn α} {s s' : State} (h : Access.ofTxn t s = .stalled s') :
    t.result = .unanswered ∧ s' = s.afterTxn t := by
  unfold Access.ofTxn at h
  split at h <;> simp at h
  rename_i e; exact ⟨e, h.symm⟩

theorem ofTxn_ne_undefined {α : Type} (t : Txn α) (s : State) : Access.ofTxn t s ≠ .undefinedBus := by
  unfold Access.ofTxn
  split <;> simp

/-- A register read is a one-word read and the swap (42_register_access.md R160). -/
theorem regRead_ok {addr : Word} {s s' : State} {v : Word} (h : regRead addr s = .ok v s') :
    ∃ w, busRead addr 1 s = .ok [w] s' ∧ v = swap16 w := by
  unfold regRead at h
  split at h <;> simp at h
  rename_i ws s1 e
  obtain ⟨h1, rfl⟩ := h
  have hl : ws.length = 1 := by
    by_cases hs : s.link = .free
    · rw [busRead_free hs] at e
      exact memRead_length (ofTxn_ok e).1
    · rw [busRead_blocked (by decide) hs] at e; cases e
  match ws, hl with
  | [w], _ => exact ⟨w, e, by rw [← h1]; rfl⟩

theorem regRead_err {addr : Word} {s s' : State} {e : BusErr} (h : regRead addr s = .err e s') :
    busRead addr 1 s = .err e s' := by
  unfold regRead at h
  split at h <;> simp at h
  rename_i e' s1 he
  rw [he, h.1, h.2]

theorem regRead_stalled {addr : Word} {s s' : State} (h : regRead addr s = .stalled s') :
    busRead addr 1 s = .stalled s' := by
  unfold regRead at h
  split at h <;> simp at h
  rename_i s1 he
  rw [he, h]

end Sys2Proof.Machine
end

