-- ==== Sys2Proof/Laws/Exec.lean ====
section
/-! SUPPORT. What each command that uses the bus can do, said once: if it answers a next state, which one. -/

namespace Sys2Proof.Machine

/-! ### Accesses, by how their transaction ended -/

theorem busRead_ok {addr : Word} {n : Nat} {s s' : State} {ws : List Word} (h : busRead addr n s = .ok ws s') :
    (memRead s.params s.dev addr n).result = .ok ws ∧ s' = s.afterTxn (memRead s.params s.dev addr n) := by
  unfold busRead at h
  split at h
  · cases h
  · exact ofTxn_ok h

theorem busRead_err {addr : Word} {n : Nat} {s s' : State} {e : BusErr} (h : busRead addr n s = .err e s') :
    (memRead s.params s.dev addr n).result = .err e ∧ s' = s.afterTxn (memRead s.params s.dev addr n) := by
  unfold busRead at h
  split at h
  · cases h
  · exact ofTxn_err h

theorem busRead_stalled {addr : Word} {n : Nat} {s s' : State} (h : busRead addr n s = .stalled s') :
    (memRead s.params s.dev addr n).result = .unanswered ∧ s' = s.afterTxn (memRead s.params s.dev addr n) := by
  unfold busRead at h
  split at h
  · cases h
  · exact ofTxn_stalled h

theorem busWrite_ok {addr : Word} {ws : List Word} {s s' : State} {u : Unit} (h : busWrite addr ws s = .ok u s') :
    (memWrite s.params s.dev addr ws).result = .ok () ∧ s' = s.afterTxn (memWrite s.params s.dev addr ws) := by
  unfold busWrite at h
  split at h
  · cases h
  · exact ofTxn_ok h

theorem busWrite_err {addr : Word} {ws : List Word} {s s' : State} {e : BusErr} (h : busWrite addr ws s = .err e s') :
    (memWrite s.params s.dev addr ws).result = .err e ∧ s' = s.afterTxn (memWrite s.params s.dev addr ws) := by
  unfold busWrite at h
  split at h
  · cases h
  · exact ofTxn_err h

theorem busWrite_stalled {addr : Word} {ws : List Word} {s s' : State} (h : busWrite addr ws s = .stalled s') :
    (memWrite s.params s.dev addr ws).result = .unanswered ∧ s' = s.afterTxn (memWrite s.params s.dev addr ws) := by
  unfold busWrite at h
  split at h
  · cases h
  · exact ofTxn_stalled h

/-! ### Register accesses over a free bus -/

theorem regRead_free_ok {addr : Word} {s : State} {w : Word} (h : s.link = .free)
    (hr : (memRead s.params s.dev addr 1).result = .ok [w]) :
    regRead addr s = .ok (swap16 w) (s.afterTxn (memRead s.params s.dev addr 1)) := by
  simp [regRead, busRead_free h, Access.ofTxn, hr, codecDecode]

theorem regRead_free_err {addr : Word} {s : State} {e : BusErr} (h : s.link = .free)
    (hr : (memRead s.params s.dev addr 1).result = .err e) :
    regRead addr s = .err e (s.afterTxn (memRead s.params s.dev addr 1)) := by
  simp [regRead, busRead_free h, Access.ofTxn, hr]

theorem regRead_free_unanswered {addr : Word} {s : State} (h : s.link = .free)
    (hr : (memRead s.params s.dev addr 1).result = .unanswered) :
    regRead addr s = .stalled (s.afterTxn (memRead s.params s.dev addr 1)) := by
  simp [regRead, busRead_free h, Access.ofTxn, hr]

theorem regWrite_free {addr v : Word} {s : State} (h : s.link = .free) :
    regWrite addr v s = .ofTxn (memWrite s.params s.dev addr [swap16 v]) s := busWrite_free h

/-! ### Register accesses over a bus that is not free (93_implementation_defined.md U13, log 6) -/

theorem regRead_blocked {addr : Word} {s : State} (h : s.link ≠ .free) : regRead addr s = .undefinedBus := by
  rw [regRead, busRead_blocked (by decide) h]

theorem regWrite_blocked {addr v : Word} {s : State} (h : s.link ≠ .free) : regWrite addr v s = .undefinedBus :=
  busWrite_blocked (List.cons_ne_nil _ _) h

/-! ### Commands that answer a next state -/

/-- Everything `BRD` can do. -/
theorem execBrd_cases {addr : Word} {n : Nat} {s t : State} (h : execBrd addr n s = .next t) :
    (32 < n ∧ t = s.raise .badOperand 0) ∨
    (n ≤ 32 ∧ ∃ q, q = memRead s.params s.dev addr n ∧
      ((∃ ws, q.result = .ok ws ∧ t = ((s.afterTxn q).fillX ws).respond 0 0) ∨
       (∃ e, q.result = .err e ∧ t = (s.afterTxn q).raise e.code e.count) ∨
       (q.result = .unanswered ∧ t = (s.afterTxn q).stall))) := by
  unfold execBrd at h
  split at h
  · refine .inr ⟨‹_›, _, rfl, ?_⟩
    rcases andThen_next h with ⟨ws, u, e, h⟩ | ⟨er, u, e, h⟩ | ⟨u, e, h⟩
    · obtain ⟨e2, rfl⟩ := busRead_ok e; cases h; exact .inl ⟨ws, e2, rfl⟩
    · obtain ⟨e2, rfl⟩ := busRead_err e; cases h; exact .inr (.inl ⟨er, e2, rfl⟩)
    · obtain ⟨e2, rfl⟩ := busRead_stalled e; exact .inr (.inr ⟨e2, h⟩)
  · cases h; exact .inl ⟨by omega, rfl⟩

/-- Everything `BWR` can do. -/
theorem execBwr_cases {addr : Word} {n : Nat} {s t : State} (h : execBwr addr n s = .next t) :
    (32 < n ∧ t = s.raise .badOperand 0) ∨
    (n ≤ 32 ∧ ∃ q, q = memWrite s.params s.dev addr (s.firstX n) ∧
      ((q.result = .ok () ∧ t = (s.afterTxn q).respond 0 0) ∨
       (∃ e, q.result = .err e ∧ t = (s.afterTxn q).raise e.code e.count) ∨
       (q.result = .unanswered ∧ t = (s.afterTxn q).stall))) := by
  unfold execBwr at h
  split at h
  · refine .inr ⟨‹_›, _, rfl, ?_⟩
    rcases andThen_next h with ⟨ws, u, e, h⟩ | ⟨er, u, e, h⟩ | ⟨u, e, h⟩
    · obtain ⟨e2, rfl⟩ := busWrite_ok e; cases h; exact .inl ⟨e2, rfl⟩
    · obtain ⟨e2, rfl⟩ := busWrite_err e; cases h; exact .inr (.inl ⟨er, e2, rfl⟩)
    · obtain ⟨e2, rfl⟩ := busWrite_stalled e; exact .inr (.inr ⟨e2, h⟩)
  · cases h; exact .inl ⟨by omega, rfl⟩

/-- Everything `DEC` and `ENC` can do. -/
theorem execDec_cases {n : Nat} {s t : State} (h : execDec n s = .next t ∨ execEnc n s = .next t) :
    (32 < n ∧ t = s.raise .badOperand 0) ∨ (n ≤ 32 ∧ t = (s.swapX n).respond 0 0) := by
  by_cases hn : n ≤ 32
  · simp [execDec, execEnc, hn] at h; exact .inr ⟨hn, h.symm⟩
  · simp [execDec, execEnc, hn] at h; exact .inl ⟨by omega, h.symm⟩

/-- Everything `RDREG` can do. -/
theorem execRdreg_cases {addr : Word} {s t : State} (h : execRdreg addr s = .next t) :
    ∃ q, q = memRead s.params s.dev addr 1 ∧
      ((∃ w, q.result = .ok [w] ∧ t = ((s.afterTxn q).putX 0 (by decide) (swap16 w)).respond 0 (swap16 w)) ∨
       (∃ e, q.result = .err e ∧ t = (s.afterTxn q).raise e.code 0) ∨
       (q.result = .unanswered ∧ t = (s.afterTxn q).stall)) := by
  refine ⟨_, rfl, ?_⟩
  rcases andThen_next h with ⟨v, u, e, h⟩ | ⟨er, u, e, h⟩ | ⟨u, e, h⟩
  · obtain ⟨w, e1, rfl⟩ := regRead_ok e
    obtain ⟨e2, rfl⟩ := busRead_ok e1; cases h; exact .inl ⟨w, e2, rfl⟩
  · obtain ⟨e2, rfl⟩ := busRead_err (regRead_err e); cases h; exact .inr (.inl ⟨er, e2, rfl⟩)
  · obtain ⟨e2, rfl⟩ := busRead_stalled (regRead_stalled e); exact .inr (.inr ⟨e2, h⟩)

/-- Everything `WRREG` can do. -/
theorem execWrreg_cases {addr : Word} {s t : State} (h : execWrreg addr s = .next t) :
    ∃ q, q = memWrite s.params s.dev addr [swap16 s.x[0]] ∧
      ((q.result = .ok () ∧ t = (s.afterTxn q).respond 0 0) ∨
       (∃ e, q.result = .err e ∧ t = (s.afterTxn q).raise e.code e.count) ∨
       (q.result = .unanswered ∧ t = (s.afterTxn q).stall)) := by
  refine ⟨_, rfl, ?_⟩
  rcases andThen_next h with ⟨ws, u, e, h⟩ | ⟨er, u, e, h⟩ | ⟨u, e, h⟩
  · obtain ⟨e2, rfl⟩ := busWrite_ok e; cases h; exact .inl ⟨e2, rfl⟩
  · obtain ⟨e2, rfl⟩ := busWrite_err e; cases h; exact .inr (.inl ⟨er, e2, rfl⟩)
  · obtain ⟨e2, rfl⟩ := busWrite_stalled e; exact .inr (.inr ⟨e2, h⟩)

/-- The state `INIT` sends its configuration from (43_sensor_controller.md R171). -/
def State.initStart (s : State) : State := { s with ctl := .uninit, cfg := cfgDefault s.params }

/-- Everything `INIT` can do. -/
theorem execInit_cases {s t : State} (h : execInit s = .next t) :
    ∃ q, q = memWrite s.params s.dev s.params.addrConfig [swap16 (cfgDefault s.params)] ∧
      ((q.result = .ok () ∧ ∃ r, r = memRead s.params q.dev s.params.addrConfig 1 ∧
        ((∃ w, r.result = .ok [w] ∧
            t = { (s.initStart.afterTxn q).afterTxn r with cfg := swap16 w, ctl := .configured }.respond 0 (swap16 w)) ∨
         (∃ e, r.result = .err e ∧ t = ((s.initStart.afterTxn q).afterTxn r).raise e.code 1) ∨
         (r.result = .unanswered ∧ t = ((s.initStart.afterTxn q).afterTxn r).stall))) ∨
       (∃ e, q.result = .err e ∧ t = (s.initStart.afterTxn q).raise e.code 0) ∨
       (q.result = .unanswered ∧ t = (s.initStart.afterTxn q).stall)) := by
  refine ⟨_, rfl, ?_⟩
  rcases andThen_next h with ⟨ws, u, e, h⟩ | ⟨er, u, e, h⟩ | ⟨u, e, h⟩
  · obtain ⟨e2, rfl⟩ := busWrite_ok e
    refine .inl ⟨e2, _, rfl, ?_⟩
    rcases andThen_next h with ⟨v, u, e, h⟩ | ⟨er, u, e, h⟩ | ⟨u, e, h⟩
    · obtain ⟨w, e1, rfl⟩ := regRead_ok e
      obtain ⟨e2, rfl⟩ := busRead_ok e1; cases h; exact .inl ⟨w, e2, rfl⟩
    · obtain ⟨e2, rfl⟩ := busRead_err (regRead_err e); cases h; exact .inr (.inl ⟨er, e2, rfl⟩)
    · obtain ⟨e2, rfl⟩ := busRead_stalled (regRead_stalled e); exact .inr (.inr ⟨e2, h⟩)
  · obtain ⟨e2, rfl⟩ := busWrite_err e; cases h; exact .inr (.inl ⟨er, e2, rfl⟩)
  · obtain ⟨e2, rfl⟩ := busWrite_stalled e; exact .inr (.inr ⟨e2, h⟩)

/-- The state after the status read of a `POLL` that read the value `v` (43_sensor_controller.md R178). -/
def State.withStat (s : State) (v : Word) : State := { s with stat := v }

/-- Everything `POLL` can do. -/
theorem execPoll_cases {s t : State} (h : execPoll s = .next t) :
    (s.ctl = .uninit ∧ t = s.raise .badState 0) ∨
    (s.ctl ≠ .uninit ∧ ∃ q, q = memRead s.params s.dev s.params.addrStatus 1 ∧
      ((∃ w, q.result = .ok [w] ∧
          ((statNewData s.params.statLayout (swap16 w) = 1 ∧
            ∃ a r, a = statAck s.params.statLayout (swap16 w) ∧
              r = memWrite s.params q.dev s.params.addrStatus [swap16 a] ∧
              ((r.result = .ok () ∧
                  t = { ((s.afterTxn q).withStat a).afterTxn r with ctl := .idle }.respond 1 a) ∨
               (∃ e, r.result = .err e ∧ t = (((s.afterTxn q).withStat a).afterTxn r).raise e.code 1) ∨
               (r.result = .unanswered ∧ t = (((s.afterTxn q).withStat a).afterTxn r).stall))) ∨
           (statNewData s.params.statLayout (swap16 w) ≠ 1 ∧
            t = { (s.afterTxn q).withStat (swap16 w) with ctl := .idle }.respond 0 (swap16 w)))) ∨
       (∃ e, q.result = .err e ∧ t = (s.afterTxn q).raise e.code 0) ∨
       (q.result = .unanswered ∧ t = (s.afterTxn q).stall))) := by
  unfold execPoll at h
  split at h
  · cases h; exact .inl ⟨‹_›, rfl⟩
  · refine .inr ⟨‹_›, _, rfl, ?_⟩
    rcases andThen_next h with ⟨v, u, e, h⟩ | ⟨er, u, e, h⟩ | ⟨u, e, h⟩
    · obtain ⟨w, e1, rfl⟩ := regRead_ok e
      obtain ⟨e2, rfl⟩ := busRead_ok e1
      refine .inl ⟨w, e2, ?_⟩
      dsimp only at h
      split at h
      · refine .inl ⟨‹_›, _, _, rfl, rfl, ?_⟩
        rcases andThen_next h with ⟨ws, u, e, h⟩ | ⟨er, u, e, h⟩ | ⟨u, e, h⟩
        · obtain ⟨e2, rfl⟩ := busWrite_ok e; cases h; exact .inl ⟨e2, rfl⟩
        · obtain ⟨e2, rfl⟩ := busWrite_err e; cases h; exact .inr (.inl ⟨er, e2, rfl⟩)
        · obtain ⟨e2, rfl⟩ := busWrite_stalled e; exact .inr (.inr ⟨e2, h⟩)
      · cases h; exact .inr ⟨‹_›, rfl⟩
    · obtain ⟨e2, rfl⟩ := busRead_err (regRead_err e); cases h; exact .inr (.inl ⟨er, e2, rfl⟩)
    · obtain ⟨e2, rfl⟩ := busRead_stalled (regRead_stalled e); exact .inr (.inr ⟨e2, h⟩)

/-! ### The rows of a capture -/

/-- The state the rows of a `CAPTURE` start from (43_sensor_controller.md R183). -/
def State.captureStart (s : State) : State := { s.drawElapsed with ctl := .capturing, row := s.subpage.setWidth 5 }

/-- The read of the row that `ROW` names. -/
def State.rowRead (s : State) : Txn (List Word) := memRead s.params s.dev (rowAddr s.params s.row.toNat) 32

/-- The state in which a `CAPTURE` ends, without error or with one. -/
def State.toIdle (s : State) : State := { s with ctl := .idle }

/-- Everything the rows of a capture can do: what holds at the start and is kept by every stored row holds where the
rows end, by no row being left, by the fuel, by an error, or by an event never answered. -/
theorem captureRows_cases {P : Nat → State → Prop} {fuel count : Nat} {s t : State} (h0 : P count s)
    (hstep : ∀ c u ws, P c u → u.row.toNat < 24 → u.rowRead.result = .ok ws → P (c + 1) ((u.afterTxn u.rowRead).takeRow ws))
    (h : captureRows fuel count s = .next t) :
    ∃ c u, P c u ∧
      (((24 ≤ u.row.toNat ∨ c = count + fuel) ∧ t = u.toIdle.respond (BitVec.ofNat 8 c) u.elapsed) ∨
       (u.row.toNat < 24 ∧ ∃ e, u.rowRead.result = .err e ∧
          t = (u.afterTxn u.rowRead).toIdle.raise e.code (u.row.setWidth 8)) ∨
       (u.row.toNat < 24 ∧ u.rowRead.result = .unanswered ∧ t = (u.afterTxn u.rowRead).stall)) := by
  induction fuel generalizing count s with
  | zero => cases h; exact ⟨count, s, h0, .inl ⟨.inr rfl, rfl⟩⟩
  | succ fuel ih =>
    unfold captureRows at h
    split at h
    · rename_i hr
      rcases andThen_next h with ⟨ws, u, e, h⟩ | ⟨er, u, e, h⟩ | ⟨u, e, h⟩
      · obtain ⟨e2, rfl⟩ := busRead_ok e
        obtain ⟨c, u, hp, hu⟩ := ih (hstep count s ws h0 hr e2) h
        refine ⟨c, u, hp, ?_⟩
        rcases hu with ⟨hu, rfl⟩ | hu
        · exact .inl ⟨hu.imp id (by omega), rfl⟩
        · exact .inr hu
      · obtain ⟨e2, rfl⟩ := busRead_err e; cases h; exact ⟨count, s, h0, .inr (.inl ⟨hr, er, e2, rfl⟩)⟩
      · obtain ⟨e2, rfl⟩ := busRead_stalled e; exact ⟨count, s, h0, .inr (.inr ⟨hr, e2, h⟩)⟩
    · cases h; exact ⟨count, s, h0, .inl ⟨.inl (by omega), rfl⟩⟩

/-- A row stored: the rest of the capture goes on from it. -/
theorem captureRows_ok {fuel count : Nat} {s : State} {ws : List Word} (hl : s.link = .free) (hr : s.row.toNat < 24)
    (h : s.rowRead.result = .ok ws) :
    captureRows (fuel + 1) count s = captureRows fuel (count + 1) ((s.afterTxn s.rowRead).takeRow ws) := by
  simp only [State.rowRead] at h
  simp [captureRows, hr, busRead_free hl, Access.ofTxn, h, Access.andThen, State.rowRead]

/-- A row whose read fails ends the capture (43_sensor_controller.md R185). -/
theorem captureRows_err {fuel count : Nat} {s : State} {e : BusErr} (hl : s.link = .free) (hr : s.row.toNat < 24)
    (h : s.rowRead.result = .err e) :
    captureRows (fuel + 1) count s = .next ((s.afterTxn s.rowRead).toIdle.raise e.code (s.row.setWidth 8)) := by
  simp only [State.rowRead] at h
  simp [captureRows, hr, busRead_free hl, Access.ofTxn, h, Access.andThen, State.rowRead, State.toIdle]

/-- A row whose read is never answered stalls the capture (70_reset_and_hazards.md R262). -/
theorem captureRows_unanswered {fuel count : Nat} {s : State} (hl : s.link = .free) (hr : s.row.toNat < 24)
    (h : s.rowRead.result = .unanswered) :
    captureRows (fuel + 1) count s = .next (s.afterTxn s.rowRead).stall := by
  simp only [State.rowRead] at h
  simp [captureRows, hr, busRead_free hl, Access.ofTxn, h, Access.andThen, State.rowRead]

/-- A row on a bus that is not free (93_implementation_defined.md U13, log 6). -/
theorem captureRows_blocked {fuel count : Nat} {s : State} (hl : s.link ≠ .free) (hr : s.row.toNat < 24) :
    captureRows (fuel + 1) count s = .fault .busUndefined := by
  simp [captureRows, hr, busRead_blocked _ hl, Access.andThen]

/-- No row left. -/
theorem captureRows_done {fuel count : Nat} {s : State} (hr : 24 ≤ s.row.toNat) :
    captureRows fuel count s = captureDone count s := by
  cases fuel with
  | zero => rfl
  | succ fuel => simp [captureRows, show ¬ s.row.toNat < 24 by omega]

/-- `CAPTURE` past its state check. -/
theorem execCapture_running {s : State} (h : s.ctl ≠ .uninit) :
    execCapture s = captureRows 12 0 s.captureStart := by simp [execCapture, h, State.captureStart]

/-- Everything `CAPTURE` can do, by what holds at its start and is kept by every stored row. -/
theorem execCapture_cases {P : Nat → State → Prop} {s t : State} (h : execCapture s = .next t)
    (h0 : s.ctl ≠ .uninit → P 0 s.captureStart)
    (hstep : ∀ c u ws, P c u → u.row.toNat < 24 → u.rowRead.result = .ok ws → P (c + 1) ((u.afterTxn u.rowRead).takeRow ws)) :
    (s.ctl = .uninit ∧ t = s.raise .badState 0) ∨
    (s.ctl ≠ .uninit ∧ ∃ c u, P c u ∧
      (((24 ≤ u.row.toNat ∨ c = 12) ∧ t = u.toIdle.respond (BitVec.ofNat 8 c) u.elapsed) ∨
       (u.row.toNat < 24 ∧ ∃ e, u.rowRead.result = .err e ∧
          t = (u.afterTxn u.rowRead).toIdle.raise e.code (u.row.setWidth 8)) ∨
       (u.row.toNat < 24 ∧ u.rowRead.result = .unanswered ∧ t = (u.afterTxn u.rowRead).stall))) := by
  by_cases hc : s.ctl = .uninit
  · simp [execCapture, hc] at h; exact .inl ⟨hc, h.symm⟩
  · rw [execCapture_running hc] at h
    obtain ⟨c, u, h1, h2⟩ := captureRows_cases (h0 hc) hstep h
    exact .inr ⟨hc, c, u, h1, by simpa using h2⟩

/-- Everything the host access commands can do. -/
theorem execHost_cases {i : Instr} {s t : State} (hi : i.family = .hostAccess) (h : exec i s = .next t) :
    (∃ v, t = s.respond 0 v) ∨ t = s.raise .badOperand 0 ∨
      ∃ k hk v, i = .ldx k v ∧ t = (s.putX k hk v).respond 0 0 := by
  cases i <;> simp only [Instr.family, reduceCtorEq] at hi
  · simp only [exec, execLdx] at h
    split at h <;> cases h
    · exact .inr (.inr ⟨_, _, _, rfl, rfl⟩)
    · exact .inr (.inl rfl)
  · simp only [exec, execRdx] at h
    split at h <;> cases h
    · exact .inl ⟨_, rfl⟩
    · exact .inr (.inl rfl)
  · simp only [exec, execRdfb] at h
    split at h <;> cases h
    · exact .inl ⟨_, rfl⟩
    · exact .inr (.inl rfl)
  · simp only [exec, execRdcsr] at h
    split at h <;> cases h
    · exact .inl ⟨_, rfl⟩
    · exact .inr (.inl rfl)

end Sys2Proof.Machine
end

