-- ==== Sys2Proof/Laws/Capture.lean ====
section
/-! SUPPORT. A capture row by row: its rows, the row it takes, and the state after a run of rows that were read. -/

namespace Sys2Proof.Machine

/-! ### Rows -/

theorem rowsFrom_cons {r : Nat} (h : r < 24) : rowsFrom r = r :: rowsFrom (r + 2) := by
  revert r; decide

theorem rowsFrom_ge {r : Nat} (h : 24 ≤ r) : rowsFrom r = [] := by
  simp only [rowsFrom, List.filter_eq_nil_iff, List.mem_range, decide_eq_true_eq]
  omega

/-- SUBPAGE is 0 to 7 (10_state.md R35). -/
theorem subpage_lt {s : State} (h : s.params.Valid) : s.subpage.toNat < 8 := by
  obtain ⟨_, hw, _, _⟩ := h
  simp only [StatLayout.fields, List.map_cons, List.cons.injEq] at hw
  refine Nat.lt_pow_two_of_testBit (n := 3) _ fun i hi => ?_
  rw [BitVec.testBit_toNat, State.subpage, statSubpage, getField_getLsbD, hw.1]
  simp [show ¬ i < 3 by omega]

theorem captureStart_row {s : State} (h : s.params.Valid) : s.captureStart.row.toNat = s.subpage.toNat := by
  have := subpage_lt h
  simp only [State.captureStart, BitVec.toNat_setWidth]
  omega

/-- Where a capture starts, by its fields (43_sensor_controller.md R183). -/
theorem captureStart_eq (s : State) : s.captureStart = { s with
    ctl := .capturing, elapsed := Config.elapsedDraw s.draws, draws := s.draws + 1
    row := BitVec.ofNat 5 s.subpage.toNat } := by
  have hr : s.subpage.setWidth 5 = BitVec.ofNat 5 s.subpage.toNat := by apply BitVec.eq_of_toNat_eq; simp
  simp only [State.captureStart, State.drawElapsed, hr]

/-! ### The row taken -/

theorem decodedRow_eq (x : Vector Word 32) {ws : List Word} (h : ws.length = 32) :
    swapBuffer (fillBuffer x ws) 32 = decodedRow ws := by
  ext i hi
  simp [decodedRow, hi, h]

theorem decodedRow_getElem (ws : List Word) (c : Nat) (h : c < 32) : (decodedRow ws)[c] = swap16 (ws.getD c 0) := by
  simp [decodedRow]

/-- What the rest of a capture goes on from after a row that was read (43_sensor_controller.md R183). -/
theorem takeRow_eq {s : State} {ws : List Word} (h : ws.length = 32) :
    s.takeRow ws = { s with
      x := decodedRow ws, fb := s.fb.setIfInBounds s.row.toNat (decodedRow ws), row := s.row + 2 } := by
  simp [State.takeRow, State.storeRow, State.swapX, State.fillX, decodedRow_eq _ h]

/-! ### The Frame Buffer after a run of rows -/

@[simp] theorem frameWith_nil (fb : Vector (Vector Word 32) 24) (r : Nat) : frameWith fb r [] = fb := by
  ext1 q hq; simp [frameWith]

theorem frameWith_cons (fb : Vector (Vector Word 32) 24) (r : Nat) (ws : List Word) (wss : List (List Word)) :
    frameWith (fb.setIfInBounds r (decodedRow ws)) (r + 2) wss = frameWith fb r (ws :: wss) := by
  ext1 q hq
  simp only [frameWith, Vector.getElem_ofFn, Fin.getElem_fin]
  by_cases h1 : r ≤ q ∧ (q - r) % 2 = 0
  · by_cases h2 : q = r
    · subst h2; simp
    · have h3 : (q - r) / 2 = (q - (r + 2)) / 2 + 1 := by omega
      rw [if_pos h1, if_pos (by omega), h3, Vector.getElem_setIfInBounds_ne (by omega) (Ne.symm h2)]
      simp
  · rw [if_neg h1, if_neg (by omega), Vector.getElem_setIfInBounds_ne (by omega) (by rintro rfl; simp at h1)]

@[simp] theorem lastRow_nil (x : Vector Word 32) : lastRow x [] = x := rfl

theorem lastRow_cons (x : Vector Word 32) (ws : List Word) (wss : List (List Word)) :
    lastRow (decodedRow ws) wss = lastRow x (ws :: wss) := by
  cases wss with
  | nil => simp [lastRow]
  | cons w wss => simp only [lastRow, List.getLast?_cons_cons, List.getLast?_eq_some_getLast (List.cons_ne_nil w wss)]

/-! ### A run of rows that were read -/

/-- The state after the rows `q` read from row `r` on. -/
def State.afterRows (s : State) (r : Nat) (q : RowReads) : State :=
  { s with
    row := BitVec.ofNat 5 (r + 2 * q.words.length), x := lastRow s.x q.words, fb := frameWith s.fb r q.words
    bus := s.bus ++ q.events, dev := q.dev }

/-- A capture runs through the rows that are read and goes on from the state they leave. -/
theorem captureRows_read {pre post : List Nat} {fuel count r : Nat} {s : State} {q : RowReads} (hl : s.link = .free)
    (hs : s.row.toNat = r) (hr : rowsFrom r = pre ++ post) (hq : readRows s.params s.dev pre = some q) :
    captureRows (fuel + pre.length) count s = captureRows fuel (count + pre.length) (s.afterRows r q) ∧
      q.words.length = pre.length ∧ rowsFrom (r + 2 * pre.length) = post := by
  induction pre generalizing count r s q with
  | nil =>
    cases hq
    subst hs
    refine ⟨?_, rfl, by simpa using hr⟩
    simp [State.afterRows]
  | cons k pre ih =>
    have h24 : r < 24 := by
      by_contra h
      rw [rowsFrom_ge (by omega)] at hr
      simp at hr
    rw [rowsFrom_cons h24, List.cons_append, List.cons.injEq] at hr
    obtain ⟨rfl, hr⟩ := hr
    rw [readRows] at hq
    split at hq
    · rename_i ws hw
      rw [Option.map_eq_some_iff] at hq
      obtain ⟨q, hq, rfl⟩ := hq
      have h32 := memRead_length hw
      have hw' : s.rowRead.result = .ok ws := by rw [State.rowRead, hs]; exact hw
      have ht := captureRows_ok (fuel := fuel + pre.length) (count := count) hl (by omega) hw'
      rw [takeRow_eq h32] at ht
      generalize hu : ({ s.afterTxn s.rowRead with
        x := decodedRow ws, fb := (s.afterTxn s.rowRead).fb.setIfInBounds (s.afterTxn s.rowRead).row.toNat (decodedRow ws)
        row := (s.afterTxn s.rowRead).row + 2 } : State) = u at ht
      have hul : u.link = .free := by rw [← hu]; exact hl
      have hrow : u.row.toNat = r + 2 := by
        rw [← hu]
        simp only [afterTxn_row, BitVec.toNat_add, hs, show (2 : BitVec 5).toNat = 2 from rfl]
        omega
      have hq' : readRows u.params u.dev pre = some q := by
        rw [← hu]; simp only [afterTxn_params, afterTxn_dev, State.rowRead, hs]; exact hq
      obtain ⟨h1, h2, h3⟩ := ih (count := count + 1) hul hrow hr hq'
      refine ⟨?_, by simp [h2], ?_⟩
      · rw [List.length_cons, ← Nat.add_assoc, ht, h1, show count + 1 + pre.length = count + (pre.length + 1) by omega]
        have hn : r + 2 + 2 * q.words.length = r + 2 * (ws :: q.words).length := by simp; omega
        have hx : lastRow u.x q.words = lastRow s.x (ws :: q.words) := by rw [← hu]; exact lastRow_cons s.x ws q.words
        have hf : frameWith u.fb (r + 2) q.words = frameWith s.fb r (ws :: q.words) := by
          rw [← hu, ← frameWith_cons]; simp only [afterTxn_fb, afterTxn_row, hs]
        have hb : u.bus ++ q.events = s.bus ++ ((memRead s.params s.dev (rowAddr s.params r) 32).events ++ q.events) := by
          rw [← hu]; simp only [afterTxn_bus, State.rowRead, hs, List.append_assoc]
        have he : u.afterRows (r + 2) q =
            s.afterRows r ⟨ws :: q.words, (memRead s.params s.dev (rowAddr s.params r) 32).events ++ q.events, q.dev⟩ := by
          simp only [State.afterRows, hn, hx, hf, hb]
          rw [← hu]
          rfl
        rw [he]
      · rw [List.length_cons, ← h3]; congr 1; omega
    · cases hq

end Sys2Proof.Machine
end

