-- ==== Sys2Proof/Laws/Decode.lean ====
section
/-! SUPPORT. Fields of an encoded command word. -/

namespace Sys2Proof

theorem commandWord_toNat (op a : Byte) (imm : Word) :
    (commandWord op a imm).toNat = op.toNat * 2 ^ 24 + a.toNat * 2 ^ 16 + imm.toNat := by
  have h1 : (op ++ a : BitVec (8 + 8)).toNat = op.toNat * 2 ^ 8 + a.toNat := by
    rw [BitVec.toNat_append, Nat.shiftLeft_eq, Nat.mul_comm, ← Nat.two_pow_add_eq_or_of_lt (by simpa using a.isLt)]
  have h2 : (commandWord op a imm).toNat = (op ++ a : BitVec (8 + 8)).toNat * 2 ^ 16 + imm.toNat := by
    simp only [commandWord]
    rw [BitVec.toNat_append, Nat.shiftLeft_eq, Nat.mul_comm, ← Nat.two_pow_add_eq_or_of_lt (by simpa using imm.isLt)]
  rw [h2, h1]
  ring

theorem opField_toNat (w : Word32) : (opField w).toNat = w.toNat / 2 ^ 24 := by
  have := w.isLt
  simp only [opField, BitVec.extractLsb'_toNat, Nat.shiftRight_eq_div_pow]
  omega

theorem aField_toNat (w : Word32) : (aField w).toNat = w.toNat / 2 ^ 16 % 2 ^ 8 := by
  simp only [aField, BitVec.extractLsb'_toNat, Nat.shiftRight_eq_div_pow]

theorem immField_toNat (w : Word32) : (immField w).toNat = w.toNat % 2 ^ 16 := by
  simp only [immField, BitVec.extractLsb'_toNat, Nat.shiftRight_eq_div_pow]
  omega

theorem immHighField_toNat (w : Word32) : (immHighField w).toNat = w.toNat / 2 ^ 5 % 2 ^ 11 := by
  simp only [immHighField, BitVec.extractLsb'_toNat, Nat.shiftRight_eq_div_pow]

theorem columnField_val (w : Word32) : (columnField w).val = w.toNat % 2 ^ 5 := by
  simp only [columnField, BitVec.extractLsb'_toNat, Nat.shiftRight_eq_div_pow]
  omega

@[simp] theorem opField_commandWord (op a : Byte) (imm : Word) : opField (commandWord op a imm) = op := by
  apply BitVec.eq_of_toNat_eq
  have := a.isLt; have := imm.isLt
  rw [opField_toNat, commandWord_toNat]
  omega

@[simp] theorem aField_commandWord (op a : Byte) (imm : Word) : aField (commandWord op a imm) = a := by
  apply BitVec.eq_of_toNat_eq
  have := a.isLt; have := imm.isLt
  rw [aField_toNat, commandWord_toNat]
  omega

@[simp] theorem immField_commandWord (op a : Byte) (imm : Word) : immField (commandWord op a imm) = imm := by
  apply BitVec.eq_of_toNat_eq
  have := imm.isLt
  rw [immField_toNat, commandWord_toNat]
  omega

/-- A word is the command word of its three fields (30_encoding.md R92). -/
theorem commandWord_fields (w : Word32) : commandWord (opField w) (aField w) (immField w) = w := by
  apply BitVec.eq_of_toNat_eq
  rw [commandWord_toNat, opField_toNat, aField_toNat, immField_toNat]
  omega

/-- The word of a well-formed instruction as a number (30_encoding.md R92). -/
theorem encode_toNat (i : Instr) (h : aOperandOf i < 256) :
    (encode i).toNat = (opcodeOf i).toNat * 2 ^ 24 + aOperandOf i * 2 ^ 16 + (immOperandOf i).toNat := by
  rw [encode, commandWord_toNat]; simp; omega

end Sys2Proof
end

