-- ==== Sys2Proof/Laws/PerInstr.lean ====
section
/-! SUPPORT. Facts of every instruction as syntax, one lemma per constructor. -/

/-- Bits 31:24 of an instruction's word are its opcode (30_encoding.md R92, R96). -/
def Sys2Proof.Laws.EncodedOpcode.Statement (i : Sys2Proof.Instr) : Prop :=
  Sys2Proof.opField (Sys2Proof.encode i) = Sys2Proof.opcodeOf i

namespace Sys2Proof.Laws.EncodedOpcode

theorem brd (addr : Word) (n : Nat) : Statement (.brd addr n) := opField_commandWord _ _ _
theorem bwr (addr : Word) (n : Nat) : Statement (.bwr addr n) := opField_commandWord _ _ _
theorem dec (n : Nat) : Statement (.dec n) := opField_commandWord _ _ _
theorem enc (n : Nat) : Statement (.enc n) := opField_commandWord _ _ _
theorem rdreg (addr : Word) : Statement (.rdreg addr) := opField_commandWord _ _ _
theorem wrreg (addr : Word) : Statement (.wrreg addr) := opField_commandWord _ _ _
theorem init : Statement .init := opField_commandWord _ _ _
theorem poll : Statement .poll := opField_commandWord _ _ _
theorem capture : Statement .capture := opField_commandWord _ _ _
theorem ldx (i : Nat) (v : Word) : Statement (.ldx i v) := opField_commandWord _ _ _
theorem rdx (i : Nat) : Statement (.rdx i) := opField_commandWord _ _ _
theorem rdfb (r : Nat) (c : Fin 32) : Statement (.rdfb r c) := opField_commandWord _ _ _
theorem rdcsr (i : Nat) : Statement (.rdcsr i) := opField_commandWord _ _ _

end Sys2Proof.Laws.EncodedOpcode
end

