-- ==== Sys2Proof/Laws/Reference.lean ====
section
/-! SUPPORT. The reference device of 20_memory.md R71 over the bus: what it answers and what a transaction leaves of it. -/

namespace Sys2Proof.Machine

/-! ### Runs of bytes against the reference device -/

/-- A present device without scripted refusals acknowledges and records every byte. -/
theorem sendBytes_reference (k : Nat) (bs : List Byte) {r : RefDevice} (hp : r.present = true) (hn : r.refusals = []) :
    sendBytes k (.reference r) bs = ⟨bs.map (BusEvent.transmit · true),
      .reference { r with transfer := { r.transfer with received := r.transfer.received ++ bs } }, .allAcked⟩ := by
  induction bs generalizing k r with
  | nil => simp [sendBytes]
  | cons b bs ih =>
    have := ih (k + 1) (r := { r with transfer := { r.transfer with received := r.transfer.received ++ [b] } }) hp hn
    simp only [sendBytes, Device.onTransmit, RefDevice.onTransmit, hp, hn, List.headD_nil, List.tail_nil, Bool.not_false,
      Bool.and_self, Bool.not_true, Bool.or_false]
    obtain ⟨pr, m, rf, tr⟩ := r
    subst hp hn
    rw [this]
    simp

/-- The device supplies the bytes of its words from its address on. -/
theorem recvBytes_reference (m : Nat) (r : RefDevice) :
    (recvBytes (.reference r) m).bytes = some ((List.range m).map fun j =>
        loadByte r.mem ((2 * r.transfer.address.toNat + r.transfer.supplied + j) % memCells)) ∧
      (recvBytes (.reference r) m).dev =
        .reference { r with transfer := { r.transfer with supplied := r.transfer.supplied + m } } := by
  induction m generalizing r with
  | zero => exact ⟨rfl, rfl⟩
  | succ m ih =>
    obtain ⟨h1, h2⟩ := ih r.onReceive.2
    simp only [recvBytes, Device.onReceive, h1, h2]
    refine ⟨?_, ?_⟩
    · rw [List.range_succ_eq_map]
      simp only [Option.map_some, List.map_cons, List.map_map, RefDevice.onReceive, Transfer.address, Nat.add_zero]
      refine congrArg some (congrArg _ (List.map_congr_left fun j _ => ?_))
      simp only [Function.comp, Nat.succ_eq_add_one]
      rw [show ∀ a b : Nat, a + (b + 1) + j = a + b + (j + 1) by intro a b; omega]
    · simp only [RefDevice.onReceive]
      rw [show r.transfer.supplied + 1 + m = r.transfer.supplied + (m + 1) by omega]

/-- Whatever a run of bytes does, the memory of the reference device stays. -/
theorem sendBytes_mem (k : Nat) (bs : List Byte) (r : RefDevice) : ∃ r', (sendBytes k (.reference r) bs).dev = .reference r' ∧
    r'.mem = r.mem ∧ ((sendBytes k (.reference r) bs).result ≠ .unanswered) ∧
    ((sendBytes k (.reference r) bs).result = .allAcked →
      r'.transfer = { r.transfer with received := r.transfer.received ++ bs }) ∧
    ((sendBytes k (.reference r) bs).result ≠ .allAcked → r'.transfer.refused = true) := by
  induction bs generalizing k r with
  | nil => exact ⟨r, rfl, rfl, by simp [sendBytes], by simp [sendBytes], by simp [sendBytes]⟩
  | cons b bs ih =>
    by_cases ha : (r.onTransmit b).1 = true
    · have hsb : sendBytes k (.reference r) (b :: bs) =
          ⟨.transmit b true :: (sendBytes (k + 1) (.reference (r.onTransmit b).2) bs).events,
            (sendBytes (k + 1) (.reference (r.onTransmit b).2) bs).dev,
            (sendBytes (k + 1) (.reference (r.onTransmit b).2) bs).result⟩ := by
        simp only [sendBytes, Device.onTransmit, ha]
      obtain ⟨r', h1, h2, h3, h4, h5⟩ := ih (k + 1) (r.onTransmit b).2
      refine ⟨r', by rw [hsb]; exact h1, h2, by rw [hsb]; exact h3, ?_, by rw [hsb]; exact h5⟩
      rw [hsb]
      intro h
      rw [h4 h]
      simp only [RefDevice.onTransmit] at ha
      simp only [RefDevice.onTransmit, ha, Bool.not_true, Bool.or_false, List.append_assoc, List.singleton_append]
    · rw [Bool.not_eq_true] at ha
      have hsb : sendBytes k (.reference r) (b :: bs) = ⟨[.transmit b false], .reference (r.onTransmit b).2, .refusedAt k⟩ := by
        simp only [sendBytes, Device.onTransmit, ha]
      refine ⟨(r.onTransmit b).2, by rw [hsb], rfl, by simp [hsb], by simp [hsb], fun _ => ?_⟩
      simp only [RefDevice.onTransmit] at ha
      simp only [RefDevice.onTransmit, ha, Bool.not_false, Bool.or_true]

/-! ### Transactions against the reference device -/

/-- A read transaction leaves the memory of the reference device, and always ends. -/
theorem memRead_mem (p : Params) (r : RefDevice) (addr : Word) (n : Nat) :
    ∃ r', (memRead p (.reference r) addr n).dev = .reference r' ∧ r'.mem = r.mem ∧
      (memRead p (.reference r) addr n).result ≠ .unanswered := by
  by_cases hn : n = 0
  · subst hn; exact ⟨r, rfl, rfl, by simp⟩
  simp only [memRead, hn, if_false, Device.onStart]
  obtain ⟨r1, h1, h2, h3, h4, h5⟩ := sendBytes_mem 0 (addressPhase p addr) r.onStart
  cases hr : (sendBytes 0 (.reference r.onStart) (addressPhase p addr)).result with
  | unanswered => exact absurd hr h3
  | refusedAt k =>
    have := h5 (by simp [hr])
    simp only [h1, Device.onStop]
    exact ⟨_, rfl, by simp [RefDevice.onStop, this, h2, RefDevice.onStart], by simp⟩
  | allAcked =>
    simp only [h1, Device.onRepStart]
    obtain ⟨r2, g1, g2, g3, g4, g5⟩ := sendBytes_mem 0 [slaR p] r1.onRepStart
    cases hr2 : (sendBytes 0 (.reference r1.onRepStart) [slaR p]).result with
    | unanswered => exact absurd hr2 g3
    | refusedAt k =>
      have := g5 (by simp [hr2])
      simp only [g1, Device.onStop]
      exact ⟨_, rfl, by simp [RefDevice.onStop, this, g2, h2, RefDevice.onRepStart, RefDevice.onStart], by simp⟩
    | allAcked =>
      obtain ⟨q1, q2⟩ := recvBytes_reference (2 * n) r2
      have := g4 hr2
      simp only [g1, q1, q2, Device.onStop]
      exact ⟨_, rfl, by simp [RefDevice.onStop, this, g2, h2, RefDevice.onRepStart, RefDevice.onStart], by simp⟩

/-- A write transaction of the reference device stores its bytes when it succeeds, nothing when it fails; it always
ends. -/
theorem memWrite_mem (p : Params) (r : RefDevice) (addr : Word) (ws : List Word) :
    ∃ r', (memWrite p (.reference r) addr ws).dev = .reference r' ∧
      (memWrite p (.reference r) addr ws).result ≠ .unanswered ∧
      ((memWrite p (.reference r) addr ws).result = .ok () →
        r'.mem = storeBytes r.mem (2 * addr.toNat) (rawBytes ws)) ∧
      ((memWrite p (.reference r) addr ws).result ≠ .ok () → r'.mem = r.mem) := by
  by_cases hw : ws = []
  · subst hw; exact ⟨r, rfl, by simp, fun _ => rfl, by simp⟩
  simp only [memWrite, hw, if_false, Device.onStart]
  obtain ⟨r1, h1, h2, h3, h4, h5⟩ := sendBytes_mem 0 (addressPhase p addr) r.onStart
  cases hr : (sendBytes 0 (.reference r.onStart) (addressPhase p addr)).result with
  | unanswered => exact absurd hr h3
  | refusedAt k =>
    have := h5 (by simp [hr])
    simp only [h1, Device.onStop]
    exact ⟨_, rfl, by simp, by simp, fun _ => by simp [RefDevice.onStop, this, h2, RefDevice.onStart]⟩
  | allAcked =>
    have ht := h4 hr
    simp only [h1]
    obtain ⟨r2, g1, g2, g3, g4, g5⟩ := sendBytes_mem 0 (rawBytes ws) r1
    cases hr2 : (sendBytes 0 (.reference r1) (rawBytes ws)).result with
    | unanswered => exact absurd hr2 g3
    | refusedAt k =>
      have := g5 (by simp [hr2])
      simp only [g1, Device.onStop]
      exact ⟨_, rfl, by simp, by simp, fun _ => by simp [RefDevice.onStop, this, g2, h2, RefDevice.onStart]⟩
    | allAcked =>
      have hu := g4 hr2
      simp only [g1, Device.onStop]
      exact ⟨_, rfl, by simp, fun _ => by
        simp [RefDevice.onStop, hu, ht, g2, h2, RefDevice.onStart, Transfer.none, Transfer.address, addressPhase], by simp⟩

/-- The reference device after a transaction in which every byte was acknowledged. -/
def RefDevice.idleWith (r : RefDevice) (m : Memory) : RefDevice := { r with mem := m, transfer := .none }

/-- A read of a present device without scripted refusals supplies its bytes. -/
theorem memRead_reference (p : Params) {r : RefDevice} (addr : Word) {n : Nat} (hn : n ≠ 0) (hp : r.present = true)
    (hr : r.refusals = []) :
    (memRead p (.reference r) addr n).dev = .reference (r.idleWith r.mem) ∧
      (memRead p (.reference r) addr n).result = .ok (rawWords ((List.range (2 * n)).map fun j =>
        loadByte r.mem ((2 * addr.toNat + j) % memCells))) := by
  simp only [memRead, hn, if_false, Device.onStart]
  rw [sendBytes_reference 0 (addressPhase p addr) (r := r.onStart) hp hr]
  simp only [Device.onRepStart, RefDevice.onRepStart]
  rw [sendBytes_reference 0 [slaR p]]
  · simp only
    generalize hd : ({ r.onStart with transfer := _ } : RefDevice) = d
    obtain ⟨h1, h2⟩ := recvBytes_reference (2 * n) d
    simp only [h1, h2]
    subst hd
    simp [Device.onStop, RefDevice.onStop, RefDevice.idleWith, RefDevice.onStart, Transfer.none, Transfer.address,
      addressPhase]
  · exact hp
  · exact hr

/-- A write of a present device without scripted refusals is stored. -/
theorem memWrite_reference (p : Params) {r : RefDevice} (addr : Word) {ws : List Word} (hw : ws ≠ [])
    (hp : r.present = true) (hr : r.refusals = []) :
    (memWrite p (.reference r) addr ws).dev =
        .reference (r.idleWith (storeBytes r.mem (2 * addr.toNat) (rawBytes ws))) ∧
      (memWrite p (.reference r) addr ws).result = .ok () := by
  simp only [memWrite, hw, if_false, Device.onStart]
  rw [sendBytes_reference 0 (addressPhase p addr) (r := r.onStart) hp hr]
  simp only
  rw [sendBytes_reference 0 (rawBytes ws)]
  · simp [Device.onStop, RefDevice.onStop, RefDevice.idleWith, RefDevice.onStart, Transfer.none, Transfer.address,
      addressPhase]
  · exact hp
  · exact hr

/-- The word at a device address, by its two cells. -/
theorem loadWord_offset (m : Memory) (addr : Word) (i : Nat) :
    loadWord m (addr + BitVec.ofNat 16 i) = joinBytes (loadByte m ((2 * addr.toNat + 2 * i) % memCells))
      (loadByte m ((2 * addr.toNat + (2 * i + 1)) % memCells)) := by
  have h : (addr + BitVec.ofNat 16 i).toNat = (addr.toNat + i) % 65536 := by simp [BitVec.toNat_add]
  have h1 : 2 * ((addr.toNat + i) % 65536) = (2 * addr.toNat + 2 * i) % memCells := by simp only [memCells]; omega
  have h2 : 2 * ((addr.toNat + i) % 65536) + 1 = (2 * addr.toNat + (2 * i + 1)) % memCells := by
    simp only [memCells]; omega
  simp only [loadWord, h, h1]
  rw [← h2, h1]

/-- A word of a present device without scripted refusals, read alone. -/
theorem memRead_reference_one (p : Params) {r : RefDevice} (addr : Word) (hp : r.present = true) (hr : r.refusals = []) :
    (memRead p (.reference r) addr 1).dev = .reference (r.idleWith r.mem) ∧
      (memRead p (.reference r) addr 1).result = .ok [swap16 (loadWord r.mem addr)] := by
  obtain ⟨h1, h2⟩ := memRead_reference p addr (n := 1) (by decide) hp hr
  refine ⟨h1, h2.trans ?_⟩
  have := addr.isLt
  have e1 : 2 * addr.toNat % memCells = 2 * addr.toNat := by simp only [memCells]; omega
  have e2 : (2 * addr.toNat + 1) % memCells = 2 * addr.toNat + 1 := by simp only [memCells]; omega
  simp [List.range_succ, rawWords, e1, e2, loadWord]

/-- A word written alone is read back. -/
theorem loadWord_storeBytes_one (m : Memory) (a v : Word) :
    loadWord (storeBytes m (2 * a.toNat) (rawBytes [swap16 v])) a = v := by
  have := a.isLt
  have e1 : 2 * a.toNat % memCells = 2 * a.toNat := by simp only [memCells]; omega
  have e2 : (2 * a.toNat + 1) % memCells = 2 * a.toNat + 1 := by simp only [memCells]; omega
  have h0 := loadByte_storeBytes (rawBytes [swap16 v]) m (2 * a.toNat) 0 (by simp) (by simp [memCells])
  have h1 := loadByte_storeBytes (rawBytes [swap16 v]) m (2 * a.toNat) 1 (by simp) (by simp [memCells])
  rw [Nat.add_zero, e1] at h0
  rw [e2] at h1
  rw [loadWord, h0, h1]
  simp

/-- A write leaves every cell of no word written alone. -/
theorem loadByte_storeBytes_outside (m : Memory) (addr : Word) (ws : List Word) (a : Nat)
    (h : a ∉ cellsOf addr ws.length) : loadByte (storeBytes m (2 * addr.toNat) (rawBytes ws)) a = loadByte m a := by
  refine loadByte_storeBytes_of_ne _ _ _ _ fun j hj e => h ?_
  simp only [cellsOf, List.mem_map, List.mem_range]
  exact ⟨j, by simpa using hj, e⟩

end Sys2Proof.Machine
end

