-- ==== Sys2Proof/Tests/Slice0.lean ====
section
/-! SUPPORT. The model's own tests. Expected results are those of spec/95_test_vectors.md (V<n>), which each test names;
the last part shows, for each claim that has hypotheses, a state and operands that meet them. -/

namespace Sys2Proof.Tests

open Sys2Proof.Machine

/-! ### Helpers -/

/-- The outcome is a next state with the property. -/
def next (o : Host.Outcome State Fault Refusal) (p : State → Bool) : Bool :=
  match o with
  | .next s => p s
  | _ => false

/-- The response word of the last command. -/
def answer (s : State) : Option Word32 := s.rsps.getLast?.map Response.word

/-- The reference device holding these cells. -/
def holding (m : Memory) : Device := .reference { RefDevice.blank with mem := m }

/-- The reference device refusing the transmitted byte after `k` acknowledged ones. -/
def refusing (k : Nat) : Device := .reference { RefDevice.blank with refusals := List.replicate k false ++ [true] }

/-- No device on the bus. -/
def noDevice : Device := .reference { RefDevice.blank with present := false }

/-- After reset, with this device and in this controller state. -/
def start (d : Device) (c : Ctl) : State := { State.reset with dev := d, ctl := c }

/-- `k` answers that acknowledge and supply `b`. -/
def acks (k : Nat) (b : Byte) : List Answer := List.replicate k ⟨true, b⟩

/-- An answer that refuses. -/
def no : Answer := ⟨false, 0⟩

/-- The bus events of an acknowledged address phase with the default parameters. -/
def addr (hi lo : Byte) : List BusEvent := [.start, .transmit 0x66 true, .transmit hi true, .transmit lo true]

/-- The block's own state is that of `s`, and the bus record too. -/
def unchanged (s t : State) : Bool := decide (s.SameBlock t) && decide (t.bus = s.bus)

/-! ### Well-formedness -/

theorem test_brd_count_too_wide : (Instr.brd 0 256).wf = false := by decide
theorem test_bwr_count_too_wide : (Instr.bwr 0 256).wf = false := by decide
theorem test_dec_count_too_wide : (Instr.dec 256).wf = false := by decide
theorem test_enc_count_too_wide : (Instr.enc 256).wf = false := by decide
theorem test_ldx_index_too_wide : (Instr.ldx 256 0).wf = false := by decide
theorem test_rdx_index_too_wide : (Instr.rdx 256).wf = false := by decide
theorem test_rdfb_row_too_wide : (Instr.rdfb 256 0).wf = false := by decide
theorem test_rdcsr_index_too_wide : (Instr.rdcsr 256).wf = false := by decide

/-! ### Decoding: words of V1 to V9, written out there from 30_encoding.md R94 and R96 -/

theorem test_decode_brd : decodeTableWord 32 0x10200400 = some (.brd 0x0400 32) := by decide
theorem test_decode_bwr : decodeTableWord 32 0x1101800D = some (.bwr 0x800D 1) := by decide
theorem test_decode_dec : decodeTableWord 32 0x20200000 = some (.dec 32) := by decide
theorem test_decode_enc : decodeTableWord 32 0x21010000 = some (.enc 1) := by decide
theorem test_decode_rdreg : decodeTableWord 32 0x30008000 = some (.rdreg 0x8000) := by decide
theorem test_decode_wrreg : decodeTableWord 32 0x3100800D = some (.wrreg 0x800D) := by decide
theorem test_decode_init : decodeTableWord 32 0x40000000 = some .init := by decide
theorem test_decode_poll : decodeTableWord 32 0x41000000 = some .poll := by decide
theorem test_decode_capture : decodeTableWord 32 0x42000000 = some .capture := by decide
theorem test_decode_ldx : decodeTableWord 32 0x5003BEEF = some (.ldx 3 0xBEEF) := by decide
theorem test_decode_rdx : decodeTableWord 32 0x511F0000 = some (.rdx 31) := by decide
theorem test_decode_rdfb : decodeTableWord 32 0x5217001F = some (.rdfb 23 31) := by decide
theorem test_decode_rdcsr : decodeTableWord 32 0x53050000 = some (.rdcsr 5) := by decide

/-- V9: the illegal words, the reason of each. -/
theorem test_decode_illegal :
    ([0x00000000, 0xFFFFFFFF, 0x12000000] : List Word32).all (fun w => decode w matches .error .unknownOpcode) = true ∧
    ([0x40000001, 0x41010000, 0x20010001, 0x30018000, 0x52000020, 0x53000001] : List Word32).all
      (fun w => decode w matches .error .nonzeroField) = true := by decide

/-- V9: each is answered 0x10000000 with the state unchanged and no bus event. -/
theorem test_illegal_words_answered :
    [0x00000000, 0xFFFFFFFF, 0x12000000, 0x40000001, 0x41010000, 0x20010001, 0x30018000, 0x52000020, 0x53000001].all
      (fun w => next (step (State.reset.withFetchWord 32 w)) fun t =>
        unchanged State.reset t && answer t == some 0x10000000) = true := by decide +kernel

/-- The words are distinct commands: no two rows' masks and matches share a word (30_encoding.md R94). -/
theorem test_opcode_rows_disjoint : opcodeRows.Pairwise
    (fun r q => r.pattern &&& r.mask &&& q.mask ≠ q.pattern &&& r.mask &&& q.mask) := by decide

/-- The assembler line of 30_encoding.md R100. -/
theorem test_assembly : (Instr.brd 0x0400 32).assembly = "BRD 1024, 32" ∧ Instr.poll.assembly = "POLL" := by
  decide +kernel

/-! ### Codec values -/

/-- V10, V12. -/
theorem test_swap : swap16 0x1234 = 0x3412 ∧ swap16 0x00FF = 0xFF00 ∧ swap16 0x8001 = 0x0180 := by decide

/-- V15, V16, V17. -/
theorem test_cfg_fields : cfgDefault .default = 0x0F81 ∧ cfgUnpack .default 0x0F81 = ⟨1, 0, 0, 0, 7, 3, 0, 0⟩ ∧
    cfgUnpack .default 0xFFFF = ⟨1, 1, 1, 7, 7, 3, 1, 0xE002⟩ ∧ cfgUnpack .default 0x1901 = ⟨1, 0, 0, 0, 2, 2, 1, 0⟩ := by
  decide

/-- V18, V18a. -/
theorem test_set_field : setField 0xEF83 CfgLayout.default.refresh 2 = 0xED03 ∧
    setField 0 CfgLayout.default.resolution 7 = 0x0C00 := by decide

/-- V19, V20. -/
theorem test_status_fields : statAck .default 0x0019 = 0x0011 ∧ statAck .default 0xFFFF = 0xFFF7 ∧
    statAck .default 1 = 1 ∧ statSubpage .default 0xFFFF = 7 ∧ statEndOverwrite .default 0x0019 = 1 := by decide

/-- V30, with the row address that wraps. -/
theorem test_row_address : rowAddr .default 22 = 0x06C0 ∧
    rowAddr { Params.default with frameBase := 0xFFF0 } 1 = 0x0010 := by decide

/-! ### Codec commands -/

/-- V13. -/
theorem test_dec_swaps_first_words :
    next (exec (.dec 3) { State.reset with x := fillBuffer State.reset.x [0x1234, 0xABCD, 0x00FF, 0x5678] }) (fun t =>
      t.x.toList.take 4 == [0x3412, 0xCDAB, 0xFF00, 0x5678] && answer t == some 0) = true := by decide +kernel

/-- V14a. -/
theorem test_dec_count_out_of_range :
    next (exec (.dec 33) State.reset) (fun t => unchanged State.reset t && answer t == some 0x11000000) = true := by
  decide +kernel

/-- P4 step 3. -/
theorem test_enc_swaps_first_words :
    next (exec (.enc 2) { State.reset with x := fillBuffer State.reset.x [0x1234, 0xABCD, 0x00FF] }) (fun t =>
      t.x.toList.take 3 == [0x3412, 0xCDAB, 0x00FF] && answer t == some 0) = true := by decide +kernel

/-- V14a. -/
theorem test_enc_count_out_of_range :
    next (exec (.enc 255) State.reset) (fun t => unchanged State.reset t && answer t == some 0x11000000) = true := by
  decide +kernel

/-! ### Transport -/

/-- V22: `DEV[0x0400] = 0xA000`, `DEV[0x0401] = 0xA001`. -/
theorem test_brd_two_words :
    next (exec (.brd 0x0400 2) (start (holding [(0x800, 0xA0), (0x802, 0xA0), (0x803, 0x01)]) .uninit)) (fun t =>
      t.x.toList.take 3 == [0x00A0, 0x01A0, 0] && answer t == some 0 &&
      decide (t.bus = addr 0x04 0x00 ++ [.repStart, .transmit 0x67 true, .receive 0xA0 true, .receive 0x00 true,
        .receive 0xA0 true, .receive 0x01 false, .stop])) = true := by decide +kernel

/-- V29. -/
theorem test_brd_read_address_refused :
    next (exec (.brd 0x8000 1) (start (refusing 3) .uninit)) (fun t =>
      decide (t.x = State.reset.x) && answer t == some 0x02000000 &&
      decide (t.bus = addr 0x80 0x00 ++ [.repStart, .transmit 0x67 false, .stop])) = true := by decide +kernel

/-- V24. -/
theorem test_bwr_two_words :
    next (exec (.bwr 0x0500 2) { State.reset with x := fillBuffer State.reset.x [0x3412, 0x7856] }) (fun t =>
      decide (t.dev = holding [(0xA00, 0x12), (0xA01, 0x34), (0xA02, 0x56), (0xA03, 0x78)]) && answer t == some 0 &&
      decide (t.bus = addr 0x05 0x00 ++ [.transmit 0x12 true, .transmit 0x34 true, .transmit 0x56 true,
        .transmit 0x78 true, .stop])) = true := by decide +kernel

/-- V31. -/
theorem test_bwr_data_byte_refused :
    next (exec (.bwr 0x0500 2) { start (refusing 5) .uninit with x := fillBuffer State.reset.x [0x3412, 0x7856] }) (fun t =>
      decide (t.dev = holding []) && answer t == some 0x03020000 &&
      decide (t.bus = addr 0x05 0x00 ++ [.transmit 0x12 true, .transmit 0x34 true, .transmit 0x56 false, .stop])) = true := by
  decide +kernel

/-! ### Register access -/

/-- V34: `DEV[0x800D] = 0x0F81`. -/
theorem test_rdreg_value :
    next (exec (.rdreg 0x800D) (start (holding [(0x1001A, 0x0F), (0x1001B, 0x81)]) .idle)) (fun t =>
      t.x[0] == 0x0F81 && decide (t.cfg = 0 ∧ t.stat = 0 ∧ t.ctl = .idle) && answer t == some 0x00000F81) = true := by
  decide +kernel

/-- V36. -/
theorem test_rdreg_no_device :
    next (exec (.rdreg 0x8000) (start noDevice .uninit)) (fun t =>
      t.x[0] == 0 && answer t == some 0x01000000 &&
      decide (t.bus = [.start, .transmit 0x66 false, .stop])) = true := by decide +kernel

/-- V35. -/
theorem test_wrreg_value :
    next (exec (.wrreg 0x800D) { State.reset with x := fillBuffer State.reset.x [0x0F81] }) (fun t =>
      decide (t.dev = holding [(0x1001A, 0x0F), (0x1001B, 0x81)]) && t.x[0] == 0x0F81 && t.cfg == 0 &&
      answer t == some 0) = true := by decide +kernel

/-- V37. -/
theorem test_wrreg_second_byte_refused :
    next (exec (.wrreg 0x800D) { start (refusing 4) .uninit with x := fillBuffer State.reset.x [0x0F81] }) (fun t =>
      answer t == some 0x03010000 &&
      decide (t.bus = addr 0x80 0x0D ++ [.transmit 0x0F true, .transmit 0x81 false, .stop])) = true := by decide +kernel

/-! ### Controller -/

/-- V40. -/
theorem test_init_configures :
    next (exec .init State.reset) (fun t =>
      t.cfg == 0x0F81 && decide (t.ctl = .configured) && answer t == some 0x00000F81 &&
      decide (t.dev = holding [(0x1001A, 0x0F), (0x1001B, 0x81)])) = true := by decide +kernel

/-- V41a. -/
theorem test_init_readback_refused :
    next (exec .init { start (refusing 8) .idle with cfg := 0x0F81 }) (fun t =>
      t.cfg == 0x0F81 && decide (t.ctl = .uninit) && answer t == some 0x02010000) = true := by decide +kernel

/-- V44: `DEV[0x8000] = 0x0019`. -/
theorem test_poll_acknowledges :
    next (exec .poll (start (holding [(0x10001, 0x19)]) .configured)) (fun t =>
      t.stat == 0x0011 && decide (t.ctl = .idle) && answer t == some 0x00010011 &&
      decide (t.dev = holding [(0x10001, 0x11)])) = true := by decide +kernel

/-- V47: `DEV[0x8000] = 0x0009`, the write-back refused. -/
theorem test_poll_write_back_refused :
    next (exec .poll (start (.reference ⟨true, [(0x10001, 0x09)], [false, false, false, false, true], .none⟩) .idle)) (fun t =>
      t.stat == 0x0001 && decide (t.ctl = .idle) && answer t == some 0x01010000 &&
      decide (t.dev = holding [(0x10001, 0x09)])) = true := by decide +kernel

/-- V53, the rows filled with 0xA0A0 by any device. -/
theorem test_capture_stops_at_row_4 :
    next (exec .capture (start (.oracle (acks 136 0xA0 ++ [no])) .idle)) (fun t =>
      t.fb[0][0] == 0xA0A0 && t.fb[2][31] == 0xA0A0 && t.fb[4][0] == 0 && t.fb[1][0] == 0 && t.row == 4 &&
      decide (t.ctl = .idle) && answer t == some 0x01040000) = true := by decide +kernel

/-- V52 with the latched subpage 7: nine rows, the first one row 7. -/
theorem test_capture_subpage_7 :
    next (exec .capture { start (.oracle (acks 612 0xA0)) .idle with stat := 7 }) (fun t =>
      t.fb[7][0] == 0xA0A0 && t.fb[23][31] == 0xA0A0 && t.fb[5][0] == 0 && t.fb[8][0] == 0 && t.row == 25 &&
      (t.rsps.map Response.aux) == [9] && (t.bus.take 4 == addr 0x04 0xE0)) = true := by decide +kernel

/-! ### Host access -/

/-- V60, V61. -/
theorem test_ldx : next (exec (.ldx 0 0x0F81) State.reset) (fun t => t.x[0] == 0x0F81 && answer t == some 0) = true ∧
    next (exec (.ldx 32 0x1234) State.reset) (fun t => unchanged State.reset t && answer t == some 0x11000000) = true := by
  decide +kernel

/-- V62. -/
theorem test_rdx :
    next (exec (.rdx 5) { State.reset with x := State.reset.x.set 5 0xA0C5 }) (fun t => answer t == some 0x0000A0C5) = true ∧
    next (exec (.rdx 32) State.reset) (fun t => answer t == some 0x11000000) = true := by decide +kernel

/-- V63: the reading is -2. -/
theorem test_rdfb :
    (let s := { State.reset with fb := State.reset.fb.set 23 (State.reset.x.set 31 0xFFFE) }
     next (exec (.rdfb 23 31) s) (fun t => answer t == some 0x0000FFFE && s.reading 23 31 == -2)) = true ∧
    next (exec (.rdfb 24 0) State.reset) (fun t => answer t == some 0x11000000) = true := by decide +kernel

/-- V66, V67. -/
theorem test_rdcsr :
    (let s := { start noDevice .idle with stat := 0x0011 }
     next (exec (.rdcsr 2) s) (fun t => answer t == some 0x00000011) &&
     next (exec (.rdcsr 3) s) (fun t => answer t == some 0x00000001)) = true ∧
    next (exec (.rdcsr 6) State.reset) (fun t => answer t == some 0x11000000) = true := by decide +kernel

/-! ### Steps -/

/-- V70, V73: the encoding is checked before the state and before the range. -/
theorem test_decode_is_checked_first :
    [0x41000001, 0x52180020].all
      (fun w => next (step (State.reset.withFetchWord 32 w)) fun t => answer t == some 0x10000000) = true := by decide +kernel

/-- V71, V72: the range and the state are checked before the bus. -/
theorem test_bus_is_checked_last :
    next (step ((start noDevice .uninit).withFetchWord 32 0x10218000)) (fun t =>
      t.bus == [] && answer t == some 0x11000000) = true ∧
    next (step ((start noDevice .uninit).withFetchWord 32 0x41000000)) (fun t =>
      t.bus == [] && answer t == some 0x12000000) = true := by decide +kernel

/-- The host's word is the first one executed after reset (log 1); V64. -/
theorem test_first_word_after_reset :
    next (step (State.reset.withFetchWord 32 0x52000000)) (fun t => answer t == some 0 && t.inputs == []) = true := by
  decide +kernel

/-- `rst` in a stalled command leaves a cut bus, on which a transaction faults, until the device changes (log 6). -/
theorem test_reset_of_stalled_block :
    next (step { start (.oracle []) .capturing with link := .stalled, row := 4, inputs := [.reset] }) (fun t =>
      t.link == .cut && t.ctl == .uninit && t.row == 0 &&
      (match exec .init t with | .fault .busUndefined => true | _ => false) &&
      next (step { t with inputs := [.device (holding [])] }) (fun u => u.link == .free)) = true := by decide +kernel

/-! ### Witnesses: for each claim with hypotheses, a state and operands that meet them, each clause at a boundary -/

/-- A run of the outcome that meets the property. -/
theorem exists_next {o : Host.Outcome State Fault Refusal} (p : State → Bool) (h : next o p = true) :
    ∃ t, o = .next t ∧ p t = true := by
  cases o with
  | next t => exact ⟨t, rfl, h⟩
  | fault r => cases h
  | refused r => cases h

/-- A transaction that ends in `r`. -/
theorem exists_txn {α : Type} {t : Txn α} {r : TxnEnd α} (h : t.result = r) : ∃ es d, t = ⟨es, d, r⟩ :=
  ⟨t.events, t.dev, by rw [← h]⟩

/-- A value of the option that meets the property. -/
theorem exists_some {α : Type} {o : Option α} {p : α → Bool} (h : o.any p = true) : ∃ q, o = some q ∧ p q = true := by
  cases o with
  | none => cases h
  | some q => exact ⟨q, rfl, h⟩

theorem test_witness_DecodeEncodeRoundTrip :
    [Instr.brd 0xFFFF 255, .bwr 0 255, .dec 255, .enc 0, .rdreg 0xFFFF, .wrreg 0, .init, .poll, .capture, .ldx 255 0xFFFF,
      .rdx 255, .rdfb 255 31, .rdcsr 255].all Instr.wf = true := by decide

theorem test_witness_EncodeDecodeRoundTrip : decode 0x10FFFFFF = .ok (.brd 0xFFFF 255) := by decide

theorem test_witness_DecodeIsMaskAndMatch :
    (⟨0xFF00FFE0, 0x52000000⟩ : OpcodeRow) ∈ opcodeRows ∧ (0x52FF001F : Word32) &&& 0xFF00FFE0 = 0x52000000 := by decide

theorem test_witness_StepRunsDecodedInstruction : decode 0x42000000 = .ok .capture ∧
    (State.reset.withFetchWord 32 0x42000000).inputs = .command 0x42000000 :: [] ∧
    (State.reset.withFetchWord 32 0x42000000).link ≠ .stalled := by decide

theorem test_witness_IllegalCommandRaises :
    ((State.reset.withFetchWord 32 0x52000020).inputs = .command 0x52000020 :: [] ∧ State.reset.link ≠ .stalled ∧
      ∀ r ∈ opcodeRows, (0x52000020 : Word32) &&& r.mask ≠ r.pattern) ∧
    ∃ t, exec .poll State.reset = .next t := ⟨by decide, _, rfl⟩

theorem test_witness_StepsThatAcceptNoCommand : State.reset.inputs = [] ∧
    (let s := { State.reset with inputs := [.command 0], link := .stalled }
     s.inputs = .command 0 :: [] ∧ s.link = .stalled) ∧
    { State.reset with inputs := [.device (.oracle [])] }.inputs = .device (.oracle []) :: [] := by decide

theorem test_witness_ResetInputResetsTheBlock :
    { start noDevice .idle with inputs := [.reset], stat := 7 }.inputs = .reset :: [] ∧ State.reset.link = .free := by decide

theorem test_witness_StepKeepsInvariant :
    (∃ s t, State.Inv s ∧ step s = .next t ∧ (t.cfg == 0x0F81) = true) ∧
    ∃ s, State.Inv s ∧ s.row = 25 ∧ s.ctl = .capturing ∧ ∃ t, step s = .next t := by
  refine ⟨?_, { start noDevice .capturing with row := 25, link := .stalled }, by decide +kernel, rfl, rfl, _, rfl⟩
  obtain ⟨t, h, h'⟩ := exists_next (o := step (State.reset.withFetchWord 32 0x40000000)) (fun t => t.cfg == 0x0F81)
    (by decide +kernel)
  exact ⟨_, t, by decide +kernel, h, h'⟩

theorem test_witness_FieldExtractInsert : (⟨0, 16⟩ : Field).InWord ∧ (⟨15, 1⟩ : Field).InWord ∧ (⟨0, 15⟩ : Field).InWord ∧
    (⟨15, 1⟩ : Field).Disjoint ⟨0, 15⟩ ∧ (14 < 15 ∨ 15 + 1 ≤ 14) ∧ (15 < 0 ∨ 0 + 15 ≤ 15) := by decide

theorem test_witness_CfgPackUnpack : CfgLayout.default.Valid ∧
    (⟨1, 1, 1, 7, 7, 3, 1, 0xE002⟩ : CfgRecord).reserved &&& ~~~(cfgReservedMask .default) = 0 := by decide

theorem test_witness_CfgDefaultFields : Params.default.Valid := by decide

/-- A layout other than the default one is valid too. -/
theorem test_witness_StatAckClearsOneBit : StatLayout.default.Valid ∧ (⟨⟨13, 3⟩, ⟨0, 1⟩, ⟨7, 1⟩⟩ : StatLayout).Valid ∧
    15 ≠ StatLayout.default.newData.lsb := by decide

theorem test_witness_AddressesOnTheBus : 0 < 24 ∧ 23 < 24 ∧ rowAddr .default 0 = 0x0400 ∧ rowAddr .default 23 = 0x06E0 := by
  decide

theorem test_witness_LdxWritesOneWord : 31 < 32 ∧ 31 < 255 ∧ 255 < 256 ∧ (encode (.ldx 255 0xFFFF)) = 0x50FFFFFF := by decide

theorem test_witness_RdxReturnsWord : 31 < 32 ∧ 31 < 255 ∧ 255 < 256 ∧ encode (.rdx 255) = 0x51FF0000 := by decide

theorem test_witness_RdfbReturnsCell : 23 < 24 ∧ 23 < 255 ∧ 255 < 256 ∧ encode (.rdfb 255 31) = 0x52FF001F ∧
    (0x52000020 : Word32).toNat / 2 ^ 24 = 0x52 ∧ (0x52000020 : Word32).toNat / 2 ^ 5 % 2 ^ 11 ≠ 0 := by decide

theorem test_witness_RdcsrReturnsRegister : 5 < 6 ∧ csr 5 State.reset = some 0 ∧ csr 6 State.reset = none := by decide

theorem test_witness_CodecSwapsFirstWords : Instr.enc 32 ∈ [Instr.dec 32, .enc 32] ∧ 32 ≤ 32 ∧ 32 < 33 ∧ 255 < 256 := by
  decide

theorem test_witness_ZeroWordTransfersAreNoops :
    Instr.bwr 0x8000 0 ∈ [Instr.dec 0, .enc 0, .brd 0x8000 0, .bwr 0x8000 0] := by decide

theorem test_witness_BadOperandLeavesStateAlone :
    [Instr.brd 0 33, .bwr 0 33, .dec 33, .enc 33, .ldx 32 0, .rdx 32, .rdfb 24 0, .rdcsr 6].all outOfRange = true ∧
    ∃ t, exec (.rdx 32) State.reset = .next t ∧ t.rsps = State.reset.rsps ++ [⟨.badOperand, 0, 0⟩] := ⟨by decide, _, rfl, rfl⟩

theorem test_witness_BadStateOnlyBeforeInit : State.reset.ctl = .uninit ∧ Instr.poll ∈ [Instr.poll, .capture] ∧
    ∃ t, exec .capture State.reset = .next t ∧ t.rsps = State.reset.rsps ++ [⟨.badState, 0, 0⟩] :=
  ⟨rfl, by decide, _, rfl, rfl⟩

theorem test_witness_MemReadFrame : (acks 4 0).length = 4 ∧ AllAck (acks 4 0) ∧ (acks 2 5).length = 2 * 1 ∧
    (acks 64 5).length = 2 * 32 ∧ 0 < 1 ∧ 31 < 32 := by decide

theorem test_witness_MemReadRefusals : AllAck (acks 3 0) ∧ no.ack = false ∧ (acks 0 0).length < 3 ∧ (acks 2 0).length < 3 ∧
    (acks 3 0).length = 3 := by decide

theorem test_witness_MemWriteFrame : ([0x3412] : List Word) ≠ [] ∧ AllAck (acks 5 0) ∧
    (acks 5 0).length = 3 + 2 * [0x3412].length := by decide

theorem test_witness_MemWriteRefusals : ([0x3412] : List Word) ≠ [] ∧ AllAck (acks 4 0) ∧ no.ack = false ∧
    (acks 0 0).length < 3 ∧ (acks 2 0).length < 3 ∧ 1 < 2 * [0x3412].length ∧ (acks 3 0).length = 3 + 0 ∧
    (acks 4 0).length = 3 + 1 := by decide

theorem test_witness_UnansweredEventNeverEnds : AllAck (acks 5 0) ∧ AllAck (acks 4 0) ∧ (acks 5 0).length < 4 + 2 * 1 ∧
    (acks 4 0).length < 3 + 2 * [0x3412].length := by decide

theorem test_witness_BrdReadsRawWords : (32 < 33 ∧ 255 < 256 ∧ State.reset.link = .free) ∧
    (∃ es d ws, memRead .default (.oracle (acks 68 0)) 0x0400 32 = ⟨es, d, .ok ws⟩) ∧
    (∃ es d, memRead .default (.oracle []) 0x0400 0 = ⟨es, d, .ok []⟩) ∧
    (∃ es d, memRead .default noDevice 0x0400 1 = ⟨es, d, .err .noAck⟩) ∧
    ∃ es d, memRead .default (refusing 3) 0x0400 32 = ⟨es, d, .err (.shortRead 0)⟩ :=
  ⟨by decide, (exists_txn (r := .ok (List.replicate 32 0)) (by decide +kernel)).imp fun _ h => h.imp fun _ h => ⟨_, h⟩,
    ⟨_, _, rfl⟩, exists_txn (by decide +kernel), exists_txn (by decide +kernel)⟩

theorem test_witness_BwrSendsRawWords : (32 < 33 ∧ 255 < 256 ∧ State.reset.link = .free) ∧
    (∃ es d, memWrite .default (.oracle (acks 67 0)) 0x0400 (State.reset.x.toList.take 32) = ⟨es, d, .ok ()⟩) ∧
    (∃ es d, memWrite .default (refusing 2) 0x0400 (State.reset.x.toList.take 1) = ⟨es, d, .err .noAck⟩) ∧
    (∃ es d, memWrite .default (refusing 3) 0x0400 (State.reset.x.toList.take 1) = ⟨es, d, .err (.shortWrite 0)⟩) ∧
    ∃ es d, memWrite .default (refusing 66) 0x0400 (State.reset.x.toList.take 32) = ⟨es, d, .err (.shortWrite 63)⟩ :=
  ⟨by decide, exists_txn (by decide +kernel), exists_txn (by decide +kernel), exists_txn (by decide +kernel),
    exists_txn (by decide +kernel)⟩

theorem test_witness_RdregReadsValue : State.reset.link = .free ∧
    (∃ es d, memRead .default (holding [(0x1001A, 0x0F)]) 0x800D 1 = ⟨es, d, .ok [0x000F]⟩) ∧
    (∃ es d, memRead .default (refusing 2) 0x800D 1 = ⟨es, d, .err .noAck⟩) ∧
    ∃ es d, memRead .default (refusing 3) 0x800D 1 = ⟨es, d, .err (.shortRead 0)⟩ :=
  ⟨rfl, exists_txn (by decide +kernel), exists_txn (by decide +kernel), exists_txn (by decide +kernel)⟩

theorem test_witness_WrregWritesValue : State.reset.link = .free ∧
    (∃ es d, memWrite .default (holding []) 0x800D [swap16 State.reset.x[0]] = ⟨es, d, .ok ()⟩) ∧
    (∃ es d, memWrite .default noDevice 0x800D [swap16 State.reset.x[0]] = ⟨es, d, .err .noAck⟩) ∧
    (∃ es d, memWrite .default (refusing 3) 0x800D [swap16 State.reset.x[0]] = ⟨es, d, .err (.shortWrite 0)⟩) ∧
    ∃ es d, memWrite .default (refusing 4) 0x800D [swap16 State.reset.x[0]] = ⟨es, d, .err (.shortWrite 1)⟩ :=
  ⟨rfl, exists_txn (by decide +kernel), exists_txn (by decide +kernel), exists_txn (by decide +kernel),
    exists_txn (by decide +kernel)⟩

theorem test_witness_RdregIsBrdDecRdx : State.reset.link = .free ∧
    (∃ t, exec (.brd 0x800D 1) State.reset = .next t ∧ (t.rsps == [⟨.ok, 0, 0⟩]) = true) ∧
    ∃ t, exec (.brd 0x800D 1) (start (refusing 3) .idle) = .next t ∧ (t.rsps == [⟨.shortRead, 0, 0⟩]) = true :=
  ⟨rfl, exists_next _ (by decide +kernel), exists_next _ (by decide +kernel)⟩

theorem test_witness_WrregIsEncBwrDec : ∃ t, exec (.enc 1) (start (refusing 4) .idle) = .next t ∧
    ∃ u, exec (.bwr 0x800D 1) t = .next u ∧ (u.rsps == t.rsps ++ [⟨.shortWrite, 1, 0⟩]) = true ∧
      ∃ v, exec (.dec 1) u = .next v := by
  refine ⟨_, rfl, ?_⟩
  obtain ⟨u, h, h'⟩ := exists_next (o := exec (.bwr 0x800D 1) (((start (refusing 4) .idle).swapX 1).respond 0 0))
    (fun u => u.rsps == [⟨.ok, 0, 0⟩, ⟨.shortWrite, 1, 0⟩]) (by decide +kernel)
  exact ⟨u, h, h', _, rfl⟩

/-- The write of CFG_DEFAULT over this device. -/
def sentOver (d : Device) : Txn Unit := memWrite .default d 0x800D [swap16 (cfgDefault .default)]

theorem test_witness_InitConfigures : State.reset.link = .free ∧
    (∃ es₁ d₁ es₂ d₂, sentOver (holding []) = ⟨es₁, d₁, .ok ()⟩ ∧ memRead .default d₁ 0x800D 1 = ⟨es₂, d₂, .ok [0x810F]⟩) ∧
    (∃ es d, sentOver (refusing 2) = ⟨es, d, .err .noAck⟩) ∧ (∃ es d, sentOver (refusing 4) = ⟨es, d, .err (.shortWrite 1)⟩) ∧
    ∃ es₁ d₁ es₂ d₂, sentOver (refusing 8) = ⟨es₁, d₁, .ok ()⟩ ∧
      memRead .default d₁ 0x800D 1 = ⟨es₂, d₂, .err (.shortRead 0)⟩ := by
  refine ⟨rfl, ⟨(sentOver (holding [])).events, (sentOver (holding [])).dev, ?_⟩, exists_txn (by decide +kernel),
    exists_txn (by decide +kernel), (sentOver (refusing 8)).events, (sentOver (refusing 8)).dev, ?_⟩
  · obtain ⟨es, d, h⟩ := exists_txn (t := memRead .default (sentOver (holding [])).dev 0x800D 1) (r := .ok [0x810F])
      (by decide +kernel)
    exact ⟨es, d, by decide +kernel, h⟩
  · obtain ⟨es, d, h⟩ := exists_txn (t := memRead .default (sentOver (refusing 8)).dev 0x800D 1) (r := .err (.shortRead 0))
      (by decide +kernel)
    exact ⟨es, d, by decide +kernel, h⟩

/-- The read of the Status Register over this device. -/
def statusOver (d : Device) : Txn (List Word) := memRead .default d 0x8000 1

/-- New data, subpage 1, with the transmitted bytes refused as scripted. -/
def newData (refusals : List Bool) : Device := .reference ⟨true, [(0x10001, 0x09)], refusals, .none⟩

theorem test_witness_PollReportsNewData : State.reset.ctl = .uninit ∧
    ((start noDevice .configured).link = .free ∧ (start noDevice .configured).ctl ≠ .uninit) ∧
    (statNewData .default (swap16 0x0900) = 1 ∧ ∃ es₁ d₁ es₂ d₂, statusOver (newData []) = ⟨es₁, d₁, .ok [0x0900]⟩ ∧
      memWrite .default d₁ 0x8000 [swap16 (statAck .default (swap16 0x0900))] = ⟨es₂, d₂, .ok ()⟩) ∧
    (∃ es₁ d₁ es₂ d₂, statusOver (newData (List.replicate 8 false ++ [true])) = ⟨es₁, d₁, .ok [0x0900]⟩ ∧
      memWrite .default d₁ 0x8000 [swap16 (statAck .default (swap16 0x0900))] = ⟨es₂, d₂, .err (.shortWrite 1)⟩) ∧
    (statNewData .default (swap16 0x0100) ≠ 1 ∧ ∃ es d, statusOver (holding [(0x10001, 1)]) = ⟨es, d, .ok [0x0100]⟩) ∧
    ∃ es d, statusOver noDevice = ⟨es, d, .err .noAck⟩ := by
  refine ⟨rfl, by decide, ⟨by decide, (statusOver (newData [])).events, (statusOver (newData [])).dev, ?_⟩,
    ⟨(statusOver (newData (List.replicate 8 false ++ [true]))).events,
      (statusOver (newData (List.replicate 8 false ++ [true]))).dev, ?_⟩,
    ⟨by decide, exists_txn (by decide +kernel)⟩, exists_txn (by decide +kernel)⟩
  · obtain ⟨es, d, h⟩ := exists_txn (t := memWrite .default (statusOver (newData [])).dev 0x8000
      [swap16 (statAck .default (swap16 0x0900))]) (r := .ok ()) (by decide +kernel)
    exact ⟨es, d, by decide +kernel, h⟩
  · obtain ⟨es, d, h⟩ := exists_txn (t := memWrite .default
      (statusOver (newData (List.replicate 8 false ++ [true]))).dev 0x8000 [swap16 (statAck .default (swap16 0x0900))])
      (r := .err (.shortWrite 1)) (by decide +kernel)
    exact ⟨es, d, by decide +kernel, h⟩

/-- For the smallest and the largest latched subpage. -/
theorem test_witness_CaptureStoresRows : Params.default.Valid ∧ (start noDevice .configured).link = .free ∧
    (start noDevice .configured).ctl ≠ .uninit ∧
    (∃ q, readRows .default (.oracle (acks 816 0xA0)) (rowsFrom (start noDevice .idle).subpage.toNat) = some q) ∧
    ∃ q, readRows .default (.oracle (acks 612 0xA0))
      (rowsFrom { start noDevice .idle with stat := 0xFFF7 }.subpage.toNat) = some q :=
  ⟨by decide, rfl, by decide, Option.isSome_iff_exists.mp (by decide +kernel), Option.isSome_iff_exists.mp (by decide +kernel)⟩

/-- At the first row, in the middle and at the last row. -/
theorem test_witness_CaptureStopsAtFailingRow : State.reset.ctl = .uninit ∧
    (Params.default.Valid ∧ (start noDevice .configured).link = .free ∧ (start noDevice .configured).ctl ≠ .uninit) ∧
    (rowsFrom 0 = [] ++ 0 :: [2, 4, 6, 8, 10, 12, 14, 16, 18, 20, 22] ∧ ∃ q es d, readRows .default noDevice [] = some q ∧
      memRead .default q.dev (rowAddr .default 0) 32 = ⟨es, d, .err .noAck⟩) ∧
    (rowsFrom 0 = [0, 2] ++ 4 :: [6, 8, 10, 12, 14, 16, 18, 20, 22] ∧
      ∃ q, readRows .default (.oracle (acks 136 0xA0 ++ [no])) [0, 2] = some q ∧
        decide ((memRead .default q.dev (rowAddr .default 4) 32).result = .err .noAck) = true) ∧
    (rowsFrom 7 = [7, 9, 11, 13, 15, 17, 19, 21] ++ 23 :: [] ∧
      ∃ q, readRows .default (.oracle (acks 547 0xA0 ++ [no])) [7, 9, 11, 13, 15, 17, 19, 21] = some q ∧
        decide ((memRead .default q.dev (rowAddr .default 23) 32).result = .err (.shortRead 0)) = true) := by
  refine ⟨rfl, by decide, ⟨by decide, ⟨[], [], noDevice⟩, ?_⟩, ⟨by decide, exists_some (by decide +kernel)⟩, by decide,
    exists_some (by decide +kernel)⟩
  obtain ⟨es, d, h⟩ := exists_txn (t := memRead .default noDevice (rowAddr .default 0) 32) (r := .err .noAck)
    (by decide +kernel)
  exact ⟨es, d, rfl, h⟩

/-- A capture that fails after one row: both cases of the claim occur. -/
theorem test_witness_CaptureRowIsOneTransaction :
    ∃ t, exec .capture (start (.oracle (acks 68 0xA0 ++ [no])) .idle) = .next t ∧
      (t.fb[0][0] == 0xA0A0 && t.fb[2][0] == 0) = true := exists_next _ (by decide +kernel)

theorem test_witness_CaptureInterlace : Params.default.Valid ∧
    (let s := { start (.oracle (acks 68 0xA0 ++ [no])) .idle with stat := 7 }
     (0 < s.subpage.toNat ∧ 22 % 2 ≠ s.subpage.toNat % 2) ∧ ∃ t, exec .capture s = .next t ∧ (t.fb[7][0] == 0xA0A0) = true) :=
  ⟨by decide, by decide, exists_next _ (by decide +kernel)⟩

/-- Each clause's premise occurs. -/
theorem test_witness_WhoWritesWhat :
    (∃ t, exec (.ldx 31 1) State.reset = .next t ∧ (t.x[31] != State.reset.x[31]) = true) ∧
    (∃ t, exec .init State.reset = .next t ∧ (t.cfg != 0 && t.ctl != .uninit && t.bus != []) = true) ∧
    (∃ t, exec .poll (start (newData []) .configured) = .next t ∧ (t.stat != 0) = true) ∧
    ∃ t, exec .capture (start (.oracle (acks 68 0xA0 ++ [no])) .idle) = .next t ∧
      (t.row != 0 && t.fb[0][0] != 0 && t.draws != 0) = true :=
  ⟨exists_next _ (by decide +kernel), exists_next _ (by decide +kernel), exists_next _ (by decide +kernel),
    exists_next _ (by decide +kernel)⟩

theorem test_witness_ControllerTransitions :
    (∃ t, exec .init State.reset = .next t ∧ (t.rsps == [⟨.ok, 0, 0x0F81⟩]) = true) ∧
    (∃ t, exec .init (start noDevice .idle) = .next t ∧ (t.rsps == [⟨.noAck, 0, 0⟩]) = true) ∧
    (∃ t, exec .poll (start noDevice .configured) = .next t ∧ (t.rsps == [⟨.noAck, 0, 0⟩]) = true) ∧
    (∃ t, exec .capture (start noDevice .configured) = .next t ∧ (t.rsps == [⟨.noAck, 0, 0⟩]) = true) ∧
    ∃ t, exec (.rdcsr 0) State.reset = .next t ∧ (t.rsps == [⟨.ok, 0, 0⟩]) = true :=
  ⟨exists_next _ (by decide +kernel), exists_next _ (by decide +kernel), exists_next _ (by decide +kernel),
    exists_next _ (by decide +kernel), exists_next _ (by decide +kernel)⟩

theorem test_witness_ConfiguredIdleIndistinguishable : Instr.poll ≠ .rdcsr 0 ∧
    (∃ t, exec .poll { State.reset with ctl := .configured } = .next t ∧ true = true) ∧
    ∃ t, exec .poll { State.reset with ctl := .idle } = .next t ∧ true = true :=
  ⟨by decide, exists_next (fun _ => true) (by decide +kernel), exists_next (fun _ => true) (by decide +kernel)⟩

theorem test_witness_LeafCommandsIgnoreState : (Instr.brd 0 32).family = .transport ∧ (Instr.enc 33).family = .codec ∧
    (Instr.wrreg 0).family = .registerAccess ∧ (Instr.rdcsr 1).family = .hostAccess ∧ Instr.rdcsr 1 ≠ .rdcsr 0 ∧
    [Instr.brd 0 32, .enc 33, .wrreg 0, .rdcsr 0, .rdcsr 1].all (fun i => next (exec i State.reset) fun _ => true) = true ∧
    ∃ t, exec (.rdcsr 1) State.reset = .next t := ⟨rfl, rfl, rfl, rfl, by decide, by decide +kernel, _, rfl⟩

theorem test_witness_OneResponsePerCommand :
    (∃ t, exec .poll State.reset = .next t ∧ (t.rsps == [⟨.badState, 0, 0⟩]) = true) ∧
    ∃ t, exec .init (start (.oracle [])  .idle) = .next t ∧ (t.link == .stalled && t.rsps == []) = true :=
  ⟨exists_next _ (by decide +kernel), exists_next _ (by decide +kernel)⟩

theorem test_witness_ErrorsOfTheTable :
    ∃ t, exec .poll (start (newData [false, false, false, false, false, false, false, true]) .idle) = .next t ∧
      (t.rsps == [⟨.shortWrite, 1, 0⟩]) = true := exists_next _ (by decide +kernel)

theorem test_witness_NoFailureIsHidden :
    (∃ t, exec (.brd 0 1) (start (refusing 3) .idle) = .next t ∧ (t.rsps == [⟨.shortRead, 0, 0⟩]) = true) ∧
    ∃ t, exec (.brd 0 1) State.reset = .next t ∧ (t.rsps == [⟨.ok, 0, 0⟩]) = true :=
  ⟨exists_next _ (by decide +kernel), exists_next _ (by decide +kernel)⟩

theorem test_witness_BusTransactionsComplete : State.reset.link = .free ∧
    (∃ t, exec .init State.reset = .next t ∧ (t.link == .free) = true) ∧
    ∃ t, exec .init (start (.oracle (acks 6 0)) .idle) = .next t ∧ (t.link == .stalled) = true :=
  ⟨rfl, exists_next _ (by decide +kernel), exists_next _ (by decide +kernel)⟩

theorem test_witness_CommandsRunOnFreeBus : State.reset.link = .free ∧ usesBus (.rdx 0) = false ∧
    (0 < 1 ∧ 1 ≤ 32) ∧ (0 < 32 ∧ 32 ≤ 32) ∧
    (let s := { start noDevice .configured with link := .cut }
     s.link ≠ .free ∧ s.ctl ≠ .uninit ∧ s.params.Valid) ∧ { State.reset with link := .stalled }.link ≠ .free := by decide

theorem test_witness_UnansweredCommandHangs : (start (.oracle (acks 3 0)) .configured).link = .free ∧
    Params.default.Valid ∧ (start (.oracle (acks 3 0)) .configured).ctl ≠ .uninit ∧
    (∃ es d, memRead .default (.oracle (acks 67 0)) 0 32 = ⟨es, d, .unanswered⟩) ∧
    (∃ es d, memWrite .default (.oracle (acks 66 0)) 0 (State.reset.x.toList.take 32) = ⟨es, d, .unanswered⟩) ∧
    (∃ es d, memRead .default (.oracle []) 0x8000 1 = ⟨es, d, .unanswered⟩) ∧
    (∃ es d, memWrite .default (.oracle (acks 4 0)) 0 [swap16 State.reset.x[0]] = ⟨es, d, .unanswered⟩) ∧
    ∃ es d, sentOver (.oracle (acks 4 0)) = ⟨es, d, .unanswered⟩ :=
  ⟨rfl, by decide, by decide, exists_txn (by decide +kernel), exists_txn (by decide +kernel), exists_txn (by decide +kernel),
    exists_txn (by decide +kernel), exists_txn (by decide +kernel)⟩

/-- The hang of INIT in its read-back and of POLL in its write-back. -/
theorem test_witness_UnansweredCommandHangs_second :
    (∃ es₁ d₁ es₂ d₂, sentOver (.oracle (acks 8 0)) = ⟨es₁, d₁, .ok ()⟩ ∧
      memRead .default d₁ 0x800D 1 = ⟨es₂, d₂, .unanswered⟩) ∧
    statNewData .default (swap16 0x0808) = 1 ∧
    ∃ es₁ d₁ es₂ d₂, statusOver (.oracle (acks 10 8)) = ⟨es₁, d₁, .ok [0x0808]⟩ ∧
      memWrite .default d₁ 0x8000 [swap16 (statAck .default (swap16 0x0808))] = ⟨es₂, d₂, .unanswered⟩ := by
  refine ⟨⟨(sentOver (.oracle (acks 8 0))).events, (sentOver (.oracle (acks 8 0))).dev, ?_⟩, by decide,
    (statusOver (.oracle (acks 10 8))).events, (statusOver (.oracle (acks 10 8))).dev, ?_⟩
  · obtain ⟨es, d, h⟩ := exists_txn (t := memRead .default (sentOver (.oracle (acks 8 0))).dev 0x800D 1) (r := .unanswered)
      (by decide +kernel)
    exact ⟨es, d, by decide +kernel, h⟩
  · obtain ⟨es, d, h⟩ := exists_txn (t := memWrite .default (statusOver (.oracle (acks 10 8))).dev 0x8000
      [swap16 (statAck .default (swap16 0x0808))]) (r := .unanswered) (by decide +kernel)
    exact ⟨es, d, by decide +kernel, h⟩

/-- The hang of CAPTURE at its first row, and at its last for the latched subpage 7. -/
theorem test_witness_UnansweredCommandHangs_rows :
    (rowsFrom State.reset.subpage.toNat = [] ++ 0 :: [2, 4, 6, 8, 10, 12, 14, 16, 18, 20, 22] ∧
      ∃ q, readRows .default (.oracle (acks 3 0)) [] = some q ∧
        decide ((memRead .default q.dev (rowAddr .default 0) 32).result = .unanswered) = true) ∧
    (rowsFrom { State.reset with stat := 7 }.subpage.toNat = [7, 9, 11, 13, 15, 17, 19, 21] ++ 23 :: [] ∧
      ∃ q, readRows .default (.oracle (acks 611 0xA0)) [7, 9, 11, 13, 15, 17, 19, 21] = some q ∧
        decide ((memRead .default q.dev (rowAddr .default 23) 32).result = .unanswered) = true) :=
  ⟨⟨by decide, exists_some (by decide +kernel)⟩, by decide, exists_some (by decide +kernel)⟩

theorem test_witness_ReferenceDeviceReads : RefDevice.blank.present = true ∧ RefDevice.blank.refusals = [] ∧ 31 < 32 := by
  decide

theorem test_witness_ReferenceDeviceStores : RefDevice.blank.present = true ∧ RefDevice.blank.refusals = [] ∧
    (List.replicate 32 (0 : Word)).length ≤ 32 ∧ 31 < (List.replicate 32 (0 : Word)).length ∧
    0 ∉ cellsOf 0xFFFF 1 ∧ 0 ∈ cellsOf 0xFFFF 2 := by decide

theorem test_witness_ReferenceMemoryFrame : State.reset.dev = .reference .blank ∧
    0x1001C ∉ storedCells (.wrreg 0x800D) .default ∧ 0x1001B ∈ storedCells (.wrreg 0x800D) .default ∧
    (∃ t, exec (.wrreg 0x800D) State.reset = .next t ∧ true = true) ∧ Instr.wrreg 0x800D ≠ .init ∧
    ∃ t, exec (.wrreg 0x800D) (start (refusing 4) .uninit) = .next t ∧ (t.rsps == [⟨.shortWrite, 1, 0⟩]) = true :=
  ⟨rfl, by decide, by decide, exists_next (fun _ => true) (by decide +kernel), by decide, exists_next _ (by decide +kernel)⟩

theorem test_witness_RegisterWriteThenRead : State.reset.link = .free ∧ State.reset.dev = .reference .blank ∧
    RefDevice.blank.present = true ∧ RefDevice.blank.refusals = [] := by decide

theorem test_witness_AcknowledgeExactlyOnce : (start (newData []) .configured).params.Valid ∧
    (start (newData []) .configured).link = .free ∧ (start (newData []) .configured).ctl ≠ .uninit ∧
    (start (newData []) .configured).dev = .reference ⟨true, [(0x10001, 0x09)], [], .none⟩ ∧
    statNewData .default (loadWord [(0x10001, 0x09)] 0x8000) = 1 := by decide

theorem test_witness_BusCommandsCompleteOverReferenceDevice : (start (holding []) .configured).params.Valid ∧
    (start (holding []) .configured).link = .free ∧ (start (holding []) .configured).dev = .reference .blank ∧ 0 ≤ 32 ∧
    32 ≤ 32 ∧ (start (holding []) .configured).ctl ≠ .uninit := by decide

end Sys2Proof.Tests
end

section
/-! PROOFS. RDCSR and the register index table (10_state.md R38, 44_host_access.md R203). -/

namespace Sys2Proof.Machine

/-- The index table ends at 5 (10_state.md R38). -/
theorem csr_eq_none {i : Nat} (s : State) (h : 5 < i) : csr i s = none := by
  unfold csr
  split
  case h_7 => rfl
  all_goals omega

/-- `RDCSR` of an index in the table: one OK response with the register, and nothing else written. -/
theorem exec_rdcsr_of_csr_some {i : Nat} {s : State} {v : Word} (h : csr i s = some v) :
    exec (.rdcsr i) s = .next (s.respond 0 v) := by
  simp only [exec, execRdcsr, h]

/-- `RDCSR` of an index outside the table: BAD_OPERAND, and nothing else written. -/
theorem exec_rdcsr_of_csr_none {i : Nat} {s : State} (h : csr i s = none) :
    exec (.rdcsr i) s = .next (s.raise .badOperand 0) := by
  simp only [exec, execRdcsr, h]

/-- Settles O22, row by row of the index table. -/
theorem rdcsrReturnsRegister : Obligations.RdcsrReturnsRegister := by
  intro s
  refine ⟨?state, ?cfg, ?stat, ?subpage, ?row, ?elapsed, ?outside⟩
  case state =>
    refine exec_rdcsr_of_csr_some (show csr 0 s = some _ from ?_)
    cases h : s.ctl <;> simp [csr, Ctl.code, h]
  case cfg => exact exec_rdcsr_of_csr_some rfl
  case stat => exact exec_rdcsr_of_csr_some rfl
  case subpage => exact exec_rdcsr_of_csr_some rfl
  case row => exact exec_rdcsr_of_csr_some (congrArg some (BitVec.ofNat_toNat 16 s.row).symm)
  case elapsed => exact exec_rdcsr_of_csr_some rfl
  case outside => exact fun _ hi => exec_rdcsr_of_csr_none (csr_eq_none s hi)

end Sys2Proof.Machine
end

section
/-! PROOFS. BRD, BWR and transfers of zero words (40_bus_transport.md R125 to R127, 41_register_codec.md R145). -/

namespace Sys2Proof.Machine

/-! ### BRD and BWR, by how their access ended -/

/-- A count above 32 is refused before the bus is touched (60_exceptions.md R224). -/
theorem exec_brd_badOperand {addr : Word} {n : Nat} (s : State) (h : 32 < n) :
    exec (.brd addr n) s = .next (s.raise .badOperand 0) := by
  rw [exec, execBrd, if_neg (Nat.not_le.mpr h)]

/-- `BRD` after a read that succeeded: the words go into X, from `X[0]` (40_bus_transport.md R126). -/
theorem exec_brd_of_busRead_ok {addr : Word} {n : Nat} {s s' : State} {ws : List Word} (hn : n ≤ 32)
    (h : busRead addr n s = .ok ws s') : exec (.brd addr n) s = .next ((s'.fillX ws).respond 0 0) := by
  rw [exec, execBrd, if_pos hn, h, Access.andThen]

/-- `BRD` after a read that failed: the error is the response, X stays (40_bus_transport.md R126). -/
theorem exec_brd_of_busRead_err {addr : Word} {n : Nat} {s s' : State} {e : BusErr} (hn : n ≤ 32)
    (h : busRead addr n s = .err e s') : exec (.brd addr n) s = .next (s'.raise e.code e.count) := by
  rw [exec, execBrd, if_pos hn, h, Access.andThen]

/-- A count above 32 is refused before the bus is touched (60_exceptions.md R224). -/
theorem exec_bwr_badOperand {addr : Word} {n : Nat} (s : State) (h : 32 < n) :
    exec (.bwr addr n) s = .next (s.raise .badOperand 0) := by
  rw [exec, execBwr, if_neg (Nat.not_le.mpr h)]

/-- `BWR` after a write that succeeded (40_bus_transport.md R127). -/
theorem exec_bwr_of_busWrite_ok {addr : Word} {n : Nat} {s s' : State} (hn : n ≤ 32)
    (h : busWrite addr (s.firstX n) s = .ok () s') : exec (.bwr addr n) s = .next (s'.respond 0 0) := by
  rw [exec, execBwr, if_pos hn, h, Access.andThen]

/-- `BWR` after a write that failed: the response carries the count of acknowledged bytes (40_bus_transport.md R127). -/
theorem exec_bwr_of_busWrite_err {addr : Word} {n : Nat} {s s' : State} {e : BusErr} (hn : n ≤ 32)
    (h : busWrite addr (s.firstX n) s = .err e s') : exec (.bwr addr n) s = .next (s'.raise e.code e.count) := by
  rw [exec, execBwr, if_pos hn, h, Access.andThen]

/-! ### DEC and ENC of a count in range (41_register_codec.md R143, R144) -/

theorem exec_dec_inRange {n : Nat} (s : State) (h : n ≤ 32) : exec (.dec n) s = .next ((s.swapX n).respond 0 0) := by
  rw [exec, execDec, if_pos h]

theorem exec_enc_inRange {n : Nat} (s : State) (h : n ≤ 32) : exec (.enc n) s = .next ((s.swapX n).respond 0 0) := by
  rw [exec, execEnc, if_pos h]

/-! ### The access of a given transaction -/

theorem busRead_of_memRead {addr : Word} {n : Nat} {s : State} {q : Txn (List Word)} (hl : s.link = .free)
    (h : memRead s.params s.dev addr n = q) : busRead addr n s = .ofTxn q s := by
  rw [busRead_free hl, h]

theorem busWrite_of_memWrite {addr : Word} {ws : List Word} {s : State} {q : Txn Unit} (hl : s.link = .free)
    (h : memWrite s.params s.dev addr ws = q) : busWrite addr ws s = .ofTxn q s := by
  rw [busWrite_free hl, h]

/-! ### The words moved -/

/-- X filled from `n` words: `X[0..n-1]` are the words, the others stay (40_bus_transport.md R126). -/
theorem fillBuffer_eq_ofFn_of_length (x : Vector Word 32) {ws : List Word} {n : Nat} (h : ws.length = n) :
    fillBuffer x ws = Vector.ofFn fun i : Fin 32 => if i.val < n then ws.getD i.val 0 else x[i] := by
  subst h
  ext1 i hi
  by_cases hw : i < ws.length <;> simp [hw]

theorem firstX_length {s : State} {n : Nat} (h : n ≤ 32) : (s.firstX n).length = n := by
  simp [State.firstX, h]

@[simp] theorem firstX_zero (s : State) : s.firstX 0 = [] := rfl

@[simp] theorem fillX_nil (s : State) : s.fillX [] = s := by simp [State.fillX]

@[simp] theorem swapX_zero (s : State) : s.swapX 0 = s := by simp [State.swapX]

/-! ### The obligations -/

/-- Settles O32, by the three ways a `BRD` answers: its count is out of range, its read succeeds, its read fails. -/
theorem brdReadsRawWords : Obligations.BrdReadsRawWords := by
  intro addr n s es d
  refine ⟨exec_brd_badOperand s, fun hn hl => ⟨fun ws hr => ?ok, fun e hr => ?err⟩, encode_toNat (.brd addr n)⟩
  case ok =>
    have hlen : ws.length = n := memRead_length (congrArg Txn.result hr)
    refine ⟨hlen, ?_⟩
    rw [exec_brd_of_busRead_ok hn (busRead_of_memRead hl hr), ← fillBuffer_eq_ofFn_of_length s.x hlen]
    rfl
  case err =>
    have he : e = .noAck ∨ e = .shortRead 0 := memRead_err (congrArg Txn.result hr)
    have hcount : e.count = 0 := by rcases he with rfl | rfl <;> rfl
    refine ⟨he, ?_⟩
    rw [exec_brd_of_busRead_err hn (busRead_of_memRead hl hr), hcount]
    rfl

/-- Settles O33, by the ways a `BWR` answers: its count is out of range, its write succeeds, its write fails. That a
failing write ends with NO_ACK, or with SHORT_WRITE below `2n`, is `memWrite_err`. -/
theorem bwrSendsRawWords : Obligations.BwrSendsRawWords := by
  intro addr n s es d
  refine ⟨exec_bwr_badOperand s, fun hn hl => ⟨fun hw => ?ok, fun hw => ?noAck, fun k hw => ⟨?count, ?shortWrite⟩,
    fun k hw => ?shortRead⟩, encode_toNat (.bwr addr n)⟩
  case ok => exact exec_bwr_of_busWrite_ok hn (busWrite_of_memWrite hl hw)
  case noAck => exact exec_bwr_of_busWrite_err hn (busWrite_of_memWrite hl hw)
  case count =>
    rcases memWrite_err (congrArg Txn.result hw) with h | ⟨j, hj, h⟩ <;> cases h
    exact firstX_length (s := s) hn ▸ hj
  case shortWrite => exact exec_bwr_of_busWrite_err hn (busWrite_of_memWrite hl hw)
  case shortRead =>
    rcases memWrite_err (congrArg Txn.result hw) with h | ⟨j, _, h⟩ <;> cases h

/-- Settles O24, transaction by transaction and command by command: an access of zero words needs no bus, and a fill or
a swap of zero words leaves X. -/
theorem zeroWordTransfersAreNoops : Obligations.ZeroWordTransfersAreNoops := by
  refine ⟨fun p d addr => ⟨memRead_zero p d addr, memWrite_nil p d addr⟩, fun s addr i hi => ?_⟩
  simp only [List.mem_cons, List.not_mem_nil, or_false] at hi
  rcases hi with rfl | rfl | rfl | rfl
  · rw [exec_dec_inRange s (Nat.zero_le 32), swapX_zero]; rfl
  · rw [exec_enc_inRange s (Nat.zero_le 32), swapX_zero]; rfl
  · rw [exec_brd_of_busRead_ok (Nat.zero_le 32) (busRead_zero addr s), fillX_nil]; rfl
  · exact exec_bwr_of_busWrite_ok (Nat.zero_le 32) (busWrite_nil addr s)

end Sys2Proof.Machine
end

section
/-! PROOFS. DEC, ENC and the field functions on packed registers (41_register_codec.md R143, R144, R146, R147, R149). -/

namespace Sys2Proof.Machine

/-! ### Fields of packed registers, as numbers (41_register_codec.md R146, R147) -/

/-- The value of an extracted field: the word's bits from `lsb` on, cut to the field's width. -/
theorem getField_toNat (w : Word) (f : Field) : (getField w f).toNat = w.toNat / 2 ^ f.lsb % 2 ^ f.width := by
  refine Nat.eq_of_testBit_eq fun j => ?_
  rw [BitVec.testBit_toNat, getField_getLsbD, Nat.testBit_mod_two_pow, Nat.testBit_div_two_pow, BitVec.testBit_toNat,
    Nat.add_comm]

/-- A value too wide for its field is cut to the field's width. -/
theorem getField_setField_same_toNat (w v : Word) {f : Field} (hf : f.InWord) :
    (getField (setField w f v) f).toNat = v.toNat % 2 ^ f.width := by
  refine Nat.eq_of_testBit_eq fun j => ?_
  rw [BitVec.testBit_toNat, getField_setField_same w v f hf, Nat.testBit_mod_two_pow, BitVec.testBit_toNat]

theorem setField_getLsbD_outside (w v : Word) {f : Field} {i : Nat} (h : i < f.lsb ∨ f.lsb + f.width ≤ i) :
    (setField w f v).getLsbD i = w.getLsbD i := by
  rw [setField_getLsbD, if_neg (by omega)]

theorem setField_zero (w : Word) (f : Field) : setField w f 0 = w &&& ~~~(maskOf f) := by simp [setField]

/-! ### The Status Register (41_register_codec.md R149) -/

/-- The widths of a valid layout (10_state.md R34). -/
theorem statLayout_widths {l : StatLayout} (h : l.Valid) :
    l.subpage.width = 3 ∧ l.newData.width = 1 ∧ l.endOverwrite.width = 1 := by
  obtain ⟨hwidths, _, _⟩ := h
  simpa [StatLayout.fields] using hwidths

theorem statNewData_statAck {l : StatLayout} (h : l.Valid) (w : Word) : statNewData l (statAck l w) = 0 := by
  obtain ⟨_, hinWord, _⟩ := h
  apply BitVec.eq_of_toNat_eq
  rw [statNewData, statAck, getField_setField_same_toNat w 0 (hinWord _ (by simp [StatLayout.fields]))]
  exact Nat.zero_mod _

/-- The acknowledge leaves every bit but the has-new-data bit, which is the one bit of its field. -/
theorem statAck_getLsbD_of_ne {l : StatLayout} (h : l.Valid) (w : Word) {i : Nat} (hi : i ≠ l.newData.lsb) :
    (statAck l w).getLsbD i = w.getLsbD i := by
  obtain ⟨_, hnewData, _⟩ := statLayout_widths h
  exact setField_getLsbD_outside w 0 (by omega)

theorem statAck_default (w : Word) : statAck .default w = w &&& 0xFFF7 := by
  have hmask : ~~~(maskOf StatLayout.default.newData) = 0xFFF7 := by decide
  rw [statAck, setField_zero, hmask]

/-! ### DEC and ENC of any count -/

/-- "`ENC n` has exactly the effect of `DEC n`" (41_register_codec.md R144). -/
theorem exec_enc_eq_exec_dec (n : Nat) (s : State) : exec (.enc n) s = exec (.dec n) s := rfl

/-- A count above 32 is refused and X stays (41_register_codec.md R143). -/
theorem exec_dec_badOperand {n : Nat} (s : State) (h : 32 < n) : exec (.dec n) s = .next (s.raise .badOperand 0) := by
  rw [exec, execDec, if_neg (Nat.not_le.mpr h)]

/-! ### The obligations -/

/-- Settles O14: the values bit by bit, and the two frame facts of an insert. -/
theorem fieldExtractInsert : Obligations.FieldExtractInsert := fun w v f hf =>
  ⟨getField_toNat w f, getField_setField_same_toNat w v hf, fun _ => setField_getLsbD_outside w v,
    fun g _ => getField_setField_other w v f g⟩

/-- Settles O17: each field is its extract at the width of a valid layout, and the acknowledge is an insert of 0 into a
field of one bit. -/
theorem statAckClearsOneBit : Obligations.StatAckClearsOneBit := by
  refine ⟨fun l w h => ?fields, statAck_default, by decide, by decide⟩
  obtain ⟨hsubpage, hnewData, hendOverwrite⟩ := statLayout_widths h
  refine ⟨?subpage, ?newData, ?endOverwrite, statNewData_statAck h w, fun _ => statAck_getLsbD_of_ne h w⟩
  case subpage => rw [statSubpage, getField_toNat, hsubpage]; rfl
  case newData => rw [statNewData, getField_toNat, hnewData]; rfl
  case endOverwrite => rw [statEndOverwrite, getField_toNat, hendOverwrite]; rfl

/-- Settles O23: ENC acts as DEC does, so the effect is argued once, by whether the count is in range; the two differ in
the opcode of their words. -/
theorem codecSwapsFirstWords : Obligations.CodecSwapsFirstWords := by
  intro n s i hi
  replace hi : i = .dec n ∨ i = .enc n := by simpa using hi
  have hexec : exec i s = exec (.dec n) s := by
    rcases hi with rfl | rfl
    · rfl
    · exact exec_enc_eq_exec_dec n s
  refine ⟨fun hn => ?inRange, fun hn => ?badOperand, fun hn => ?word⟩
  case inRange =>
    rw [hexec, exec_dec_inRange s hn, ← swapBuffer_eq_ofFn]
    rfl
  case badOperand =>
    rw [hexec]
    exact exec_dec_badOperand s hn
  case word =>
    rcases hi with rfl | rfl
    · simpa [opcodeOf, aOperandOf, immOperandOf] using encode_toNat (.dec n) hn
    · simpa [opcodeOf, aOperandOf, immOperandOf] using encode_toNat (.enc n) hn

end Sys2Proof.Machine
end

section
/-! PROOFS. RDREG and WRREG (42_register_access.md R160 to R163). -/

namespace Sys2Proof.Machine

/-! ### RDREG and WRREG, by how their register access ended -/

/-- `RDREG` after a register read that succeeded: the value goes into `X[0]` and into the response
(42_register_access.md R162). -/
theorem exec_rdreg_of_regRead_ok {addr v : Word} {s s' : State} (h : regRead addr s = .ok v s') :
    exec (.rdreg addr) s = .next ((s'.putX 0 (by decide) v).respond 0 v) := by
  rw [exec, execRdreg, h, Access.andThen]

/-- `RDREG` after a register read that failed: the error is the response, X stays (42_register_access.md R162). -/
theorem exec_rdreg_of_regRead_err {addr : Word} {s s' : State} {e : BusErr} (h : regRead addr s = .err e s') :
    exec (.rdreg addr) s = .next (s'.raise e.code 0) := by
  rw [exec, execRdreg, h, Access.andThen]

/-- `WRREG` after a register write that succeeded (42_register_access.md R163). -/
theorem exec_wrreg_of_regWrite_ok {addr : Word} {s s' : State} (h : regWrite addr s.x[0] s = .ok () s') :
    exec (.wrreg addr) s = .next (s'.respond 0 0) := by
  rw [exec, execWrreg, h, Access.andThen]

/-- `WRREG` after a register write that failed: the response carries the count of acknowledged bytes
(42_register_access.md R163). -/
theorem exec_wrreg_of_regWrite_err {addr : Word} {s s' : State} {e : BusErr}
    (h : regWrite addr s.x[0] s = .err e s') : exec (.wrreg addr) s = .next (s'.raise e.code e.count) := by
  rw [exec, execWrreg, h, Access.andThen]

/-! ### The register access of a given transaction -/

theorem regRead_of_memRead_ok {addr w : Word} {s : State} {es : List BusEvent} {d : Device} (hl : s.link = .free)
    (h : memRead s.params s.dev addr 1 = ⟨es, d, .ok [w]⟩) :
    regRead addr s = .ok (swap16 w) { s with bus := s.bus ++ es, dev := d } := by
  rw [regRead_free_ok hl (congrArg Txn.result h), h, State.afterTxn]

theorem regRead_of_memRead_err {addr : Word} {s : State} {es : List BusEvent} {d : Device} {e : BusErr}
    (hl : s.link = .free) (h : memRead s.params s.dev addr 1 = ⟨es, d, .err e⟩) :
    regRead addr s = .err e { s with bus := s.bus ++ es, dev := d } := by
  rw [regRead_free_err hl (congrArg Txn.result h), h, State.afterTxn]

theorem regWrite_of_memWrite {addr v : Word} {s : State} {q : Txn Unit} (hl : s.link = .free)
    (h : memWrite s.params s.dev addr [swap16 v] = q) : regWrite addr v s = .ofTxn q s := by
  rw [regWrite_free hl, h]

/-! ### The words of commands without an `a` operand (30_encoding.md R94) -/

/-- The word of an instruction whose operand `a` is 0 is its opcode and its `imm`. -/
theorem encode_toNat_of_aOperand_zero {i : Instr} (h : aOperandOf i = 0) :
    (encode i).toNat = (opcodeOf i).toNat * 2 ^ 24 + (immOperandOf i).toNat := by
  rw [encode_toNat i (by omega), h, Nat.zero_mul, Nat.add_zero]

/-! ### The obligations -/

/-- Settles O34, by the two ways an answered `RDREG` ends: its read succeeds, its read fails. -/
theorem rdregReadsValue : Obligations.RdregReadsValue := by
  intro addr s es d hl
  refine ⟨fun w hr => ?ok, fun e hr => ⟨?errors, ?err⟩, encode_toNat_of_aOperand_zero (i := .rdreg addr) rfl⟩
  case ok => exact exec_rdreg_of_regRead_ok (regRead_of_memRead_ok hl hr)
  case errors => exact memRead_err (congrArg Txn.result hr)
  case err => exact exec_rdreg_of_regRead_err (regRead_of_memRead_err hl hr)

/-- Settles O35, by the ways an answered `WRREG` ends. One word is two bytes, so `memWrite_err` leaves a count below 2. -/
theorem wrregWritesValue : Obligations.WrregWritesValue := by
  intro addr s es d hl
  refine ⟨fun hw => ?ok, fun hw => ?noAck, fun k hw => ⟨?count, ?shortWrite⟩,
    encode_toNat_of_aOperand_zero (i := .wrreg addr) rfl⟩
  case ok => exact exec_wrreg_of_regWrite_ok (regWrite_of_memWrite hl hw)
  case noAck => exact exec_wrreg_of_regWrite_err (regWrite_of_memWrite hl hw)
  case count =>
    rcases memWrite_err (congrArg Txn.result hw) with h | ⟨j, hj, h⟩ <;> cases h
    exact hj
  case shortWrite => exact exec_wrreg_of_regWrite_err (regWrite_of_memWrite hl hw)

end Sys2Proof.Machine
end

section
/-! PROOFS. INIT and POLL (43_sensor_controller.md R171, R173, R178, R179). -/

namespace Sys2Proof.Machine

/-! ### INIT, by how its two register accesses ended -/

/-- `INIT` as its two accesses in order, from the state with CFG_DEFAULT and UNINIT in place (43_sensor_controller.md
R171). -/
theorem exec_init_eq_andThen (s : State) :
    exec .init s = (regWrite s.params.addrConfig (cfgDefault s.params) s.initStart).andThen
      (fun _ s => (regRead s.params.addrConfig s).andThen
        (fun v s => .next ({ s with cfg := v, ctl := .configured }.respond 0 v))
        (fun e s => .next (s.raise e.code 1)))
      (fun e s => .next (s.raise e.code 0)) := rfl

/-- `INIT` after a write and a read-back that succeeded: CFG holds the word read, whatever it is
(43_sensor_controller.md R173). -/
theorem exec_init_of_regRead_ok {s s₁ s₂ : State} {v : Word}
    (hw : regWrite s.params.addrConfig (cfgDefault s.params) s.initStart = .ok () s₁)
    (hr : regRead s₁.params.addrConfig s₁ = .ok v s₂) :
    exec .init s = .next ({ s₂ with cfg := v, ctl := .configured }.respond 0 v) := by
  rw [exec_init_eq_andThen, hw, Access.andThen, hr, Access.andThen]

/-- `INIT` after a write that failed: the error carries the index 0 (43_sensor_controller.md R173). -/
theorem exec_init_of_regWrite_err {s s₁ : State} {e : BusErr}
    (hw : regWrite s.params.addrConfig (cfgDefault s.params) s.initStart = .err e s₁) :
    exec .init s = .next (s₁.raise e.code 0) := by
  rw [exec_init_eq_andThen, hw, Access.andThen]

/-- `INIT` after a read-back that failed: the error carries the index 1 (43_sensor_controller.md R173). -/
theorem exec_init_of_regRead_err {s s₁ s₂ : State} {e : BusErr}
    (hw : regWrite s.params.addrConfig (cfgDefault s.params) s.initStart = .ok () s₁)
    (hr : regRead s₁.params.addrConfig s₁ = .err e s₂) : exec .init s = .next (s₂.raise e.code 1) := by
  rw [exec_init_eq_andThen, hw, Access.andThen, hr, Access.andThen]

/-! ### POLL, by STATE and by how its register accesses ended -/

/-- In UNINIT a `POLL` is refused before the bus is touched (60_exceptions.md R225). -/
theorem exec_poll_of_uninit {s : State} (h : s.ctl = .uninit) : exec .poll s = .next (s.raise .badState 0) := by
  rw [exec, execPoll, if_pos h]

theorem exec_poll_of_ne_uninit {s : State} (h : s.ctl ≠ .uninit) : exec .poll s = pollStatus s := by
  rw [exec, execPoll, if_neg h]

/-- `POLL` after a read that failed: STAT and STATE stay (43_sensor_controller.md R179). -/
theorem pollStatus_of_regRead_err {s s₁ : State} {e : BusErr} (hr : regRead s.params.addrStatus s = .err e s₁) :
    pollStatus s = .next (s₁.raise e.code 0) := by
  rw [pollStatus, hr, Access.andThen]

/-- `POLL` without new data: the word read is latched, and nothing is written back (43_sensor_controller.md R178). -/
theorem pollStatus_of_no_newData {s s₁ : State} {v : Word} (hr : regRead s.params.addrStatus s = .ok v s₁)
    (hv : statNewData s₁.params.statLayout v ≠ 1) :
    pollStatus s = .next ({ s₁.withStat v with ctl := .idle }.respond 0 v) := by
  rw [pollStatus, hr, Access.andThen, if_neg hv]
  rfl

/-- `POLL` with new data goes on with the write-back of the acknowledged word, which STAT already holds
(43_sensor_controller.md R178). -/
theorem pollStatus_of_newData {s s₁ : State} {v a : Word} (hr : regRead s.params.addrStatus s = .ok v s₁)
    (hv : statNewData s₁.params.statLayout v = 1) (ha : a = statAck s₁.params.statLayout v) :
    pollStatus s = (regWrite s₁.params.addrStatus a (s₁.withStat a)).andThen
      (fun _ s => .next ({ s with ctl := .idle }.respond 1 s.stat))
      (fun e s => .next (s.raise e.code 1)) := by
  rw [pollStatus, hr, Access.andThen, if_pos hv, ha]
  rfl

/-- `POLL` after a write-back that succeeded (43_sensor_controller.md R178). -/
theorem pollStatus_of_regWrite_ok {s s₁ s₂ : State} {v a : Word} (hr : regRead s.params.addrStatus s = .ok v s₁)
    (hv : statNewData s₁.params.statLayout v = 1) (ha : a = statAck s₁.params.statLayout v)
    (hw : regWrite s₁.params.addrStatus a (s₁.withStat a) = .ok () s₂) :
    pollStatus s = .next ({ s₂ with ctl := .idle }.respond 1 s₂.stat) := by
  rw [pollStatus_of_newData hr hv ha, hw, Access.andThen]

/-- `POLL` after a write-back that failed: the flag is cleared in STAT only, STATE stays (43_sensor_controller.md R179). -/
theorem pollStatus_of_regWrite_err {s s₁ s₂ : State} {v a : Word} {e : BusErr}
    (hr : regRead s.params.addrStatus s = .ok v s₁) (hv : statNewData s₁.params.statLayout v = 1)
    (ha : a = statAck s₁.params.statLayout v) (hw : regWrite s₁.params.addrStatus a (s₁.withStat a) = .err e s₂) :
    pollStatus s = .next (s₂.raise e.code 1) := by
  rw [pollStatus_of_newData hr hv ha, hw, Access.andThen]

/-! ### The write of one word -/

/-- The write-back of a `POLL`: the word sent is the one that STAT now holds (43_sensor_controller.md R178). -/
theorem regWrite_withStat_of_memWrite {addr a : Word} {s : State} {q : Txn Unit} (hl : s.link = .free)
    (h : memWrite s.params s.dev addr [swap16 a] = q) : regWrite addr a (s.withStat a) = .ofTxn q (s.withStat a) :=
  regWrite_of_memWrite (s := s.withStat a) hl h

/-- One word is two bytes: a refused data byte leaves a count of 0 or 1 (40_bus_transport.md R124). -/
theorem memWrite_singleton_err {p : Params} {d : Device} {addr w : Word} {e : BusErr}
    (h : (memWrite p d addr [w]).result = .err e) : e = .noAck ∨ e = .shortWrite 0 ∨ e = .shortWrite 1 := by
  rcases memWrite_err h with rfl | ⟨k, hk, rfl⟩
  · exact .inl rfl
  · rw [List.length_singleton] at hk
    have hk' : k = 0 ∨ k = 1 := by omega
    rcases hk' with rfl | rfl <;> simp

/-! ### The obligations -/

/-- Settles O38, by the ways an answered `INIT` ends: both transactions succeed, the write fails, the read-back fails. -/
theorem initConfigures : Obligations.InitConfigures := by
  intro s es₁ es₂ d₁ d₂ hl
  refine ⟨fun w hw hr => ?ok, fun e hw => ⟨memWrite_singleton_err (congrArg Txn.result hw), ?writeErr⟩,
    fun e hw hr => ⟨memRead_err (congrArg Txn.result hr), ?readErr⟩, encode_toNat_of_aOperand_zero (i := .init) rfl⟩
  case ok =>
    exact exec_init_of_regRead_ok (regWrite_of_memWrite (s := s.initStart) hl hw) (regRead_of_memRead_ok hl hr)
  case writeErr => exact exec_init_of_regWrite_err (regWrite_of_memWrite (s := s.initStart) hl hw)
  case readErr =>
    exact exec_init_of_regRead_err (regWrite_of_memWrite (s := s.initStart) hl hw) (regRead_of_memRead_err hl hr)

/-- Settles O39, by STATE, by how the read of the Status Register ends, by the flag of the word read and by how its
write-back ends. -/
theorem pollReportsNewData : Obligations.PollReportsNewData := by
  intro s es₁ es₂ d₁ d₂
  refine ⟨exec_poll_of_uninit, fun hl hc => ?_, encode_toNat_of_aOperand_zero (i := .poll) rfl⟩
  rw [exec_poll_of_ne_uninit hc]
  refine ⟨fun w hr hv => ⟨fun hw => ?ok, fun e hw => ⟨memWrite_singleton_err (congrArg Txn.result hw), ?writeErr⟩⟩,
    fun w hr hv => ?noNewData, fun e hr => ⟨memRead_err (congrArg Txn.result hr), ?readErr⟩⟩
  case ok =>
    have hwrite := regWrite_withStat_of_memWrite (s := { s with bus := s.bus ++ es₁, dev := d₁ }) hl hw
    exact pollStatus_of_regWrite_ok (regRead_of_memRead_ok hl hr) hv rfl hwrite
  case writeErr =>
    have hwrite := regWrite_withStat_of_memWrite (s := { s with bus := s.bus ++ es₁, dev := d₁ }) hl hw
    exact pollStatus_of_regWrite_err (regRead_of_memRead_ok hl hr) hv rfl hwrite
  case noNewData => exact pollStatus_of_no_newData (regRead_of_memRead_ok hl hr) hv
  case readErr => exact pollStatus_of_regRead_err (regRead_of_memRead_err hl hr)

end Sys2Proof.Machine
end

section
/-! PROOFS. LDX, RDX and RDFB (44_host_access.md R200 to R202). -/

namespace Sys2Proof.Machine

/-! ### LDX, RDX and RDFB, by whether the operand is in range -/

/-- `LDX` of an index in range: the word goes into `X[i]` (44_host_access.md R200). -/
theorem exec_ldx_inRange {i : Nat} (v : Word) (s : State) (h : i < 32) :
    exec (.ldx i v) s = .next ((s.putX i h v).respond 0 0) := by
  rw [exec, execLdx, dif_pos h]

/-- `LDX` of an index above 31: nothing but the response is written (60_exceptions.md R224). -/
theorem exec_ldx_badOperand {i : Nat} (v : Word) (s : State) (h : 31 < i) :
    exec (.ldx i v) s = .next (s.raise .badOperand 0) := by
  rw [exec, execLdx, dif_neg (Nat.not_lt.mpr h)]

/-- `RDX` of an index in range: the word of X is the response (44_host_access.md R201). -/
theorem exec_rdx_inRange {i : Nat} (s : State) (h : i < 32) : exec (.rdx i) s = .next (s.respond 0 (s.x[i]'h)) := by
  rw [exec, execRdx, dif_pos h]

/-- `RDX` of an index above 31 (60_exceptions.md R224). -/
theorem exec_rdx_badOperand {i : Nat} (s : State) (h : 31 < i) : exec (.rdx i) s = .next (s.raise .badOperand 0) := by
  rw [exec, execRdx, dif_neg (Nat.not_lt.mpr h)]

/-- `RDFB` of a row in range: the cell of the Frame Buffer is the response (44_host_access.md R202). -/
theorem exec_rdfb_inRange {r : Nat} (c : Fin 32) (s : State) (h : r < 24) :
    exec (.rdfb r c) s = .next (s.respond 0 (s.fb[r]'h)[c]) := by
  rw [exec, execRdfb, dif_pos h]

/-- `RDFB` of a row above 23 (60_exceptions.md R224). -/
theorem exec_rdfb_badOperand {r : Nat} (c : Fin 32) (s : State) (h : 23 < r) :
    exec (.rdfb r c) s = .next (s.raise .badOperand 0) := by
  rw [exec, execRdfb, dif_neg (Nat.not_lt.mpr h)]

/-! ### The words of RDX and RDFB (30_encoding.md R94) -/

/-- The word of an instruction whose operand `imm` is 0 is its opcode and its `a`. -/
theorem encode_toNat_of_immOperand_zero {i : Instr} (ha : aOperandOf i < 256) (himm : immOperandOf i = 0) :
    (encode i).toNat = (opcodeOf i).toNat * 2 ^ 24 + aOperandOf i * 2 ^ 16 := by
  have himm' : (immOperandOf i).toNat = 0 := congrArg BitVec.toNat himm
  rw [encode_toNat i ha, himm', Nat.add_zero]

/-- A column is below 32, so `imm` carries it whole. -/
theorem immOperandOf_rdfb_toNat (r : Nat) (c : Fin 32) : (immOperandOf (.rdfb r c)).toNat = c.val := by
  have hc : c.val < 2 ^ 16 := by omega
  rw [immOperandOf, BitVec.toNat_ofNat, Nat.mod_eq_of_lt hc]

/-- The row of `RDFB` in the decoder (30_encoding.md R96). -/
theorem decode_of_opField_rdfb {w : Word32} (h : (opField w).toNat = 0x52) :
    decode w = whenZero (immHighField w == 0) (.rdfb (aField w).toNat (columnField w)) := by
  simp only [decode, h]

theorem immHighField_ne_zero {w : Word32} (h : w.toNat / 2 ^ 5 % 2 ^ 11 ≠ 0) : immHighField w ≠ 0 := by
  intro hzero
  rw [← immHighField_toNat, hzero] at h
  exact h rfl

/-! ### The obligations -/

/-- Settles O19, by whether the index is in range. -/
theorem ldxWritesOneWord : Obligations.LdxWritesOneWord := fun i v s =>
  ⟨exec_ldx_inRange v s, exec_ldx_badOperand v s, encode_toNat (.ldx i v)⟩

/-- Settles O20, by whether the index is in range. -/
theorem rdxReturnsWord : Obligations.RdxReturnsWord := fun i s =>
  ⟨exec_rdx_inRange s, exec_rdx_badOperand s, fun hi => encode_toNat_of_immOperand_zero (i := .rdx i) hi rfl⟩

/-- Settles O21, by whether the row is in range. A word with a bit of `cmd[15:5]` set reaches the decoder's row of `RDFB`,
which rejects it. -/
theorem rdfbReturnsCell : Obligations.RdfbReturnsCell := by
  intro r c s
  refine ⟨exec_rdfb_inRange c s, exec_rdfb_badOperand c s, fun hr => ?word, fun w hop hhigh => ?illegal⟩
  case word => rw [encode_toNat (.rdfb r c) hr, immOperandOf_rdfb_toNat]; rfl
  case illegal =>
    rw [decode_of_opField_rdfb ((opField_toNat w).trans hop), beq_eq_false_iff_ne.mpr (immHighField_ne_zero hhigh)]
    rfl

end Sys2Proof.Machine
end

section
/-! PROOFS. The command errors ILLEGAL_CMD, BAD_OPERAND and BAD_STATE (60_exceptions.md R223 to R225). -/

namespace Sys2Proof.Machine

/-! ### A word that decodes meets a row of the opcode map (30_encoding.md R94, R96) -/

/-- A masked word, field by field. -/
theorem and_commandWord (w : Word32) (mop ma : Byte) (mimm : Word) :
    w &&& commandWord mop ma mimm = commandWord (opField w &&& mop) (aField w &&& ma) (immField w &&& mimm) := by
  have hop : opField (w &&& commandWord mop ma mimm) = opField w &&& mop := by
    rw [opField, BitVec.extractLsb'_and, ← opField, ← opField, opField_commandWord]
  have ha : aField (w &&& commandWord mop ma mimm) = aField w &&& ma := by
    rw [aField, BitVec.extractLsb'_and, ← aField, ← aField, aField_commandWord]
  have himm : immField (w &&& commandWord mop ma mimm) = immField w &&& mimm := by
    rw [immField, BitVec.extractLsb'_and, ← immField, ← immField, immField_commandWord]
  rw [← hop, ← ha, ← himm, commandWord_fields]

/-- "`match = op << 24`": what is left under a mask that keeps `op` and, of `a` and `imm`, only bits that are zero. -/
theorem and_mask_eq_match {w : Word32} {op ma : Byte} {mimm : Word} (hop : (opField w).toNat = op.toNat)
    (ha : aField w &&& ma = 0) (himm : immField w &&& mimm = 0) :
    w &&& commandWord 0xFF ma mimm = commandWord op 0 0 := by
  have hkeep : opField w &&& 0xFF = opField w := BitVec.and_allOnes
  rw [and_commandWord, hkeep, BitVec.eq_of_toNat_eq hop, ha, himm]

/-- Under sub-format RC, `imm` is the column. -/
theorem immField_eq_columnField {w : Word32} (h : immHighField w = 0) :
    immField w = BitVec.ofNat 16 (columnField w).val := by
  have hhigh : w.toNat / 2 ^ 5 % 2 ^ 11 = 0 := by rw [← immHighField_toNat, h]; rfl
  apply BitVec.eq_of_toNat_eq
  rw [immField_toNat, BitVec.toNat_ofNat, columnField_val]
  omega

/-- The mask of sub-format RC leaves nothing of a column. -/
theorem column_and_mask (c : Fin 32) : BitVec.ofNat 16 c.val &&& 0xFFE0 = 0 := by
  revert c; decide

/-- A field that is zero is zero under every mask. -/
theorem and_eq_zero_of_left {n : Nat} {v : BitVec n} (h : v = 0) (mask : BitVec n) : v &&& mask = 0 := by
  rw [h]
  exact BitVec.zero_and

/-- An instruction comes out of `whenZero` only when the must-be-zero fields are zero. -/
theorem whenZero_eq_ok {b : Bool} {i j : Instr} (h : whenZero b i = .ok j) : b = true := by
  cases b
  case true => rfl
  case false => cases h

section
variable {w : Word32} {op : Byte} (hop : (opField w).toNat = op.toNat)
include hop

/-- Sub-formats AN and XI: `a` and `imm` are operands. -/
theorem and_mask_an : w &&& 0xFF000000 = commandWord op 0 0 :=
  and_mask_eq_match hop BitVec.and_zero BitVec.and_zero

/-- Sub-formats N and X: `imm` must be zero. -/
theorem and_mask_n {i j : Instr} (h : whenZero (immField w == 0) i = .ok j) :
    w &&& 0xFF00FFFF = commandWord op 0 0 := by
  have himm : immField w = 0 := eq_of_beq (whenZero_eq_ok h)
  exact and_mask_eq_match hop BitVec.and_zero (and_eq_zero_of_left himm 0xFFFF)

/-- Sub-format A: `a` must be zero. -/
theorem and_mask_a {i j : Instr} (h : whenZero (aField w == 0) i = .ok j) :
    w &&& 0xFFFF0000 = commandWord op 0 0 := by
  have ha : aField w = 0 := eq_of_beq (whenZero_eq_ok h)
  exact and_mask_eq_match hop (and_eq_zero_of_left ha 0xFF) BitVec.and_zero

/-- Sub-format Z: `a` and `imm` must be zero. -/
theorem and_mask_z {i j : Instr} (h : whenZero (aField w == 0 && immField w == 0) i = .ok j) :
    w &&& 0xFFFFFFFF = commandWord op 0 0 := by
  obtain ⟨ha, himm⟩ : aField w = 0 ∧ immField w = 0 := by simpa using whenZero_eq_ok h
  exact and_mask_eq_match hop (and_eq_zero_of_left ha 0xFF) (and_eq_zero_of_left himm 0xFFFF)

/-- Sub-format RC: `imm[15:5]` must be zero. -/
theorem and_mask_rc {i j : Instr} (h : whenZero (immHighField w == 0) i = .ok j) :
    w &&& 0xFF00FFE0 = commandWord op 0 0 := by
  have hhigh : immHighField w = 0 := eq_of_beq (whenZero_eq_ok h)
  exact and_mask_eq_match hop BitVec.and_zero (by rw [immField_eq_columnField hhigh]; exact column_and_mask _)

end

/-- A word that decodes meets the row of its opcode, by the must-be-zero fields of that row's sub-format. -/
theorem exists_row_of_decode {w : Word32} {i : Instr} (h : decode w = .ok i) :
    ∃ r ∈ opcodeRows, w &&& r.mask = r.pattern := by
  unfold decode at h
  split at h
  case h_1 hop => exact ⟨⟨0xFF000000, 0x10000000⟩, by decide, and_mask_an (op := 0x10) hop⟩
  case h_2 hop => exact ⟨⟨0xFF000000, 0x11000000⟩, by decide, and_mask_an (op := 0x11) hop⟩
  case h_3 hop => exact ⟨⟨0xFF00FFFF, 0x20000000⟩, by decide, and_mask_n (op := 0x20) hop h⟩
  case h_4 hop => exact ⟨⟨0xFF00FFFF, 0x21000000⟩, by decide, and_mask_n (op := 0x21) hop h⟩
  case h_5 hop => exact ⟨⟨0xFFFF0000, 0x30000000⟩, by decide, and_mask_a (op := 0x30) hop h⟩
  case h_6 hop => exact ⟨⟨0xFFFF0000, 0x31000000⟩, by decide, and_mask_a (op := 0x31) hop h⟩
  case h_7 hop => exact ⟨⟨0xFFFFFFFF, 0x40000000⟩, by decide, and_mask_z (op := 0x40) hop h⟩
  case h_8 hop => exact ⟨⟨0xFFFFFFFF, 0x41000000⟩, by decide, and_mask_z (op := 0x41) hop h⟩
  case h_9 hop => exact ⟨⟨0xFFFFFFFF, 0x42000000⟩, by decide, and_mask_z (op := 0x42) hop h⟩
  case h_10 hop => exact ⟨⟨0xFF000000, 0x50000000⟩, by decide, and_mask_an (op := 0x50) hop⟩
  case h_11 hop => exact ⟨⟨0xFF00FFFF, 0x51000000⟩, by decide, and_mask_n (op := 0x51) hop h⟩
  case h_12 hop => exact ⟨⟨0xFF00FFE0, 0x52000000⟩, by decide, and_mask_rc (op := 0x52) hop h⟩
  case h_13 hop => exact ⟨⟨0xFF00FFFF, 0x53000000⟩, by decide, and_mask_n (op := 0x53) hop h⟩
  case h_14 => cases h

/-! ### The step on a command word -/

/-- A command word at the head is taken and run (30_encoding.md R90). -/
theorem step_command {s : State} {w : Word32} {rest : List Input} (hin : s.inputs = .command w :: rest)
    (hl : s.link ≠ .stalled) : step s = runCommand w { s with inputs := rest } := by
  simp only [step, State.dropInput, hin, if_neg hl, List.tail_cons]

/-- A word that does not decode raises ILLEGAL_CMD (30_encoding.md R97). -/
theorem runCommand_of_not_decoded {w : Word32} (s : State) (h : ∀ i, decode w ≠ .ok i) :
    runCommand w s = .next (s.raise .illegalCmd 0) := by
  unfold runCommand
  split
  case h_1 i hi => exact absurd hi (h i)
  case h_2 => rfl

/-! ### What a decoded command answers -/

/-- Why a decoded command may answer with this error code: a command error has its cause in the operands or in STATE,
an illegal word is none of its causes (60_exceptions.md R223 to R225); of OK and the bus errors nothing is said. -/
def ErrCode.Cause (i : Instr) (s : State) : ErrCode → Prop
  | .ok | .noAck | .shortRead | .shortWrite => True
  | .illegalCmd => False
  | .badOperand => outOfRange i = true
  | .badState => s.ctl = .uninit ∧ (i = .poll ∨ i = .capture)

/-- A bus error is no command error. -/
theorem BusErr.code_cause (i : Instr) (s : State) (e : BusErr) : e.code.Cause i s := by
  cases e <;> exact trivial

/-- If the command answered, the error code of its one response has its cause. -/
def AnswersWithCause (i : Instr) (s t : State) : Prop := ∀ r, t.rsps = s.rsps ++ [r] → r.err.Cause i s

/-! The four ends of a command, after work that gave no response (`hu`). -/

section
variable {i : Instr} {s u : State} {aux : Byte}

theorem answersWithCause_respond {data : Word} (hu : u.rsps = s.rsps := by rfl) :
    AnswersWithCause i s (u.respond aux data) := by
  intro r hr
  rw [respond_rsps, hu, List.append_cancel_left_eq, List.singleton_inj] at hr
  exact hr ▸ trivial

theorem answersWithCause_raise {e : ErrCode} (he : e.Cause i s) (hu : u.rsps = s.rsps := by rfl) :
    AnswersWithCause i s (u.raise e aux) := by
  intro r hr
  rw [raise_rsps, hu, List.append_cancel_left_eq, List.singleton_inj] at hr
  exact hr ▸ he

theorem answersWithCause_busErr {e : BusErr} (hu : u.rsps = s.rsps := by rfl) :
    AnswersWithCause i s (u.raise e.code aux) :=
  answersWithCause_raise (e.code_cause i s) hu

/-- A command that hangs does not answer. -/
theorem answersWithCause_stall (hu : u.rsps = s.rsps := by rfl) : AnswersWithCause i s u.stall := by
  intro r hr
  rw [stall_rsps, hu, List.self_eq_append_right] at hr
  cases hr

end

/-! ### Command by command -/

/-- `BRD` raises BAD_OPERAND for a count above 32 only (40_bus_transport.md R126). -/
theorem brd_answersWithCause {addr : Word} {n : Nat} {s t : State} (h : execBrd addr n s = .next t) :
    AnswersWithCause (.brd addr n) s t := by
  rcases execBrd_cases h with ⟨hn, rfl⟩ | ⟨_, q, _, ⟨ws, _, rfl⟩ | ⟨e, _, rfl⟩ | ⟨_, rfl⟩⟩
  · exact answersWithCause_raise (decide_eq_true hn)
  · exact answersWithCause_respond
  · exact answersWithCause_busErr
  · exact answersWithCause_stall

/-- `BWR` raises BAD_OPERAND for a count above 32 only (40_bus_transport.md R127). -/
theorem bwr_answersWithCause {addr : Word} {n : Nat} {s t : State} (h : execBwr addr n s = .next t) :
    AnswersWithCause (.bwr addr n) s t := by
  rcases execBwr_cases h with ⟨hn, rfl⟩ | ⟨_, q, _, ⟨_, rfl⟩ | ⟨e, _, rfl⟩ | ⟨_, rfl⟩⟩
  · exact answersWithCause_raise (decide_eq_true hn)
  · exact answersWithCause_respond
  · exact answersWithCause_busErr
  · exact answersWithCause_stall

/-- `DEC` and `ENC` raise BAD_OPERAND for a count above 32 only (41_register_codec.md R143, R144). -/
theorem codec_answersWithCause {n : Nat} {s t : State} (h : execDec n s = .next t ∨ execEnc n s = .next t) :
    AnswersWithCause (.dec n) s t ∧ AnswersWithCause (.enc n) s t := by
  rcases execDec_cases h with ⟨hn, rfl⟩ | ⟨_, rfl⟩
  · exact ⟨answersWithCause_raise (decide_eq_true hn), answersWithCause_raise (decide_eq_true hn)⟩
  · exact ⟨answersWithCause_respond, answersWithCause_respond⟩

/-- `RDREG` raises no command error (42_register_access.md R162). -/
theorem rdreg_answersWithCause {addr : Word} {s t : State} (h : execRdreg addr s = .next t) :
    AnswersWithCause (.rdreg addr) s t := by
  obtain ⟨q, _, ⟨w, _, rfl⟩ | ⟨e, _, rfl⟩ | ⟨_, rfl⟩⟩ := execRdreg_cases h
  · exact answersWithCause_respond
  · exact answersWithCause_busErr
  · exact answersWithCause_stall

/-- `WRREG` raises no command error (42_register_access.md R163). -/
theorem wrreg_answersWithCause {addr : Word} {s t : State} (h : execWrreg addr s = .next t) :
    AnswersWithCause (.wrreg addr) s t := by
  obtain ⟨q, _, ⟨_, rfl⟩ | ⟨e, _, rfl⟩ | ⟨_, rfl⟩⟩ := execWrreg_cases h
  · exact answersWithCause_respond
  · exact answersWithCause_busErr
  · exact answersWithCause_stall

/-- `INIT` raises no command error (43_sensor_controller.md R171, R173). -/
theorem init_answersWithCause {s t : State} (h : execInit s = .next t) : AnswersWithCause .init s t := by
  obtain ⟨q, _, ⟨_, r, _, ⟨w, _, rfl⟩ | ⟨e, _, rfl⟩ | ⟨_, rfl⟩⟩ | ⟨e, _, rfl⟩ | ⟨_, rfl⟩⟩ := execInit_cases h
  · exact answersWithCause_respond
  · exact answersWithCause_busErr
  · exact answersWithCause_stall
  · exact answersWithCause_busErr
  · exact answersWithCause_stall

/-- `POLL` raises BAD_STATE in UNINIT only (43_sensor_controller.md R178). -/
theorem poll_answersWithCause {s t : State} (h : execPoll s = .next t) : AnswersWithCause .poll s t := by
  rcases execPoll_cases h with ⟨hc, rfl⟩ | ⟨_, q, _, ⟨w, _, ⟨_, a, r, _, _, hend⟩ | ⟨_, rfl⟩⟩ | ⟨e, _, rfl⟩ | ⟨_, rfl⟩⟩
  · exact answersWithCause_raise ⟨hc, .inl rfl⟩
  · rcases hend with ⟨_, rfl⟩ | ⟨e, _, rfl⟩ | ⟨_, rfl⟩
    · exact answersWithCause_respond
    · exact answersWithCause_busErr
    · exact answersWithCause_stall
  · exact answersWithCause_respond
  · exact answersWithCause_busErr
  · exact answersWithCause_stall

/-- `CAPTURE` raises BAD_STATE in UNINIT only (43_sensor_controller.md R183): no stored row responds. -/
theorem capture_answersWithCause {s t : State} (h : execCapture s = .next t) : AnswersWithCause .capture s t := by
  rcases execCapture_cases (P := fun _ u => u.rsps = s.rsps) h (fun _ => rfl) (fun _ _ _ hu _ _ => hu) with
    ⟨hc, rfl⟩ | ⟨_, c, u, hu, ⟨_, rfl⟩ | ⟨_, e, _, rfl⟩ | ⟨_, _, rfl⟩⟩
  · exact answersWithCause_raise ⟨hc, .inr rfl⟩
  · exact answersWithCause_respond hu
  · exact answersWithCause_busErr hu
  · exact answersWithCause_stall hu

/-- `LDX` raises BAD_OPERAND for an index above 31 only (44_host_access.md R200). -/
theorem ldx_answersWithCause {i : Nat} {v : Word} {s t : State} (h : exec (.ldx i v) s = .next t) :
    AnswersWithCause (.ldx i v) s t := by
  rcases Nat.lt_or_ge i 32 with hi | hi
  · cases (exec_ldx_inRange v s hi).symm.trans h
    exact answersWithCause_respond
  · cases (exec_ldx_badOperand v s hi).symm.trans h
    exact answersWithCause_raise (decide_eq_true hi)

/-- `RDX` raises BAD_OPERAND for an index above 31 only (44_host_access.md R201). -/
theorem rdx_answersWithCause {i : Nat} {s t : State} (h : exec (.rdx i) s = .next t) : AnswersWithCause (.rdx i) s t := by
  rcases Nat.lt_or_ge i 32 with hi | hi
  · cases (exec_rdx_inRange s hi).symm.trans h
    exact answersWithCause_respond
  · cases (exec_rdx_badOperand s hi).symm.trans h
    exact answersWithCause_raise (decide_eq_true hi)

/-- `RDFB` raises BAD_OPERAND for a row above 23 only (44_host_access.md R202). -/
theorem rdfb_answersWithCause {r : Nat} {c : Fin 32} {s t : State} (h : exec (.rdfb r c) s = .next t) :
    AnswersWithCause (.rdfb r c) s t := by
  rcases Nat.lt_or_ge r 24 with hr | hr
  · cases (exec_rdfb_inRange c s hr).symm.trans h
    exact answersWithCause_respond
  · cases (exec_rdfb_badOperand c s hr).symm.trans h
    exact answersWithCause_raise (decide_eq_true hr)

/-- The index table has every index up to 5 (10_state.md R38). -/
theorem lt_of_csr_eq_none {i : Nat} {s : State} (h : csr i s = none) : 5 < i := by
  by_contra hi
  interval_cases i <;> cases h

/-- `RDCSR` raises BAD_OPERAND for an index above 5 only (44_host_access.md R203). -/
theorem rdcsr_answersWithCause {i : Nat} {s t : State} (h : exec (.rdcsr i) s = .next t) :
    AnswersWithCause (.rdcsr i) s t := by
  cases hcsr : csr i s with
  | some v =>
    cases (exec_rdcsr_of_csr_some hcsr).symm.trans h
    exact answersWithCause_respond
  | none =>
    cases (exec_rdcsr_of_csr_none hcsr).symm.trans h
    exact answersWithCause_raise (decide_eq_true (lt_of_csr_eq_none hcsr))

/-- No decoded command answers with a command error that has no cause. -/
theorem exec_answersWithCause {i : Instr} {s t : State} (h : exec i s = .next t) : AnswersWithCause i s t := by
  cases i with
  | brd addr n => exact brd_answersWithCause h
  | bwr addr n => exact bwr_answersWithCause h
  | dec n => exact (codec_answersWithCause (.inl h)).1
  | enc n => exact (codec_answersWithCause (.inr h)).2
  | rdreg addr => exact rdreg_answersWithCause h
  | wrreg addr => exact wrreg_answersWithCause h
  | init => exact init_answersWithCause h
  | poll => exact poll_answersWithCause h
  | capture => exact capture_answersWithCause h
  | ldx i v => exact ldx_answersWithCause h
  | rdx i => exact rdx_answersWithCause h
  | rdfb r c => exact rdfb_answersWithCause h
  | rdcsr i => exact rdcsr_answersWithCause h

/-- An operand out of range is refused, by every command that has one, and nothing but the response is written. -/
theorem exec_of_outOfRange {i : Instr} (s : State) (h : outOfRange i = true) :
    exec i s = .next (s.raise .badOperand 0) := by
  cases i with
  | brd addr n => exact exec_brd_badOperand s (of_decide_eq_true h)
  | bwr addr n => exact exec_bwr_badOperand s (of_decide_eq_true h)
  | dec n => exact exec_dec_badOperand s (of_decide_eq_true h)
  | enc n => exact exec_dec_badOperand s (of_decide_eq_true h)
  | ldx i v => exact exec_ldx_badOperand v s (of_decide_eq_true h)
  | rdx i => exact exec_rdx_badOperand s (of_decide_eq_true h)
  | rdfb r c => exact exec_rdfb_badOperand c s (of_decide_eq_true h)
  | rdcsr i => exact exec_rdcsr_of_csr_none (csr_eq_none s (of_decide_eq_true h))
  | rdreg | wrreg | init | poll | capture => cases h

/-- In UNINIT a `CAPTURE` is refused before the bus is touched and before ELAPSED is drawn (60_exceptions.md R225). -/
theorem exec_capture_of_uninit {s : State} (h : s.ctl = .uninit) : exec .capture s = .next (s.raise .badState 0) := by
  rw [exec, execCapture, if_pos h]

/-! ### The obligations -/

/-- Settles O7: a word that decodes would meet a row, so a word of no row raises; a decoded command has no cause to. -/
theorem illegalCommandRaises : Obligations.IllegalCommandRaises := by
  refine ⟨fun s w rest hin hl hrows => ?illegal, fun i s t aux data hexec hr => ?decoded, by decide⟩
  case illegal =>
    have hdecode : ∀ i, decode w ≠ .ok i := by
      intro i hi
      obtain ⟨r, hr, hmatch⟩ := exists_row_of_decode hi
      exact hrows r hr hmatch
    rw [step_command hin hl, runCommand_of_not_decoded _ hdecode]
    rfl
  case decoded => exact exec_answersWithCause hexec _ hr

/-- Settles O25: every command refuses an operand out of range, and BAD_OPERAND has no other cause. -/
theorem badOperandLeavesStateAlone : Obligations.BadOperandLeavesStateAlone :=
  ⟨fun _ s hi => exec_of_outOfRange s hi, fun _ _ _ _ _ hexec hr => exec_answersWithCause hexec _ hr, by decide⟩

/-- Settles O26: `POLL` and `CAPTURE` check STATE first, and BAD_STATE has no other cause. -/
theorem badStateOnlyBeforeInit : Obligations.BadStateOnlyBeforeInit := by
  refine ⟨fun s hc i hi => ?uninit, fun i s t aux data hexec hr => exec_answersWithCause hexec _ hr, by decide⟩
  replace hi : i = .poll ∨ i = .capture := by simpa using hi
  rcases hi with rfl | rfl
  · exact exec_poll_of_uninit hc
  · exact exec_capture_of_uninit hc

end Sys2Proof.Machine
end

section
/-! PROOFS. The decoder and the encoder of command words, and the response word (30_encoding.md R92 to R99). -/

namespace Sys2Proof

/-! ### Decoding an encoded instruction (30_encoding.md R94) -/

@[simp] theorem aField_encode (i : Instr) : aField (encode i) = BitVec.ofNat 8 (aOperandOf i) :=
  aField_commandWord _ _ _

@[simp] theorem opField_encode (i : Instr) : opField (encode i) = opcodeOf i := opField_commandWord _ _ _

@[simp] theorem immField_encode (i : Instr) : immField (encode i) = immOperandOf i := immField_commandWord _ _ _

/-- A word whose `imm` is a column keeps the must-be-zero bits of sub-format RC zero. -/
theorem immHighField_of_immField {w : Word32} {c : Fin 32} (h : immField w = BitVec.ofNat 16 c.val) :
    immHighField w = 0 := by
  have himm : w.toNat % 2 ^ 16 = c.val % 2 ^ 16 := by rw [← immField_toNat, h, BitVec.toNat_ofNat]
  apply BitVec.eq_of_toNat_eq
  rw [immHighField_toNat]
  simp only [BitVec.ofNat_eq_ofNat, BitVec.toNat_ofNat]
  omega

theorem columnField_of_immField {w : Word32} {c : Fin 32} (h : immField w = BitVec.ofNat 16 c.val) :
    columnField w = c := by
  have himm : w.toNat % 2 ^ 16 = c.val % 2 ^ 16 := by rw [← immField_toNat, h, BitVec.toNat_ofNat]
  apply Fin.ext
  rw [columnField_val]
  omega

/-- The operand `a` of a well-formed instruction fits its field, which gives it back (30_encoding.md R92, R95). -/
theorem aOperandOf_mod_of_wf {i : Instr} (h : i.wf = true) : aOperandOf i % 256 = aOperandOf i := by
  apply Nat.mod_eq_of_lt
  cases i with
  | brd _ n | bwr _ n | dec n | enc n | ldx n _ | rdx n | rdfb n _ | rdcsr n => exact of_decide_eq_true h
  | rdreg | wrreg | init | poll | capture => exact Nat.zero_lt_succ _

/-- Settles O1, command by command: the opcode selects the decoder's row, the operands come back from their fields, and
the must-be-zero fields of the sub-format are zero. -/
theorem decodeEncodeRoundTrip : Obligations.DecodeEncodeRoundTrip := by
  intro i hwf
  have ha : aOperandOf i % 256 = aOperandOf i := aOperandOf_mod_of_wf hwf
  cases i with
  | brd addr n | bwr addr n | ldx n v => simpa [decode, opcodeOf, immOperandOf, aOperandOf] using ha
  | dec n | enc n | rdx n | rdcsr n => simpa [decode, opcodeOf, immOperandOf, aOperandOf, whenZero] using ha
  | rdreg | wrreg | init | poll | capture => simp [decode, opcodeOf, immOperandOf, aOperandOf, whenZero]
  | rdfb r c =>
    have himm : immField (encode (.rdfb r c)) = BitVec.ofNat 16 c.val := immField_encode _
    simpa [decode, opcodeOf, aOperandOf, whenZero, immHighField_of_immField himm, columnField_of_immField himm] using ha

/-! ### Encoding a decoded word (30_encoding.md R98) -/

/-- What `whenZero` lets through. -/
theorem whenZero_eq_ok_iff {b : Bool} {i j : Instr} : whenZero b i = .ok j ↔ b = true ∧ i = j := by
  cases b <;> simp [whenZero]

/-- A word with the fields of an instruction is the instruction's word. -/
theorem encode_eq_of_fields {i : Instr} {w : Word32} (hop : (opField w).toNat = (opcodeOf i).toNat)
    (ha : aOperandOf i = (aField w).toNat) (himm : immOperandOf i = immField w) : encode i = w := by
  rw [encode, ← BitVec.eq_of_toNat_eq hop, ha, himm, BitVec.ofNat_toNat, BitVec.setWidth_eq, commandWord_fields]

/-- Settles O2, row by row of the decoder: the fields of the word are those of the word of what it decodes to. -/
theorem encodeDecodeRoundTrip : Obligations.EncodeDecodeRoundTrip := by
  intro w i h
  have hfits : fitsA (aField w).toNat = true := decide_eq_true (aField w).isLt
  unfold decode at h
  split at h
  case h_1 hop | h_2 hop | h_10 hop =>
    cases h
    exact ⟨hfits, encode_eq_of_fields hop rfl rfl⟩
  case h_3 hop | h_4 hop | h_11 hop | h_13 hop =>
    obtain ⟨himm, rfl⟩ := whenZero_eq_ok_iff.mp h
    exact ⟨hfits, encode_eq_of_fields hop rfl (eq_of_beq himm).symm⟩
  case h_5 hop | h_6 hop =>
    obtain ⟨ha, rfl⟩ := whenZero_eq_ok_iff.mp h
    exact ⟨rfl, encode_eq_of_fields hop (congrArg BitVec.toNat (eq_of_beq ha)).symm rfl⟩
  case h_7 hop | h_8 hop | h_9 hop =>
    obtain ⟨hzero, rfl⟩ := whenZero_eq_ok_iff.mp h
    obtain ⟨ha, himm⟩ : aField w = 0 ∧ immField w = 0 := by simpa using hzero
    exact ⟨rfl, encode_eq_of_fields hop (congrArg BitVec.toNat ha).symm himm.symm⟩
  case h_12 hop =>
    obtain ⟨hhigh, rfl⟩ := whenZero_eq_ok_iff.mp h
    exact ⟨hfits, encode_eq_of_fields hop rfl (Machine.immField_eq_columnField (eq_of_beq hhigh)).symm⟩
  case h_14 => cases h

/-! ### Mask and match (30_encoding.md R94) -/

/-- What a word of a row's mask and match says of its fields. -/
theorem fields_of_and_mask {w : Word32} {op ma : Byte} {mimm : Word}
    (h : w &&& commandWord 0xFF ma mimm = commandWord op 0 0) :
    opField w = op ∧ aField w &&& ma = 0 ∧ immField w &&& mimm = 0 := by
  rw [Machine.and_commandWord, show opField w &&& 0xFF = opField w from BitVec.and_allOnes] at h
  refine ⟨?_, ?_, ?_⟩
  · simpa using congrArg opField h
  · simpa using congrArg aField h
  · simpa using congrArg immField h

/-- The must-be-zero bits of sub-format RC are those under its mask. -/
theorem immHighField_of_and_mask {w : Word32} (h : immField w &&& 0xFFE0 = 0) : immHighField w = 0 := by
  refine BitVec.eq_of_getLsbD_eq fun i hi => ?_
  have hbit : (immField w &&& 0xFFE0).getLsbD (5 + i) = false := by rw [h]; exact BitVec.getLsbD_zero
  have hmask : (0xFFE0 : Word).getLsbD (5 + i) = true := by clear hbit; decide +revert
  rw [BitVec.getLsbD_and, hmask, Bool.and_true, immField, BitVec.getLsbD_extractLsb'] at hbit
  have hlt : 5 + i < 16 := by omega
  simpa [immHighField, hlt, hi] using hbit

section
variable {w : Word32}

/-- A word of a row of sub-format N or X. -/
theorem fields_of_and_mask_n (op : Byte) (h : w &&& 0xFF00FFFF = commandWord op 0 0) :
    opField w = op ∧ immField w = 0 := by
  obtain ⟨hop, _, himm⟩ := fields_of_and_mask (ma := 0) (mimm := 0xFFFF) h
  exact ⟨hop, by rwa [show immField w &&& 0xFFFF = immField w from BitVec.and_allOnes] at himm⟩

/-- A word of a row of sub-format A. -/
theorem fields_of_and_mask_a (op : Byte) (h : w &&& 0xFFFF0000 = commandWord op 0 0) :
    opField w = op ∧ aField w = 0 := by
  obtain ⟨hop, ha, _⟩ := fields_of_and_mask (ma := 0xFF) (mimm := 0) h
  exact ⟨hop, by rwa [show aField w &&& 0xFF = aField w from BitVec.and_allOnes] at ha⟩

/-- A word of a row of sub-format Z. -/
theorem eq_commandWord_of_and_mask_z (op : Byte) (h : w &&& 0xFFFFFFFF = commandWord op 0 0) :
    w = commandWord op 0 0 := by
  rwa [show w &&& 0xFFFFFFFF = w from BitVec.and_allOnes] at h

/-- A word of the row of sub-format RC. -/
theorem fields_of_and_mask_rc (op : Byte) (h : w &&& 0xFF00FFE0 = commandWord op 0 0) :
    opField w = op ∧ immHighField w = 0 := by
  obtain ⟨hop, _, himm⟩ := fields_of_and_mask (ma := 0) (mimm := 0xFFE0) h
  exact ⟨hop, immHighField_of_and_mask himm⟩

/-- A word of a row of sub-format AN or XI. -/
theorem opField_of_and_mask_an (op : Byte) (h : w &&& 0xFF000000 = commandWord op 0 0) : opField w = op :=
  (fields_of_and_mask (ma := 0) (mimm := 0) h).1

end

/-- A word of a row decodes, by the must-be-zero fields that the row's mask leaves. -/
theorem exists_decode_of_row {w : Word32} {r : OpcodeRow} (hr : r ∈ opcodeRows) (h : w &&& r.mask = r.pattern) :
    ∃ i, decode w = .ok i := by
  simp only [opcodeRows, List.mem_cons, List.not_mem_nil, or_false] at hr
  rcases hr with rfl | rfl | rfl | rfl | rfl | rfl | rfl | rfl | rfl | rfl | rfl | rfl | rfl
  · simp [decode, opField_of_and_mask_an 0x10 h]
  · simp [decode, opField_of_and_mask_an 0x11 h]
  · simp [decode, fields_of_and_mask_n 0x20 h, whenZero]
  · simp [decode, fields_of_and_mask_n 0x21 h, whenZero]
  · simp [decode, fields_of_and_mask_a 0x30 h, whenZero]
  · simp [decode, fields_of_and_mask_a 0x31 h, whenZero]
  · exact ⟨.init, by rw [eq_commandWord_of_and_mask_z 0x40 h]; decide⟩
  · exact ⟨.poll, by rw [eq_commandWord_of_and_mask_z 0x41 h]; decide⟩
  · exact ⟨.capture, by rw [eq_commandWord_of_and_mask_z 0x42 h]; decide⟩
  · simp [decode, opField_of_and_mask_an 0x50 h]
  · simp [decode, fields_of_and_mask_n 0x51 h, whenZero]
  · simp [decode, fields_of_and_mask_rc 0x52 h, whenZero]
  · simp [decode, fields_of_and_mask_n 0x53 h, whenZero]

/-- Every mask keeps `op`, every match is within its `op`, and no two rows have one match. -/
theorem opcodeRows_by_op : ∀ r ∈ opcodeRows, ∀ q ∈ opcodeRows, r.mask &&& 0xFF000000 = 0xFF000000 ∧
    r.pattern &&& 0xFF000000 = r.pattern ∧ (r.pattern = q.pattern → r = q) := by decide

/-- A row's match is what the word has in its field `op`. -/
theorem and_op_eq_pattern {w : Word32} {r : OpcodeRow} (hr : r ∈ opcodeRows) (h : w &&& r.mask = r.pattern) :
    w &&& 0xFF000000 = r.pattern := by
  obtain ⟨hmask, hpattern, _⟩ := opcodeRows_by_op r hr r hr
  rw [← hmask, ← BitVec.and_assoc, h, hpattern]

/-- Settles O3: a word decodes exactly when it meets a row, and its field `op` is the match of one row only. -/
theorem decodeIsMaskAndMatch : Obligations.DecodeIsMaskAndMatch := by
  refine ⟨fun w => ⟨fun ⟨_, hi⟩ => Machine.exists_row_of_decode hi, fun ⟨_, hr, h⟩ => exists_decode_of_row hr h⟩,
    fun w r hr q hq hwr hwq => ?unique⟩
  case unique =>
    obtain ⟨_, _, hinj⟩ := opcodeRows_by_op r hr q hq
    exact hinj ((and_op_eq_pattern hr hwr).symm.trans (and_op_eq_pattern hq hwq))

/-- Settles O4: the decoder is run on each word. -/
theorem sampleWordsDecode : Obligations.SampleWordsDecode := by
  unfold Obligations.SampleWordsDecode
  decide

/-! ### The response word (30_encoding.md R93) -/

/-- Settles O5: the three fields of a response word do not overlap, and each code is that of the error table. -/
theorem responseWordLayout : Obligations.ResponseWordLayout := by
  intro r
  have hword : r.word = commandWord r.err.code r.aux r.data := rfl
  rw [hword, commandWord_toNat]
  cases r.err <;> rfl

end Sys2Proof
end

section
/-! PROOFS. How a command ends: its response, its events on the bus, and what the device becomes
(60_exceptions.md R228 to R234, 40_bus_transport.md R122 to R124, 70_reset_and_hazards.md R262). -/

namespace Sys2Proof.Machine

/-! ### What transactions make of a device -/

/-- What a device becomes by transactions of the block; a write not known to fail stays within the given cells. -/
inductive Serves (p : Params) (cells : List Nat) (d : Device) : Device → Prop
  | untouched : Serves p cells d d
  | read {e : Device} (addr : Word) (n : Nat) : Serves p cells d e → Serves p cells d (memRead p e addr n).dev
  | write {e : Device} (addr : Word) (ws : List Word) : Serves p cells d e →
      (∀ a ∈ cellsOf addr ws.length, a ∈ cells) → Serves p cells d (memWrite p e addr ws).dev
  | failedWrite {e : Device} (addr : Word) (ws : List Word) : Serves p cells d e →
      (memWrite p e addr ws).result ≠ .ok () → Serves p cells d (memWrite p e addr ws).dev

theorem Serves.wf {p : Params} {cells : List Nat} {d e : Device} (h : Serves p cells d e) (hd : d.wf = true) :
    e.wf = true := by
  induction h with
  | untouched => exact hd
  | read addr n _ ih => exact memRead_wf ih
  | write addr ws _ _ ih => exact memWrite_wf ih
  | failedWrite addr ws _ _ ih => exact memWrite_wf ih

theorem Serves.mono {p : Params} {cells more : List Nat} {d e : Device} (h : Serves p cells d e)
    (hsub : ∀ a ∈ cells, a ∈ more) : Serves p more d e := by
  induction h with
  | untouched => exact .untouched
  | read addr n _ ih => exact ih.read addr n
  | write addr ws _ hcells ih => exact ih.write addr ws fun a ha => hsub a (hcells a ha)
  | failedWrite addr ws _ hres ih => exact ih.failedWrite addr ws hres

/-- The reference device keeps every byte outside the given cells, and its whole memory when there are none. -/
theorem Serves.mem_reference {p : Params} {cells : List Nat} {r : RefDevice} {e : Device}
    (h : Serves p cells (.reference r) e) : ∃ r', e = .reference r' ∧
      (∀ a, a ∉ cells → loadByte r'.mem a = loadByte r.mem a) ∧ (cells = [] → r'.mem = r.mem) := by
  induction h with
  | untouched => exact ⟨r, rfl, fun _ _ => rfl, fun _ => rfl⟩
  | read addr n _ ih =>
    obtain ⟨r₁, rfl, hbytes, hmem⟩ := ih
    obtain ⟨r₂, hdev, hkept, _⟩ := memRead_mem p r₁ addr n
    exact ⟨r₂, hdev, fun a ha => by rw [hkept, hbytes a ha], fun hc => by rw [hkept, hmem hc]⟩
  | write addr ws _ hcells ih =>
    obtain ⟨r₁, rfl, hbytes, hmem⟩ := ih
    obtain ⟨r₂, hdev, _, hok, herr⟩ := memWrite_mem p r₁ addr ws
    refine ⟨r₂, hdev, fun a ha => ?_, fun hc => ?_⟩
    · by_cases hres : (memWrite p (.reference r₁) addr ws).result = .ok ()
      · rw [hok hres, loadByte_storeBytes_outside _ _ _ _ fun hmem => ha (hcells a hmem), hbytes a ha]
      · rw [herr hres, hbytes a ha]
    · have hnil : ws = [] := by
        cases ws with
        | nil => rfl
        | cons w ws =>
          subst hc
          exact absurd (hcells (2 * addr.toNat % memCells) (by simp [cellsOf, List.range_succ_eq_map, Nat.mul_add]))
            List.not_mem_nil
      subst hnil
      rw [hok rfl, ← hmem hc]
      rfl
  | failedWrite addr ws _ hres ih =>
    obtain ⟨r₁, rfl, hbytes, hmem⟩ := ih
    obtain ⟨r₂, hdev, _, _, herr⟩ := memWrite_mem p r₁ addr ws
    exact ⟨r₂, hdev, fun a ha => by rw [herr hres, hbytes a ha], fun hc => by rw [herr hres, hmem hc]⟩

/-! ### The work of a command between its acceptance and its end -/

/-- Where a transaction leaves the bus, by how it ended. -/
def TxnEnd.phase {α : Type} : TxnEnd α → BusPhase
  | .ok _ | .err _ => .idle
  | .unanswered => .busy

/-- Whether a transaction ended with an error. -/
def TxnEnd.failed {α : Type} : TxnEnd α → Bool
  | .err _ => true
  | .ok _ | .unanswered => false

theorem TxnEnd.phase_eq_ite {α : Type} [DecidableEq α] (r : TxnEnd α) :
    (if r = .unanswered then BusPhase.busy else .idle) = r.phase := by
  cases r <;> rfl

theorem TxnEnd.exists_err_iff_failed {α : Type} (r : TxnEnd α) : (∃ e, r = .err e) ↔ r.failed = true := by
  cases r <;> simp [TxnEnd.failed]

/-- `u` is `s` after transactions, and perhaps work on the block's own state, but no response: where their events leave
the bus, whether the device refused a byte of them, and what the device became. -/
structure Traffic (cells : List Nat) (s u : State) (phase : BusPhase) (refusal : Bool) : Prop where
  rsps : u.rsps = s.rsps
  link : u.link = s.link
  params : u.params = s.params
  record : ∃ es, u.bus = s.bus ++ es ∧ busPhase es = phase ∧ (HasRefusal es ↔ refusal = true)
  dev : Serves s.params cells s.dev u.dev

section
variable {cells : List Nat} {s u v : State} {phase : BusPhase} {refusal : Bool} {addr : Word}

theorem Traffic.refl (cells : List Nat) (s : State) : Traffic cells s s .idle false where
  rsps := rfl
  link := rfl
  params := rfl
  record := ⟨[], by simp, rfl, by simp⟩
  dev := .untouched

/-- Work on the block's own state. -/
theorem Traffic.onBlock (h : Traffic cells s u phase refusal) (hrsps : v.rsps = u.rsps := by rfl)
    (hlink : v.link = u.link := by rfl) (hparams : v.params = u.params := by rfl) (hbus : v.bus = u.bus := by rfl)
    (hdev : v.dev = u.dev := by rfl) : Traffic cells s v phase refusal where
  rsps := hrsps.trans h.rsps
  link := hlink.trans h.link
  params := hparams.trans h.params
  record := hbus ▸ h.record
  dev := hdev ▸ h.dev

theorem Traffic.withStat (h : Traffic cells s u phase refusal) (a : Word) :
    Traffic cells s (u.withStat a) phase refusal := h.onBlock

/-- One more transaction on a free bus. -/
theorem Traffic.afterTxn {α : Type} {q : Txn α} (h : Traffic cells s u .idle false)
    (hphase : busPhase q.events = q.result.phase) (hrefusal : HasRefusal q.events ↔ q.result.failed = true)
    (hdev : Serves s.params cells s.dev q.dev) : Traffic cells s (u.afterTxn q) q.result.phase q.result.failed where
  rsps := h.rsps
  link := h.link
  params := h.params
  record := by
    obtain ⟨es, hbus, hes, hno⟩ := h.record
    have hsplit : HasRefusal (es ++ q.events) ↔ HasRefusal es ∨ HasRefusal q.events := by
      simp only [HasRefusal, List.mem_append, exists_or]
    refine ⟨es ++ q.events, by rw [afterTxn_bus, hbus, List.append_assoc], ?_, ?_⟩
    · rw [busPhase_append _ _ hes, hphase]
    · rw [hsplit, hno, hrefusal]
      simp
  dev := hdev

theorem Traffic.read {n : Nat} {r : TxnEnd (List Word)} (h : Traffic cells s u .idle false)
    (hr : (memRead u.params u.dev addr n).result = r) :
    Traffic cells s (u.afterTxn (memRead u.params u.dev addr n)) r.phase r.failed :=
  hr ▸ h.afterTxn ((memRead_phase ..).trans (TxnEnd.phase_eq_ite _))
    ((memRead_refusal ..).trans (TxnEnd.exists_err_iff_failed _)) (h.params ▸ h.dev.read addr n)

section
variable {ws : List Word} (h : Traffic cells s u .idle false)
include h

theorem Traffic.afterWrite (hdev : Serves s.params cells s.dev (memWrite s.params u.dev addr ws).dev)
    {r : TxnEnd Unit} (hr : (memWrite u.params u.dev addr ws).result = r) :
    Traffic cells s (u.afterTxn (memWrite u.params u.dev addr ws)) r.phase r.failed :=
  hr ▸ h.afterTxn ((memWrite_phase ..).trans (TxnEnd.phase_eq_ite _))
    ((memWrite_refusal ..).trans (TxnEnd.exists_err_iff_failed _)) (h.params ▸ hdev)

/-- A write within the given cells. -/
theorem Traffic.write (hcells : ∀ a ∈ cellsOf addr ws.length, a ∈ cells) {r : TxnEnd Unit}
    (hr : (memWrite u.params u.dev addr ws).result = r) :
    Traffic cells s (u.afterTxn (memWrite u.params u.dev addr ws)) r.phase r.failed :=
  h.afterWrite (h.dev.write addr ws hcells) hr

/-- A write that failed, of any cells. -/
theorem Traffic.failedWrite {e : BusErr} (hr : (memWrite u.params u.dev addr ws).result = .err e) :
    Traffic cells s (u.afterTxn (memWrite u.params u.dev addr ws)) .idle true :=
  h.afterWrite (h.dev.failedWrite addr ws fun hok => by
    rw [h.params, hok] at hr
    cases hr) hr

end

end

/-! ### The four ends of a command -/

/-- The cells a command may have stored to when a transaction of it fails: only `INIT` goes on after a write. -/
def cellsBeforeFailure (i : Instr) (p : Params) : List Nat :=
  if i = .init then storedCells i p else []

/-- The errors of the bus (60_exceptions.md R220). -/
abbrev ErrCode.IsBusErr (e : ErrCode) : Prop := e = .noAck ∨ e = .shortRead ∨ e = .shortWrite

/-- The four ends of a command. -/
inductive Ends (i : Instr) (s : State) : State → Prop
  /-- It responds with OK. -/
  | answers {u : State} (aux : Byte) (data : Word) : Traffic (storedCells i s.params) s u .idle false →
      Ends i s (u.respond aux data)
  /-- It is refused before it does anything. -/
  | rejected (e : ErrCode) : e ≠ .ok → ¬ e.IsBusErr → e ∈ mayRaise i → Ends i s (s.raise e 0)
  /-- Its last transaction failed. -/
  | fails {u : State} (e : BusErr) (aux : Byte) : Traffic (cellsBeforeFailure i s.params) s u .idle true →
      e.code ∈ mayRaise i → Ends i s (u.raise e.code aux)
  /-- Its last transaction is never answered. -/
  | hangs {u : State} : Traffic (storedCells i s.params) s u .busy false → usesBus i = true → Ends i s u.stall

/-- The errors of a read are those of every command that reads. -/
theorem readErr_mem_mayRaise {p : Params} {d : Device} {addr : Word} {n : Nat} {e : BusErr} {i : Instr}
    (h : (memRead p d addr n).result = .err e) (hi : ∀ c ∈ [ErrCode.noAck, .shortRead], c ∈ mayRaise i) :
    e.code ∈ mayRaise i := by
  rcases memRead_err h with rfl | rfl <;> exact hi _ (by simp [BusErr.code])

/-- The errors of a write are those of every command that writes. -/
theorem writeErr_mem_mayRaise {p : Params} {d : Device} {addr : Word} {ws : List Word} {e : BusErr} {i : Instr}
    (h : (memWrite p d addr ws).result = .err e) (hi : ∀ c ∈ [ErrCode.noAck, .shortWrite], c ∈ mayRaise i) :
    e.code ∈ mayRaise i := by
  rcases memWrite_err h with rfl | ⟨k, _, rfl⟩ <;> exact hi _ (by simp [BusErr.code])

/-! ### Command by command -/

theorem brd_ends {addr : Word} {n : Nat} {s t : State} (h : execBrd addr n s = .next t) : Ends (.brd addr n) s t := by
  have start := Traffic.refl [] s
  rcases execBrd_cases h with ⟨_, rfl⟩ | ⟨_, q, rfl, ⟨ws, hok, rfl⟩ | ⟨e, herr, rfl⟩ | ⟨hun, rfl⟩⟩
  · exact .rejected .badOperand (by decide) (by decide) (by simp [mayRaise])
  · exact .answers 0 0 (start.read hok).onBlock
  · exact .fails e _ (start.read herr) (readErr_mem_mayRaise herr (by simp [mayRaise]))
  · exact .hangs (start.read hun) rfl

theorem bwr_ends {addr : Word} {n : Nat} {s t : State} (h : execBwr addr n s = .next t) : Ends (.bwr addr n) s t := by
  rcases execBwr_cases h with ⟨_, rfl⟩ | ⟨hn, q, rfl, hend⟩
  · exact .rejected .badOperand (by decide) (by decide) (by simp [mayRaise])
  · have hcells : ∀ a ∈ cellsOf addr (s.firstX n).length, a ∈ storedCells (.bwr addr n) s.params := by
      simp [storedCells, hn, firstX_length]
    rcases hend with ⟨hok, rfl⟩ | ⟨e, herr, rfl⟩ | ⟨hun, rfl⟩
    · exact .answers 0 0 ((Traffic.refl _ s).write hcells hok)
    · exact .fails e _ ((Traffic.refl _ s).failedWrite herr) (writeErr_mem_mayRaise herr (by simp [mayRaise]))
    · exact .hangs ((Traffic.refl _ s).write hcells hun) rfl

theorem codec_ends {n : Nat} {s t : State} (h : execDec n s = .next t ∨ execEnc n s = .next t) :
    Ends (.dec n) s t ∧ Ends (.enc n) s t := by
  rcases execDec_cases h with ⟨_, rfl⟩ | ⟨_, rfl⟩
  · exact ⟨.rejected .badOperand (by decide) (by decide) (by simp [mayRaise]),
      .rejected .badOperand (by decide) (by decide) (by simp [mayRaise])⟩
  · exact ⟨.answers 0 0 (Traffic.refl _ s).onBlock, .answers 0 0 (Traffic.refl _ s).onBlock⟩

theorem rdreg_ends {addr : Word} {s t : State} (h : execRdreg addr s = .next t) : Ends (.rdreg addr) s t := by
  have start := Traffic.refl [] s
  obtain ⟨q, rfl, ⟨w, hok, rfl⟩ | ⟨e, herr, rfl⟩ | ⟨hun, rfl⟩⟩ := execRdreg_cases h
  · exact .answers 0 _ (start.read hok).onBlock
  · exact .fails e _ (start.read herr) (readErr_mem_mayRaise herr (by simp [mayRaise]))
  · exact .hangs (start.read hun) rfl

theorem wrreg_ends {addr : Word} {s t : State} (h : execWrreg addr s = .next t) : Ends (.wrreg addr) s t := by
  obtain ⟨q, rfl, ⟨hok, rfl⟩ | ⟨e, herr, rfl⟩ | ⟨hun, rfl⟩⟩ := execWrreg_cases h
  · exact .answers 0 0 ((Traffic.refl _ s).write (fun _ => id) hok)
  · exact .fails e _ ((Traffic.refl _ s).failedWrite herr) (writeErr_mem_mayRaise herr (by simp [mayRaise]))
  · exact .hangs ((Traffic.refl _ s).write (fun _ => id) hun) rfl

theorem init_ends {s t : State} (h : execInit s = .next t) : Ends .init s t := by
  have start : Traffic (storedCells .init s.params) s s.initStart .idle false := (Traffic.refl _ s).onBlock
  obtain ⟨q, rfl, ⟨hok, r, rfl, hread⟩ | ⟨e, herr, rfl⟩ | ⟨hun, rfl⟩⟩ := execInit_cases h
  · have sent := start.write (fun _ => id) hok
    rcases hread with ⟨w, hok, rfl⟩ | ⟨e, herr, rfl⟩ | ⟨hun, rfl⟩
    · exact .answers 0 _ (sent.read hok).onBlock
    · exact .fails e _ (sent.read herr) (readErr_mem_mayRaise herr (by simp [mayRaise]))
    · exact .hangs (sent.read hun) rfl
  · exact .fails e _ (start.failedWrite herr) (writeErr_mem_mayRaise herr (by simp [mayRaise]))
  · exact .hangs (start.write (fun _ => id) hun) rfl

theorem poll_ends {s t : State} (h : execPoll s = .next t) : Ends .poll s t := by
  rcases execPoll_cases h with ⟨_, rfl⟩ | ⟨_, q, rfl, ⟨w, hok, hword⟩ | ⟨e, herr, rfl⟩ | ⟨hun, rfl⟩⟩
  · exact .rejected .badState (by decide) (by decide) (by simp [mayRaise])
  · have read (cells : List Nat) := (Traffic.refl cells s).read hok
    rcases hword with ⟨_, a, r, _, rfl, hend⟩ | ⟨_, rfl⟩
    · have latched (cells : List Nat) := (read cells).withStat a
      rcases hend with ⟨hok, rfl⟩ | ⟨e, herr, rfl⟩ | ⟨hun, rfl⟩
      · exact .answers 1 a ((latched _).write (fun _ => id) hok).onBlock
      · exact .fails e 1 ((latched _).failedWrite herr) (writeErr_mem_mayRaise herr (by simp [mayRaise]))
      · exact .hangs ((latched _).write (fun _ => id) hun) rfl
    · exact .answers 0 _ (read _).onBlock
  · exact .fails e 0 ((Traffic.refl _ s).read herr) (readErr_mem_mayRaise herr (by simp [mayRaise]))
  · exact .hangs ((Traffic.refl _ s).read hun) rfl

theorem capture_ends {s t : State} (h : execCapture s = .next t) : Ends .capture s t := by
  have start : Traffic [] s s.captureStart .idle false := (Traffic.refl [] s).onBlock
  rcases execCapture_cases (P := fun _ u => Traffic [] s u .idle false) h (fun _ => start)
    (fun _ _ _ hu _ hok => (hu.read hok).onBlock) with
    ⟨_, rfl⟩ | ⟨_, c, u, hu, ⟨_, rfl⟩ | ⟨_, e, herr, rfl⟩ | ⟨_, hun, rfl⟩⟩
  · exact .rejected .badState (by decide) (by decide) (by simp [mayRaise])
  · exact .answers _ _ hu.onBlock
  · exact .fails e _ (hu.read herr).onBlock (readErr_mem_mayRaise herr (by simp [mayRaise]))
  · exact .hangs (hu.read hun) rfl

theorem host_ends {i : Instr} {s t : State} (hi : i.family = .hostAccess) (h : exec i s = .next t) : Ends i s t := by
  have hraise : ErrCode.badOperand ∈ mayRaise i := by cases i <;> simp [Instr.family, mayRaise] at hi ⊢
  rcases execHost_cases hi h with ⟨v, rfl⟩ | rfl | ⟨k, hk, v, rfl, rfl⟩
  · exact .answers 0 v (Traffic.refl _ s)
  · exact .rejected .badOperand (by decide) (by decide) hraise
  · exact .answers 0 0 (Traffic.refl _ s).onBlock

/-- Every command that answers a next state ends in one of the four ways. -/
theorem exec_ends {i : Instr} {s t : State} (h : exec i s = .next t) : Ends i s t := by
  cases i with
  | brd addr n => exact brd_ends h
  | bwr addr n => exact bwr_ends h
  | dec n => exact (codec_ends (.inl h)).1
  | enc n => exact (codec_ends (.inr h)).2
  | rdreg addr => exact rdreg_ends h
  | wrreg addr => exact wrreg_ends h
  | init => exact init_ends h
  | poll => exact poll_ends h
  | capture => exact capture_ends h
  | ldx | rdx | rdfb | rdcsr => exact host_ends rfl h

end Sys2Proof.Machine
end

section
/-! PROOFS. What holds of every command by the way it ended: responses, errors and the bus record (30_encoding.md R90,
R93, 60_exceptions.md R233, R234, 40_bus_transport.md R122, R124), and the reference device's memory
(20_memory.md R71). -/

namespace Sys2Proof.Machine

theorem BusErr.code_isBusErr (e : BusErr) : e.code.IsBusErr := by
  cases e <;> simp [BusErr.code, ErrCode.IsBusErr]

/-! ### The one response of a command, given the work before it -/

/-- A command gives one response only. -/
theorem response_unique {s t : State} {a r : Response} (ha : t.rsps = s.rsps ++ [a]) (hr : t.rsps = s.rsps ++ [r]) :
    r = a := by
  rw [ha, List.append_cancel_left_eq, List.singleton_inj] at hr
  exact hr.symm

theorem no_response {s t : State} {r : Response} (h : t.rsps = s.rsps) : t.rsps ≠ s.rsps ++ [r] := by
  rw [h]
  simp

section
variable {cells : List Nat} {s u : State} {phase : BusPhase} {refusal : Bool} {aux : Byte} {r : Response}
  (h : Traffic cells s u phase refusal)
include h

theorem Traffic.response_of_respond {data : Word} (hr : (u.respond aux data).rsps = s.rsps ++ [r]) :
    r = ⟨.ok, aux, data⟩ :=
  response_unique (by rw [respond_rsps, h.rsps]) hr

theorem Traffic.response_of_raise {e : ErrCode} (hr : (u.raise e aux).rsps = s.rsps ++ [r]) : r = ⟨e, aux, 0⟩ :=
  response_unique (by rw [raise_rsps, h.rsps]) hr

/-- A command that hangs gives no response. -/
theorem Traffic.no_response_of_stall : u.stall.rsps ≠ s.rsps ++ [r] := no_response h.rsps

end

/-! ### The obligations -/

/-- Settles O48: of the four ends three respond, an error with data 0, and a hang does not. -/
theorem oneResponsePerCommand : Obligations.OneResponsePerCommand := by
  intro i s t h
  cases exec_ends h with
  | answers aux data traffic =>
    exact .inl ⟨traffic.link, ⟨.ok, aux, data⟩, by rw [respond_rsps, traffic.rsps], fun hne => absurd rfl hne⟩
  | rejected e _ _ _ => exact .inl ⟨rfl, ⟨e, 0, 0⟩, rfl, fun _ => rfl⟩
  | fails e aux traffic _ => exact .inl ⟨traffic.link, ⟨e.code, aux, 0⟩, by rw [raise_rsps, traffic.rsps], fun _ => rfl⟩
  | hangs traffic hbus => exact .inr ⟨rfl, traffic.rsps, hbus⟩

/-- Settles O49: a command answers OK, or is rejected or fails with an error of its row of the table. -/
theorem errorsOfTheTable : Obligations.ErrorsOfTheTable := by
  intro i s t r h hr
  cases exec_ends h with
  | answers aux data traffic => exact .inl (traffic.response_of_respond hr ▸ rfl)
  | rejected e _ _ htable => exact .inr ((Traffic.refl [] s).response_of_raise hr ▸ htable)
  | fails e aux traffic htable => exact .inr (traffic.response_of_raise hr ▸ htable)
  | hangs traffic _ => exact absurd hr traffic.no_response_of_stall

/-- Settles O50: a command answers a bus error exactly when its last transaction failed, and only that one was refused a
byte. -/
theorem noFailureIsHidden : Obligations.NoFailureIsHidden := by
  intro i s t r h hr
  cases exec_ends h with
  | answers aux data traffic =>
    obtain ⟨es, hbus, _, hrefusal⟩ := traffic.record
    rw [traffic.response_of_respond hr]
    exact ⟨es, hbus, by simp [hrefusal]⟩
  | rejected e _ hcommand _ =>
    rw [(Traffic.refl [] s).response_of_raise hr]
    exact ⟨[], by simp, by simp, fun hbus => absurd hbus hcommand⟩
  | fails e aux traffic _ =>
    obtain ⟨es, hbus, _, hrefusal⟩ := traffic.record
    rw [traffic.response_of_raise hr]
    exact ⟨es, hbus, fun _ => e.code_isBusErr, fun _ => hrefusal.mpr rfl⟩
  | hangs traffic _ => exact absurd hr traffic.no_response_of_stall

/-- Settles O51: the transactions of a command that ended left the bus free, and only a hang leaves one open. -/
theorem busTransactionsComplete : Obligations.BusTransactionsComplete := by
  intro i s t hl h
  cases exec_ends h with
  | answers aux data traffic =>
    obtain ⟨es, hbus, hphase, _⟩ := traffic.record
    exact ⟨es, hbus, .inl ⟨traffic.link.trans hl, hphase⟩⟩
  | rejected => exact ⟨[], by simp, .inl ⟨hl, rfl⟩⟩
  | fails e aux traffic _ =>
    obtain ⟨es, hbus, hphase, _⟩ := traffic.record
    exact ⟨es, hbus, .inl ⟨traffic.link.trans hl, hphase⟩⟩
  | hangs traffic _ =>
    obtain ⟨es, hbus, hphase, _⟩ := traffic.record
    exact ⟨es, hbus, .inr ⟨rfl, hphase⟩⟩

/-- What a device becomes by a command: its writes stay within the command's cells, and a command that answers an error,
unless it is `INIT`, stored nothing. -/
theorem exec_serves {i : Instr} {s t : State} (h : exec i s = .next t) :
    Serves s.params (storedCells i s.params) s.dev t.dev ∧
      ∀ q, t.rsps = s.rsps ++ [q] → q.err ≠ .ok → i ≠ .init → Serves s.params [] s.dev t.dev := by
  cases exec_ends h with
  | answers aux data traffic =>
    exact ⟨traffic.dev, fun q hq herr => absurd (traffic.response_of_respond hq ▸ rfl) herr⟩
  | rejected => exact ⟨.untouched, fun _ _ _ _ => .untouched⟩
  | fails e aux traffic _ =>
    refine ⟨traffic.dev.mono fun a ha => ?_, fun _ _ _ hi => ?_⟩
    · rw [cellsBeforeFailure] at ha
      split at ha
      · exact ha
      · exact absurd ha List.not_mem_nil
    · have hnone : cellsBeforeFailure i s.params = [] := if_neg hi
      exact hnone ▸ traffic.dev
  | hangs traffic _ => exact ⟨traffic.dev, fun q hq => absurd hq traffic.no_response_of_stall⟩

/-- Settles O56: what the transactions of the command make of the reference device. -/
theorem referenceMemoryFrame : Obligations.ReferenceMemoryFrame := by
  intro i s t r hdev h
  obtain ⟨hserves, hfailed⟩ := exec_serves h
  rw [hdev] at hserves hfailed
  obtain ⟨r', hr', hbytes, _⟩ := hserves.mem_reference
  refine ⟨r', hr', hbytes, fun q hq herr hi => ?_⟩
  obtain ⟨r'', hr'', _, hmem⟩ := (hfailed q hq herr hi).mem_reference
  rw [hr', Device.reference.injEq] at hr''
  rw [hr'', hmem rfl]

end Sys2Proof.Machine
end

section
/-! PROOFS. What a command writes (10_state.md R22), the transitions of STATE (R27), and the invariant of a run. -/

namespace Sys2Proof.Machine

/-! ### What a command writes of the block and of what stands around it -/

/-- Every piece of state that the command changed is one it may write (10_state.md R22, 44_host_access.md R204,
40_bus_transport.md R129). -/
structure WritesOwn (i : Instr) (s t : State) : Prop where
  x : ∀ k : Fin 32, t.x[k] ≠ s.x[k] → mayWriteX i k.val = true
  cfg : t.cfg ≠ s.cfg → i = .init
  stat : t.stat ≠ s.stat → i = .poll
  capture : t.row ≠ s.row ∨ t.elapsed ≠ s.elapsed ∨ t.fb ≠ s.fb ∨ t.draws ≠ s.draws → i = .capture
  ctl : t.ctl ≠ s.ctl → i = .init ∨ i = .poll ∨ i = .capture
  bus : t.bus ≠ s.bus ∨ t.dev ≠ s.dev ∨ t.link ≠ s.link → usesBus i = true
  params : t.params = s.params
  inputs : t.inputs = s.inputs

/-- A command that wrote nothing but words of X it may write, its response and, if it uses the bus, the bus. -/
theorem writesOwn_of_x {i : Instr} {s t : State} (hx : ∀ k : Fin 32, t.x[k] ≠ s.x[k] → mayWriteX i k.val = true)
    (hbus : t.bus ≠ s.bus ∨ t.dev ≠ s.dev ∨ t.link ≠ s.link → usesBus i = true)
    (hrest : { t with x := s.x, rsps := s.rsps, bus := s.bus, dev := s.dev, link := s.link } = s := by rfl) :
    WritesOwn i s t := by
  rw [State.mk.injEq] at hrest
  obtain ⟨_, hctl, hcfg, hstat, hrow, helapsed, hfb, _, hinputs, _, _, _, hdraws, hparams⟩ := hrest
  exact ⟨hx, absurd hcfg, absurd hstat, by simp [hrow, helapsed, hfb, hdraws], absurd hctl, hbus, hparams, hinputs⟩

/-- A command that wrote nothing but its response and, if it uses the bus, the bus. -/
theorem writesOwn_of_bus {i : Instr} {s t : State}
    (hbus : t.bus ≠ s.bus ∨ t.dev ≠ s.dev ∨ t.link ≠ s.link → usesBus i = true)
    (hx : t.x = s.x := by rfl)
    (hrest : { t with x := s.x, rsps := s.rsps, bus := s.bus, dev := s.dev, link := s.link } = s := by rfl) :
    WritesOwn i s t :=
  writesOwn_of_x (fun _ hk => absurd (by rw [hx]) hk) hbus hrest

/-! ### Command by command -/

theorem brd_writesOwn {addr : Word} {n : Nat} {s t : State} (h : execBrd addr n s = .next t) :
    WritesOwn (.brd addr n) s t := by
  rcases execBrd_cases h with ⟨_, rfl⟩ | ⟨_, q, rfl, ⟨ws, hok, rfl⟩ | ⟨e, _, rfl⟩ | ⟨_, rfl⟩⟩
  · exact writesOwn_of_bus fun _ => rfl
  · refine writesOwn_of_x (fun k hk => decide_eq_true ?_) fun _ => rfl
    by_contra hge
    have hlen : ws.length ≤ k.val := by rw [memRead_length hok]; omega
    simp [hlen] at hk
  · exact writesOwn_of_bus fun _ => rfl
  · exact writesOwn_of_bus fun _ => rfl

theorem bwr_writesOwn {addr : Word} {n : Nat} {s t : State} (h : execBwr addr n s = .next t) :
    WritesOwn (.bwr addr n) s t := by
  rcases execBwr_cases h with ⟨_, rfl⟩ | ⟨_, q, rfl, ⟨_, rfl⟩ | ⟨e, _, rfl⟩ | ⟨_, rfl⟩⟩ <;>
    exact writesOwn_of_bus fun _ => rfl

theorem codec_writesOwn {n : Nat} {s t : State} (h : execDec n s = .next t ∨ execEnc n s = .next t) :
    WritesOwn (.dec n) s t ∧ WritesOwn (.enc n) s t := by
  rcases execDec_cases h with ⟨_, rfl⟩ | ⟨_, rfl⟩
  · exact ⟨writesOwn_of_bus (by simp), writesOwn_of_bus (by simp)⟩
  · have hx (k : Fin 32) (hk : (s.swapX n).x[k] ≠ s.x[k]) : decide (k.val < n) = true := by
      refine decide_eq_true (by_contra fun hge => hk ?_)
      exact (swapBuffer_getElem s.x n k.val k.isLt).trans (if_neg hge)
    exact ⟨writesOwn_of_x hx (by simp), writesOwn_of_x hx (by simp)⟩

/-- A word of X that a write of `X[i]` changed is `X[i]`. -/
theorem eq_of_set_ne {x : Vector Word 32} {i : Nat} (hi : i < 32) {v : Word} {k : Fin 32}
    (h : (x.set i v hi)[k] ≠ x[k]) : k.val = i := by
  by_contra hne
  exact h (Vector.getElem_set_ne hi k.isLt (Ne.symm hne))

theorem rdreg_writesOwn {addr : Word} {s t : State} (h : execRdreg addr s = .next t) : WritesOwn (.rdreg addr) s t := by
  obtain ⟨q, rfl, ⟨w, _, rfl⟩ | ⟨e, _, rfl⟩ | ⟨_, rfl⟩⟩ := execRdreg_cases h
  · exact writesOwn_of_x (fun k hk => beq_iff_eq.mpr (eq_of_set_ne (by decide) hk)) fun _ => rfl
  · exact writesOwn_of_bus fun _ => rfl
  · exact writesOwn_of_bus fun _ => rfl

theorem wrreg_writesOwn {addr : Word} {s t : State} (h : execWrreg addr s = .next t) : WritesOwn (.wrreg addr) s t := by
  obtain ⟨q, rfl, ⟨_, rfl⟩ | ⟨e, _, rfl⟩ | ⟨_, rfl⟩⟩ := execWrreg_cases h <;> exact writesOwn_of_bus fun _ => rfl

theorem init_writesOwn {s t : State} (h : execInit s = .next t) : WritesOwn .init s t := by
  obtain ⟨q, rfl, ⟨_, r, rfl, ⟨w, _, rfl⟩ | ⟨e, _, rfl⟩ | ⟨_, rfl⟩⟩ | ⟨e, _, rfl⟩ | ⟨_, rfl⟩⟩ := execInit_cases h <;>
    constructor <;> simp [State.initStart, usesBus]

theorem poll_writesOwn {s t : State} (h : execPoll s = .next t) : WritesOwn .poll s t := by
  rcases execPoll_cases h with
    ⟨_, rfl⟩ | ⟨_, q, rfl, ⟨w, _, ⟨_, a, r, _, rfl, hend⟩ | ⟨_, rfl⟩⟩ | ⟨e, _, rfl⟩ | ⟨_, rfl⟩⟩
  · exact writesOwn_of_bus fun _ => rfl
  · rcases hend with ⟨_, rfl⟩ | ⟨e, _, rfl⟩ | ⟨_, rfl⟩ <;> constructor <;> simp [State.withStat, usesBus]
  · constructor <;> simp [State.withStat, usesBus]
  · exact writesOwn_of_bus fun _ => rfl
  · exact writesOwn_of_bus fun _ => rfl

theorem capture_writesOwn {s t : State} (h : execCapture s = .next t) : WritesOwn .capture s t := by
  rcases execCapture_cases
    (P := fun _ u => u.cfg = s.cfg ∧ u.stat = s.stat ∧ u.params = s.params ∧ u.inputs = s.inputs) h
    (fun _ => ⟨rfl, rfl, rfl, rfl⟩) (fun _ _ _ hu _ _ => hu) with
    ⟨_, rfl⟩ | ⟨_, c, u, ⟨hcfg, hstat, hparams, hinputs⟩, ⟨_, rfl⟩ | ⟨_, e, _, rfl⟩ | ⟨_, _, rfl⟩⟩
  · exact writesOwn_of_bus fun _ => rfl
  all_goals constructor <;> simp [State.toIdle, usesBus, mayWriteX, hcfg, hstat, hparams, hinputs]

theorem host_writesOwn {i : Instr} {s t : State} (hi : i.family = .hostAccess) (h : exec i s = .next t) :
    WritesOwn i s t := by
  rcases execHost_cases hi h with ⟨v, rfl⟩ | rfl | ⟨k, hk, v, rfl, rfl⟩
  · exact writesOwn_of_bus (by simp)
  · exact writesOwn_of_bus (by simp)
  · exact writesOwn_of_x (fun j hj => beq_iff_eq.mpr (eq_of_set_ne hk hj)) (by simp)

theorem exec_writesOwn {i : Instr} {s t : State} (h : exec i s = .next t) : WritesOwn i s t := by
  cases i with
  | brd addr n => exact brd_writesOwn h
  | bwr addr n => exact bwr_writesOwn h
  | dec n => exact (codec_writesOwn (.inl h)).1
  | enc n => exact (codec_writesOwn (.inr h)).2
  | rdreg addr => exact rdreg_writesOwn h
  | wrreg addr => exact wrreg_writesOwn h
  | init => exact init_writesOwn h
  | poll => exact poll_writesOwn h
  | capture => exact capture_writesOwn h
  | ldx | rdx | rdfb | rdcsr => exact host_writesOwn rfl h

/-- Settles O44, command by command. -/
theorem whoWritesWhat : Obligations.WhoWritesWhat := by
  intro i s t h
  obtain ⟨hx, hcfg, hstat, hcapture, hctl, hbus, hparams, hinputs⟩ := exec_writesOwn h
  exact ⟨hx, hcfg, hstat, hcapture, hctl, hbus, hparams, hinputs⟩

/-! ### The transitions of STATE (10_state.md R27) -/

@[simp] theorem BusErr.code_ne_ok (e : BusErr) : e.code ≠ .ok := by
  cases e <;> simp [BusErr.code]

theorem init_ctl {s t : State} {r : Response} (h : execInit s = .next t) (hr : t.rsps = s.rsps ++ [r]) :
    t.ctl = if r.err = .ok then .configured else .uninit := by
  obtain ⟨q, rfl, ⟨_, q', rfl, ⟨w, _, rfl⟩ | ⟨e, _, rfl⟩ | ⟨_, rfl⟩⟩ | ⟨e, _, rfl⟩ | ⟨_, rfl⟩⟩ := execInit_cases h
  · rw [response_unique rfl hr]; rfl
  · rw [response_unique rfl hr, if_neg e.code_ne_ok]; rfl
  · exact absurd hr (no_response rfl)
  · rw [response_unique rfl hr, if_neg e.code_ne_ok]; rfl
  · exact absurd hr (no_response rfl)

theorem poll_ctl {s t : State} {r : Response} (h : execPoll s = .next t) (hr : t.rsps = s.rsps ++ [r]) :
    t.ctl = if r.err = .ok then .idle else s.ctl := by
  rcases execPoll_cases h with
    ⟨_, rfl⟩ | ⟨_, q, rfl, ⟨w, _, ⟨_, a, q', _, rfl, hend⟩ | ⟨_, rfl⟩⟩ | ⟨e, _, rfl⟩ | ⟨_, rfl⟩⟩
  · rw [response_unique rfl hr]; rfl
  · rcases hend with ⟨_, rfl⟩ | ⟨e, _, rfl⟩ | ⟨_, rfl⟩
    · rw [response_unique rfl hr]; rfl
    · rw [response_unique rfl hr, if_neg e.code_ne_ok]; rfl
    · exact absurd hr (no_response rfl)
  · rw [response_unique rfl hr]; rfl
  · rw [response_unique rfl hr, if_neg e.code_ne_ok]; rfl
  · exact absurd hr (no_response rfl)

theorem capture_ctl {s t : State} {r : Response} (h : execCapture s = .next t) (hr : t.rsps = s.rsps ++ [r]) :
    t.ctl = if s.ctl = .uninit then .uninit else .idle := by
  rcases execCapture_cases (P := fun _ u => u.rsps = s.rsps) h (fun _ => rfl) (fun _ _ _ hu _ _ => hu) with
    ⟨hc, rfl⟩ | ⟨hc, c, u, hu, ⟨_, rfl⟩ | ⟨_, e, _, rfl⟩ | ⟨_, _, rfl⟩⟩
  · rw [if_pos hc]; exact hc
  · rw [if_neg hc]; rfl
  · rw [if_neg hc]; rfl
  · exact absurd hr (no_response hu)

/-- Settles O45: the three commands of the controller, each by how it ended; no other command writes STATE. -/
theorem controllerTransitions : Obligations.ControllerTransitions := by
  intro i s t r h hr
  refine ⟨fun hi => ?init, fun hi => ?poll, fun hi => ?capture, fun hi hp hc => ?other⟩
  case init => subst hi; exact init_ctl h hr
  case poll => subst hi; exact poll_ctl h hr
  case capture => subst hi; exact capture_ctl h hr
  case other =>
    by_contra hne
    rcases (exec_writesOwn h).ctl hne with rfl | rfl | rfl
    · exact hi rfl
    · exact hp rfl
    · exact hc rfl

/-! ### The invariant -/

/-- STATE is CAPTURING after a command only if it was before, or the command hung (10_state.md R28). -/
theorem ctl_ne_capturing {i : Instr} {s t : State} (h : exec i s = .next t) (hs : s.ctl ≠ .capturing)
    (hl : t.link ≠ .stalled) : t.ctl ≠ .capturing := by
  obtain ⟨_, r, hr, _⟩ | ⟨hstalled, _⟩ := oneResponsePerCommand i s t h
  · obtain ⟨hinit, hpoll, hcapture, hother⟩ := controllerTransitions i s t r h hr
    by_cases hi : i = .init
    · rw [hinit hi]; split <;> simp
    by_cases hp : i = .poll
    · rw [hpoll hp]; split <;> simp [hs]
    by_cases hc : i = .capture
    · rw [hcapture hc]; split <;> simp
    · rw [hother hi hp hc]; exact hs
  · exact absurd hstalled hl

/-- The word that a `POLL` latches has the flag clear (10_state.md R25). -/
theorem poll_newData {s t : State} (h : execPoll s = .next t) (hv : s.params.statLayout.Valid)
    (hs : statNewData s.params.statLayout s.stat = 0) : statNewData s.params.statLayout t.stat = 0 := by
  rcases execPoll_cases h with
    ⟨_, rfl⟩ | ⟨_, q, rfl, ⟨w, _, ⟨_, a, q', rfl, rfl, hend⟩ | ⟨hw, rfl⟩⟩ | ⟨e, _, rfl⟩ | ⟨_, rfl⟩⟩
  · exact hs
  · rcases hend with ⟨_, rfl⟩ | ⟨e, _, rfl⟩ | ⟨_, rfl⟩ <;> exact statNewData_statAck hv _
  · exact statNewData_eq_zero hv hw
  · exact hs
  · exact hs

/-- ROW is at most 25 after a `CAPTURE`: a row below 24 is stepped by 2 (10_state.md R24). -/
theorem capture_row {s t : State} (h : execCapture s = .next t) (hv : s.params.Valid) (hs : s.row.toNat ≤ 25) :
    t.row.toNat ≤ 25 := by
  have hstart : s.captureStart.row.toNat ≤ 25 := by
    have := subpage_lt hv
    rw [captureStart_row hv]
    omega
  have hstep (c : Nat) (u : State) (ws : List Word) (_ : u.row.toNat ≤ 25) (hlt : u.row.toNat < 24)
      (_ : u.rowRead.result = .ok ws) : ((u.afterTxn u.rowRead).takeRow ws).row.toNat ≤ 25 := by
    rw [takeRow_row, afterTxn_row, BitVec.toNat_add, show (2 : BitVec 5).toNat = 2 from rfl]
    omega
  rcases execCapture_cases h (fun _ => hstart) hstep with
    ⟨_, rfl⟩ | ⟨_, c, u, hu, ⟨_, rfl⟩ | ⟨_, e, _, rfl⟩ | ⟨_, _, rfl⟩⟩
  · exact hs
  all_goals exact hu

/-- A command that the block takes keeps the invariant. -/
theorem exec_inv {i : Instr} {s t : State} (hinv : s.Inv) (hl : s.link ≠ .stalled) (h : exec i s = .next t) :
    t.Inv := by
  obtain ⟨hvalid, hrow, hctl, hstat, hdev, hinputs⟩ := hinv
  have writes := exec_writesOwn h
  refine ⟨?params, ?row, ?ctl, ?stat, ?dev, ?inputs⟩
  case params => rw [writes.params]; exact hvalid
  case row =>
    by_cases hc : i = .capture
    · subst hc; exact capture_row h hvalid hrow
    · have hsame : t.row = s.row := by by_contra hne; exact hc (writes.capture (.inl hne))
      rw [hsame]; exact hrow
  case ctl =>
    intro hcapturing
    by_contra hne
    exact ctl_ne_capturing h (fun hc => hl (hctl hc)) hne hcapturing
  case stat =>
    rw [writes.params]
    by_cases hp : i = .poll
    · subst hp; exact poll_newData h hvalid.2 hstat
    · have hsame : t.stat = s.stat := by by_contra hne; exact hp (writes.stat hne)
      rw [hsame]; exact hstat
  case dev => exact (exec_serves h).1.wf hdev
  case inputs => rw [writes.inputs]; exact hinputs

/-- The invariant of a state does not depend on its responses. -/
theorem raise_inv {s : State} {e : ErrCode} {aux : Byte} (h : s.Inv) : (s.raise e aux).Inv := h

theorem runCommand_inv {w : Word32} {s t : State} (hinv : s.Inv) (hl : s.link ≠ .stalled)
    (h : runCommand w s = .next t) : t.Inv := by
  unfold runCommand at h
  split at h
  · exact exec_inv hinv hl h
  · cases h; exact raise_inv hinv

theorem dropInput_inv {s : State} (h : s.Inv) : s.dropInput.Inv := by
  obtain ⟨hvalid, hrow, hctl, hstat, hdev, hinputs⟩ := h
  exact ⟨hvalid, hrow, hctl, hstat, hdev, fun i hi => hinputs i (List.mem_of_mem_tail hi)⟩

theorem applyReset_inv {s : State} (h : s.Inv) : s.applyReset.Inv := by
  obtain ⟨hvalid, _, _, _, hdev, hinputs⟩ := h
  exact ⟨hvalid, by simp, by simp, getField_zero _, hdev, hinputs⟩

theorem connect_inv {s : State} {d : Device} (h : s.Inv) (hd : d.wf = true) : (s.connect d).Inv := by
  obtain ⟨hvalid, hrow, hctl, hstat, _, hinputs⟩ := h
  refine ⟨hvalid, hrow, fun hc => ?_, hstat, hd, hinputs⟩
  rw [connect_link, hctl hc]
  rfl

/-- Settles O12, by what the outside does next. -/
theorem stepKeepsInvariant : Obligations.StepKeepsInvariant := by
  intro s t hinv h
  unfold step at h
  split at h
  case h_1 => cases h; exact hinv
  case h_2 => cases h; exact applyReset_inv (dropInput_inv hinv)
  case h_3 d rest hin =>
    cases h
    have hd : d.wf = true := by
      obtain ⟨_, _, _, _, _, hinputs⟩ := hinv
      exact hinputs (.device d) (by simp [hin])
    exact connect_inv (dropInput_inv hinv) hd
  case h_4 w rest hin =>
    split at h
    · cases h; exact hinv
    · exact runCommand_inv (dropInput_inv hinv) ‹_› h

end Sys2Proof.Machine
end

section
/-! PROOFS. Which commands STATE matters to (10_state.md R28, 40_bus_transport.md R129, 41_register_codec.md R152,
44_host_access.md R204). -/

namespace Sys2Proof.Machine

/-! ### A change of STATE passed through accesses and commands -/

/-- The state with STATE replaced. -/
def State.withCtl (c : Ctl) (s : State) : State := { s with ctl := c }

/-- The access with its state changed. -/
def Access.mapState {α : Type} (f : State → State) : Access α → Access α
  | .ok a s => .ok a (f s)
  | .err e s => .err e (f s)
  | .stalled s => .stalled (f s)
  | .undefinedBus => .undefinedBus

/-- The outcome with its next state, if it has one, changed. -/
def mapNext (f : State → State) : Host.Outcome State Fault Refusal → Host.Outcome State Fault Refusal
  | .next s => .next (f s)
  | .fault r => .fault r
  | .refused r => .refused r

theorem mapNext_id (o : Host.Outcome State Fault Refusal) : mapNext id o = o := by cases o <;> rfl

theorem mapNext_eq_next {f : State → State} {o : Host.Outcome State Fault Refusal} {t : State}
    (h : mapNext f o = .next t) : ∃ u, o = .next u ∧ f u = t := by
  cases o with
  | next u => cases h; exact ⟨u, rfl, rfl⟩
  | fault r => cases h
  | refused r => cases h

section
variable (c : Ctl) (s : State) (addr : Word)

theorem ofTxn_withCtl {α : Type} (q : Txn α) :
    Access.ofTxn q (s.withCtl c) = (Access.ofTxn q s).mapState (State.withCtl c) := by
  unfold Access.ofTxn
  cases q.result <;> rfl

/-- An access does not read STATE (40_bus_transport.md R129). -/
theorem busRead_withCtl (n : Nat) : busRead addr n (s.withCtl c) = (busRead addr n s).mapState (State.withCtl c) := by
  unfold busRead
  simp only [show (s.withCtl c).link = s.link from rfl]
  split
  · rfl
  · exact ofTxn_withCtl c s _

theorem busWrite_withCtl (ws : List Word) :
    busWrite addr ws (s.withCtl c) = (busWrite addr ws s).mapState (State.withCtl c) := by
  unfold busWrite
  simp only [show (s.withCtl c).link = s.link from rfl]
  split
  · rfl
  · exact ofTxn_withCtl c s _

theorem regRead_withCtl : regRead addr (s.withCtl c) = (regRead addr s).mapState (State.withCtl c) := by
  unfold regRead
  rw [busRead_withCtl]
  cases busRead addr 1 s <;> rfl

theorem regWrite_withCtl (v : Word) : regWrite addr v (s.withCtl c) = (regWrite addr v s).mapState (State.withCtl c) :=
  busWrite_withCtl c s addr _

end

/-- A command that goes on alike after an access, up to the changes `k` and `l` of its next state, acts alike. -/
theorem andThen_mapState {α : Type} {a : Access α} {j k l : State → State}
    {f : α → State → Host.Outcome State Fault Refusal} {g : BusErr → State → Host.Outcome State Fault Refusal}
    (hf : ∀ v u, mapNext k (f v (j u)) = mapNext l (f v u)) (hg : ∀ e u, mapNext k (g e (j u)) = mapNext l (g e u))
    (hs : ∀ u, k (j u).stall = l u.stall) : mapNext k ((a.mapState j).andThen f g) = mapNext l (a.andThen f g) := by
  cases a with
  | ok v u => exact hf v u
  | err e u => exact hg e u
  | stalled u => exact congrArg Host.Outcome.next (hs u)
  | undefinedBus => rfl

/-- A command that passes a change of STATE through what it does after an access passes it through. -/
theorem andThen_withCtl {α : Type} {a : Access α} {c : Ctl}
    {f : α → State → Host.Outcome State Fault Refusal} {g : BusErr → State → Host.Outcome State Fault Refusal}
    (hf : ∀ v u, f v (u.withCtl c) = mapNext (State.withCtl c) (f v u))
    (hg : ∀ e u, g e (u.withCtl c) = mapNext (State.withCtl c) (g e u)) :
    (a.mapState (State.withCtl c)).andThen f g = mapNext (State.withCtl c) (a.andThen f g) := by
  have h := andThen_mapState (a := a) (j := State.withCtl c) (k := id) (l := State.withCtl c)
    (fun v u => (mapNext_id _).trans (hf v u)) (fun e u => (mapNext_id _).trans (hg e u)) (fun _ => rfl)
  rwa [mapNext_id] at h

/-! ### The commands that do not read STATE -/

/-- Only register 0 of the index table is STATE (10_state.md R38). -/
theorem csr_withCtl {i : Nat} (hi : i ≠ 0) (c : Ctl) (s : State) : csr i (s.withCtl c) = csr i s := by
  unfold csr
  split
  case h_1 => exact absurd rfl hi
  all_goals rfl

/-- A transport, codec, register access or host access command, other than `RDCSR 0`, acts alike in every STATE and
leaves it. -/
theorem exec_withCtl {i : Instr} (hfamily : i.family ≠ .controller) (hi : i ≠ .rdcsr 0) (c : Ctl) (s : State) :
    exec i (s.withCtl c) = mapNext (State.withCtl c) (exec i s) := by
  cases i with
  | brd addr n =>
    simp only [exec, execBrd]
    split
    · rw [busRead_withCtl]
      exact andThen_withCtl (fun _ _ => rfl) (fun _ _ => rfl)
    · rfl
  | bwr addr n =>
    simp only [exec, execBwr]
    split
    · rw [busWrite_withCtl]
      exact andThen_withCtl (fun _ _ => rfl) (fun _ _ => rfl)
    · rfl
  | dec n => simp only [exec, execDec]; split <;> rfl
  | enc n => simp only [exec, execEnc]; split <;> rfl
  | rdreg addr =>
    simp only [exec, execRdreg]
    rw [regRead_withCtl]
    exact andThen_withCtl (fun _ _ => rfl) (fun _ _ => rfl)
  | wrreg addr =>
    simp only [exec, execWrreg]
    rw [regWrite_withCtl]
    exact andThen_withCtl (fun _ _ => rfl) (fun _ _ => rfl)
  | init | poll | capture => exact absurd rfl hfamily
  | ldx k v => simp only [exec, execLdx]; split <;> rfl
  | rdx k => simp only [exec, execRdx]; split <;> rfl
  | rdfb r k => simp only [exec, execRdfb]; split <;> rfl
  | rdcsr k =>
    have hk : k ≠ 0 := fun h => hi (h ▸ rfl)
    simp only [exec, execRdcsr, csr_withCtl hk]
    split <;> rfl

/-- Settles O47: the four families pass a change of STATE through, and none of their commands writes it. -/
theorem leafCommandsIgnoreState : Obligations.LeafCommandsIgnoreState := by
  intro i s t c hfamily h
  have hleaf : i.family ≠ .controller := by
    rcases hfamily with h | h | h | h <;> rw [h] <;> decide
  refine ⟨?kept, fun hi => ?alike⟩
  case kept =>
    by_contra hne
    rcases (exec_writesOwn h).ctl hne with rfl | rfl | rfl <;> exact hleaf rfl
  case alike => exact (exec_withCtl hleaf hi c s).trans (congrArg (mapNext _) h)

/-! ### CONFIGURED and IDLE -/

/-- `POLL` after its state check acts alike in every STATE, up to the STATE it leaves. -/
theorem pollStatus_withCtl (c : Ctl) (s : State) :
    mapNext (State.withCtl .idle) (pollStatus (s.withCtl c)) = mapNext (State.withCtl .idle) (pollStatus s) := by
  unfold pollStatus
  rw [show (s.withCtl c).params = s.params from rfl, regRead_withCtl]
  refine andThen_mapState (fun v u => ?_) (fun _ _ => rfl) (fun _ => rfl)
  dsimp only [State.withCtl]
  split
  · have hwrite := regWrite_withCtl c (u.withStat (statAck u.params.statLayout v)) u.params.addrStatus
      (statAck u.params.statLayout v)
    exact (congrArg (fun a => mapNext _ (Access.andThen a _ _)) hwrite).trans
      (andThen_mapState (fun _ _ => rfl) (fun _ _ => rfl) (fun _ => rfl))
  · rfl

/-- Every command but `RDCSR 0` acts alike in every STATE but UNINIT, up to the STATE it leaves. -/
theorem exec_withCtl_of_ne_uninit {i : Instr} (hi : i ≠ .rdcsr 0) (s : State) {c d : Ctl} (hc : c ≠ .uninit)
    (hd : d ≠ .uninit) :
    mapNext (State.withCtl .idle) (exec i (s.withCtl c)) = mapNext (State.withCtl .idle) (exec i (s.withCtl d)) := by
  by_cases hfamily : i.family = .controller
  · cases i <;> simp only [Instr.family, reduceCtorEq] at hfamily
    case init => rfl
    case poll =>
      rw [exec_poll_of_ne_uninit (s := s.withCtl c) hc, exec_poll_of_ne_uninit (s := s.withCtl d) hd,
        pollStatus_withCtl, pollStatus_withCtl]
    case capture =>
      rw [exec, exec, execCapture_running (s := s.withCtl c) hc, execCapture_running (s := s.withCtl d) hd]
      rfl
  · rw [exec_withCtl hfamily hi, exec_withCtl hfamily hi]
    cases exec i s <;> rfl

/-- Settles O46: the two outcomes are the same up to STATE, so a next state of either is matched by one of the other. -/
theorem configuredIdleIndistinguishable : Obligations.ConfiguredIdleIndistinguishable := by
  intro i s hi
  have halike := exec_withCtl_of_ne_uninit hi s (c := .configured) (d := .idle) (by decide) (by decide)
  refine ⟨fun t ht => ?_, fun u hu => ?_⟩
  · obtain ⟨u, hu, heq⟩ := mapNext_eq_next (halike.symm.trans (congrArg (mapNext _) ht))
    exact ⟨u, hu, heq.symm⟩
  · obtain ⟨t, ht, heq⟩ := mapNext_eq_next (halike.trans (congrArg (mapNext _) hu))
    exact ⟨t, ht, heq⟩

end Sys2Proof.Machine
end

section
/-! PROOFS. Commands over a bus that is free, and over one that is not (93_implementation_defined.md U13, log 6). -/

namespace Sys2Proof.Machine

/-! ### Accesses over a bus that is not free -/

theorem busRead_undefined {addr : Word} {n : Nat} {s : State} (h : busRead addr n s = .undefinedBus) :
    s.link ≠ .free := by
  intro hl
  rw [busRead_free hl] at h
  exact ofTxn_ne_undefined _ _ h

theorem busWrite_undefined {addr : Word} {ws : List Word} {s : State} (h : busWrite addr ws s = .undefinedBus) :
    s.link ≠ .free := by
  intro hl
  rw [busWrite_free hl] at h
  exact ofTxn_ne_undefined _ _ h

theorem regRead_undefined {addr : Word} {s : State} (h : regRead addr s = .undefinedBus) : s.link ≠ .free := by
  unfold regRead at h
  split at h <;> simp only [reduceCtorEq] at h
  exact busRead_undefined ‹_›

/-! ### A command answers a next state, or faults for want of a free bus -/

/-- The command answers a next state, unless it uses the bus and the bus is not free, and then it may fault. -/
def NextOrFault (i : Instr) (s : State) (o : Host.Outcome State Fault Refusal) : Prop :=
  (∃ t, o = .next t) ∨ usesBus i = true ∧ s.link ≠ .free ∧ o = .fault .busUndefined

section
variable {i : Instr} {s : State}

theorem nextOrFault_next {t : State} : NextOrFault i s (.next t) := .inl ⟨t, rfl⟩

theorem nextOrFault_andThen {α : Type} {a : Access α} {f : α → State → Host.Outcome State Fault Refusal}
    {g : BusErr → State → Host.Outcome State Fault Refusal} (hi : usesBus i = true)
    (ha : a = .undefinedBus → s.link ≠ .free)
    (hf : ∀ v u, a = .ok v u → NextOrFault i s (f v u)) (hg : ∀ e u, NextOrFault i s (g e u)) :
    NextOrFault i s (a.andThen f g) := by
  cases a with
  | ok v u => exact hf v u rfl
  | err e u => exact hg e u
  | stalled u => exact nextOrFault_next
  | undefinedBus => exact .inr ⟨hi, ha rfl, rfl⟩

theorem init_nextOrFault (s : State) : NextOrFault .init s (exec .init s) := by
  rw [exec_init_eq_andThen]
  refine nextOrFault_andThen rfl (busWrite_undefined (s := s.initStart)) (fun v u hu => ?_) fun _ _ => nextOrFault_next
  obtain ⟨_, rfl⟩ := busWrite_ok hu
  exact nextOrFault_andThen rfl regRead_undefined (fun _ _ _ => nextOrFault_next) fun _ _ => nextOrFault_next

theorem poll_nextOrFault (s : State) : NextOrFault .poll s (exec .poll s) := by
  by_cases hc : s.ctl = .uninit
  · rw [exec_poll_of_uninit hc]; exact nextOrFault_next
  rw [exec_poll_of_ne_uninit hc]
  refine nextOrFault_andThen rfl regRead_undefined (fun v u hu => ?_) fun _ _ => nextOrFault_next
  obtain ⟨w, hread, rfl⟩ := regRead_ok hu
  obtain ⟨_, rfl⟩ := busRead_ok hread
  dsimp only
  split
  · exact nextOrFault_andThen rfl busWrite_undefined (fun _ _ _ => nextOrFault_next) fun _ _ => nextOrFault_next
  · exact nextOrFault_next

theorem captureRows_nextOrFault (fuel count : Nat) {u : State} (hl : u.link = s.link) :
    NextOrFault .capture s (captureRows fuel count u) := by
  induction fuel generalizing count u with
  | zero => exact nextOrFault_next
  | succ fuel ih =>
    rw [captureRows]
    split
    · refine nextOrFault_andThen rfl (fun h => hl ▸ busRead_undefined h) (fun ws v hv => ?_) fun _ _ => nextOrFault_next
      obtain ⟨_, rfl⟩ := busRead_ok hv
      exact ih _ hl
    · exact nextOrFault_next

theorem capture_nextOrFault (s : State) : NextOrFault .capture s (exec .capture s) := by
  by_cases hc : s.ctl = .uninit
  · rw [exec_capture_of_uninit hc]; exact nextOrFault_next
  · rw [exec, execCapture_running hc]; exact captureRows_nextOrFault 12 0 rfl

theorem exec_nextOrFault (i : Instr) (s : State) : NextOrFault i s (exec i s) := by
  cases i with
  | brd addr n =>
    simp only [exec, execBrd]
    split
    · exact nextOrFault_andThen rfl busRead_undefined (fun _ _ _ => nextOrFault_next) fun _ _ => nextOrFault_next
    · exact nextOrFault_next
  | bwr addr n =>
    simp only [exec, execBwr]
    split
    · exact nextOrFault_andThen rfl busWrite_undefined (fun _ _ _ => nextOrFault_next) fun _ _ => nextOrFault_next
    · exact nextOrFault_next
  | dec n => simp only [exec, execDec]; split <;> exact nextOrFault_next
  | enc n => simp only [exec, execEnc]; split <;> exact nextOrFault_next
  | rdreg addr =>
    exact nextOrFault_andThen rfl regRead_undefined (fun _ _ _ => nextOrFault_next) fun _ _ => nextOrFault_next
  | wrreg addr =>
    exact nextOrFault_andThen rfl busWrite_undefined (fun _ _ _ => nextOrFault_next) fun _ _ => nextOrFault_next
  | init => exact init_nextOrFault s
  | poll => exact poll_nextOrFault s
  | capture => exact capture_nextOrFault s
  | ldx k v => simp only [exec, execLdx]; split <;> exact nextOrFault_next
  | rdx k => simp only [exec, execRdx]; split <;> exact nextOrFault_next
  | rdfb r c => simp only [exec, execRdfb]; split <;> exact nextOrFault_next
  | rdcsr k => simp only [exec, execRdcsr]; split <;> exact nextOrFault_next

end

/-! ### A first transaction on a bus that is not free -/

section
variable {s : State} (hl : s.link ≠ .free)
include hl

theorem exec_brd_blocked {addr : Word} {n : Nat} (h0 : 0 < n) (hn : n ≤ 32) :
    exec (.brd addr n) s = .fault .busUndefined := by
  rw [exec, execBrd, if_pos hn, busRead_blocked (Nat.pos_iff_ne_zero.mp h0) hl, Access.andThen]

theorem exec_bwr_blocked {addr : Word} {n : Nat} (h0 : 0 < n) (hn : n ≤ 32) :
    exec (.bwr addr n) s = .fault .busUndefined := by
  have hws : s.firstX n ≠ [] := List.ne_nil_of_length_pos (by rw [firstX_length hn]; exact h0)
  rw [exec, execBwr, if_pos hn, busWrite_blocked hws hl, Access.andThen]

theorem exec_rdreg_blocked {addr : Word} : exec (.rdreg addr) s = .fault .busUndefined := by
  rw [exec, execRdreg, regRead_blocked hl, Access.andThen]

theorem exec_wrreg_blocked {addr : Word} : exec (.wrreg addr) s = .fault .busUndefined := by
  rw [exec, execWrreg, regWrite_blocked hl, Access.andThen]

theorem exec_init_blocked : exec .init s = .fault .busUndefined := by
  rw [exec_init_eq_andThen, regWrite_blocked (s := s.initStart) hl, Access.andThen]

theorem exec_poll_blocked (hc : s.ctl ≠ .uninit) : exec .poll s = .fault .busUndefined := by
  rw [exec_poll_of_ne_uninit hc, pollStatus, regRead_blocked hl, Access.andThen]

/-- A valid layout has a subpage below 24, so a `CAPTURE` has a first row to read. -/
theorem exec_capture_blocked (hc : s.ctl ≠ .uninit) (hv : s.params.Valid) : exec .capture s = .fault .busUndefined := by
  have hrow : s.captureStart.row.toNat < 24 := by
    have := subpage_lt hv
    rw [captureStart_row hv]
    omega
  rw [exec, execCapture_running hc, captureRows_blocked (s := s.captureStart) hl hrow]

end

/-- Settles O52: no command is refused, and a fault needs a command that uses the bus and a bus that is not free. -/
theorem commandsRunOnFreeBus : Obligations.CommandsRunOnFreeBus := by
  refine ⟨fun i s hl => ?free, fun i s r => ?notRefused, fun i s hi => ?noBus, fun addr n s hl => ?blocked⟩
  case free =>
    obtain hnext | ⟨_, hblocked, _⟩ := exec_nextOrFault i s
    · exact hnext
    · exact absurd hl hblocked
  case notRefused =>
    obtain ⟨t, hnext⟩ | ⟨_, _, hfault⟩ := exec_nextOrFault i s
    · rw [hnext]; simp
    · rw [hfault]; simp
  case noBus =>
    obtain hnext | ⟨hbus, _, _⟩ := exec_nextOrFault i s
    · exact hnext
    · rw [hi] at hbus; cases hbus
  case blocked =>
    exact ⟨fun h0 hn => ⟨exec_brd_blocked hl h0 hn, exec_bwr_blocked hl h0 hn⟩, exec_rdreg_blocked hl,
      exec_wrreg_blocked hl, exec_init_blocked hl, fun hc => ⟨exec_poll_blocked hl hc, exec_capture_blocked hl hc⟩⟩

end Sys2Proof.Machine
end

section
/-! PROOFS. CAPTURE row by row (43_sensor_controller.md R183 to R186), and every command whose transaction is never
answered (70_reset_and_hazards.md R262). -/

namespace Sys2Proof.Machine

/-! ### A capture as far as its rows are read -/

theorem rowsFrom_length {r : Nat} (h : r < 8) : (rowsFrom r).length = (25 - r) / 2 := by
  revert r; decide

/-- A capture that has read the rows `q` and is at row `r` (43_sensor_controller.md R183). -/
def State.capturingAt (s : State) (r : Nat) (q : RowReads) : State :=
  { s with
    ctl := .capturing, elapsed := Config.elapsedDraw s.draws, draws := s.draws + 1
    row := BitVec.ofNat 5 r
    x := lastRow s.x q.words
    fb := frameWith s.fb s.subpage.toNat q.words
    bus := s.bus ++ q.events, dev := q.dev }

section
variable {s : State} {pre post : List Nat} {r : Nat} {q : RowReads}

theorem capturingAt_row (h : r < 32) : (s.capturingAt r q).row.toNat = r := Nat.mod_eq_of_lt h

theorem capturingAt_rowRead (h : r < 24) :
    (s.capturingAt r q).rowRead = memRead s.params q.dev (rowAddr s.params r) 32 := by
  rw [State.rowRead, capturingAt_row (by omega)]
  rfl

variable (hv : s.params.Valid) (hl : s.link = .free) (hc : s.ctl ≠ .uninit)
  (hq : readRows s.params s.dev pre = some q)
include hv hl hc hq

/-- A capture runs through the rows that are read; the rest of its 12 iterations is left (43_sensor_controller.md
R188). -/
theorem exec_capture_read (hrows : rowsFrom s.subpage.toNat = pre ++ post) (hlen : pre.length ≤ 12) :
    exec .capture s =
        captureRows (12 - pre.length) pre.length (s.capturingAt (s.subpage.toNat + 2 * pre.length) q) ∧
      rowsFrom (s.subpage.toNat + 2 * pre.length) = post := by
  obtain ⟨hrun, hwords, hleft⟩ :=
    captureRows_read (fuel := 12 - pre.length) (count := 0) (s := s.captureStart) hl (captureStart_row hv) hrows hq
  refine ⟨?_, hleft⟩
  have hstate : s.captureStart.afterRows s.subpage.toNat q = s.capturingAt (s.subpage.toNat + 2 * pre.length) q := by
    rw [State.afterRows, hwords, captureStart_eq]
    rfl
  rw [Nat.sub_add_cancel hlen, Nat.zero_add, hstate] at hrun
  rw [exec, execCapture_running hc, hrun]

/-- A capture reaches row `r` when the rows before it are read. -/
theorem exec_capture_at (hrows : rowsFrom s.subpage.toNat = pre ++ r :: post) :
    ∃ fuel, exec .capture s = captureRows (fuel + 1) pre.length (s.capturingAt r q) ∧ r < 24 := by
  have hlt := subpage_lt hv
  have hlen : (pre ++ r :: post).length = (25 - s.subpage.toNat) / 2 := hrows ▸ rowsFrom_length hlt
  rw [List.length_append, List.length_cons] at hlen
  obtain ⟨hrun, hleft⟩ := exec_capture_read hv hl hc hq hrows (by omega)
  have h24 : s.subpage.toNat + 2 * pre.length < 24 := by omega
  rw [rowsFrom_cons h24, List.cons.injEq] at hleft
  obtain ⟨rfl, _⟩ := hleft
  exact ⟨11 - pre.length, by rw [hrun, show 11 - pre.length + 1 = 12 - pre.length by omega], h24⟩

end

/-- A capture whose rows are all read ends without error. -/
theorem exec_capture_done {s : State} {q : RowReads} (hv : s.params.Valid) (hl : s.link = .free) (hc : s.ctl ≠ .uninit)
    (hq : readRows s.params s.dev (rowsFrom s.subpage.toNat) = some q) :
    exec .capture s =
      captureDone ((25 - s.subpage.toNat) / 2) (s.capturingAt (if s.subpage.toNat % 2 = 0 then 24 else 25) q) := by
  have hlt := subpage_lt hv
  have hlen := rowsFrom_length hlt
  have hlast : s.subpage.toNat + 2 * ((25 - s.subpage.toNat) / 2) = if s.subpage.toNat % 2 = 0 then 24 else 25 := by
    split <;> omega
  obtain ⟨hrun, _⟩ := exec_capture_read hv hl hc hq (List.append_nil _).symm (by omega)
  have hrow : 24 ≤ (s.capturingAt (if s.subpage.toNat % 2 = 0 then 24 else 25) q).row.toNat := by
    rw [capturingAt_row (by split <;> omega)]
    split <;> omega
  rw [hrun, hlen, hlast, captureRows_done hrow]

/-- Settles O40: the loop ends past the last row of the subpage's parity. -/
theorem captureStoresRows : Obligations.CaptureStoresRows := by
  intro s q hv hl hc hq
  rw [exec_capture_done hv hl hc hq]
  have hrow : BitVec.ofNat 5 (if s.subpage.toNat % 2 = 0 then 24 else 25) =
      if s.subpage.toNat % 2 = 0 then (24 : BitVec 5) else 25 := by split <;> rfl
  rw [← hrow]
  rfl

/-- Settles O41: a failing read ends the loop where it stands. -/
theorem captureStopsAtFailingRow : Obligations.CaptureStopsAtFailingRow := by
  refine ⟨fun _ => exec_capture_of_uninit, fun s pre post r q es d e hv hl hc hrows hq hread => ?_⟩
  refine ⟨memRead_err (congrArg Txn.result hread), ?_⟩
  obtain ⟨fuel, hrun, h24⟩ := exec_capture_at hv hl hc hq hrows
  have hrow : (s.capturingAt r q).row.toNat = r := capturingAt_row (by omega)
  have hread' : (s.capturingAt r q).rowRead = ⟨es, d, .err e⟩ := (capturingAt_rowRead h24).trans hread
  have haux : (BitVec.ofNat 5 r).setWidth 8 = BitVec.ofNat 8 r := by
    apply BitVec.eq_of_toNat_eq
    simp only [BitVec.toNat_setWidth, BitVec.toNat_ofNat]
    omega
  rw [hrun, captureRows_err (s := s.capturingAt r q) hl (by omega) (congrArg Txn.result hread'), hread', ← haux]
  rfl

/-! ### Commands whose transaction is never answered -/

/-- A command that waits for the answer to its transaction hangs (70_reset_and_hazards.md R262). -/
theorem andThen_of_unanswered {α : Type} {es : List BusEvent} {d : Device} (s : State)
    (f : α → State → Host.Outcome State Fault Refusal) (g : BusErr → State → Host.Outcome State Fault Refusal) :
    (Access.ofTxn (⟨es, d, .unanswered⟩ : Txn α) s).andThen f g =
      .next { s with bus := s.bus ++ es, dev := d, link := .stalled } := rfl

/-- `INIT` after a read-back that is never answered. -/
theorem exec_init_of_regRead_stalled {s s₁ s₂ : State}
    (hw : regWrite s.params.addrConfig (cfgDefault s.params) s.initStart = .ok () s₁)
    (hr : regRead s₁.params.addrConfig s₁ = .stalled s₂) : exec .init s = .next s₂.stall := by
  rw [exec_init_eq_andThen, hw, Access.andThen, hr, Access.andThen]

/-- `POLL` after a write-back that is never answered. -/
theorem pollStatus_of_regWrite_stalled {s s₁ s₂ : State} {v a : Word} (hr : regRead s.params.addrStatus s = .ok v s₁)
    (hv : statNewData s₁.params.statLayout v = 1) (ha : a = statAck s₁.params.statLayout v)
    (hw : regWrite s₁.params.addrStatus a (s₁.withStat a) = .stalled s₂) : pollStatus s = .next s₂.stall := by
  rw [pollStatus_of_newData hr hv ha, hw, Access.andThen]

section
variable {s : State} {addr : Word} {n : Nat} {es es₂ : List BusEvent} {d d₂ : Device} (hl : s.link = .free)
include hl

/-- The register read of a transaction that is never answered. -/
theorem regRead_of_memRead_unanswered (h : memRead s.params s.dev addr 1 = ⟨es, d, .unanswered⟩) :
    regRead addr s = .stalled { s with bus := s.bus ++ es, dev := d } := by
  rw [regRead_free_unanswered hl (congrArg Txn.result h), h, State.afterTxn]

theorem exec_brd_hangs (hn : n ≤ 32) (h : memRead s.params s.dev addr n = ⟨es, d, .unanswered⟩) :
    exec (.brd addr n) s = .next { s with bus := s.bus ++ es, dev := d, link := .stalled } := by
  rw [exec, execBrd, if_pos hn, busRead_of_memRead hl h, andThen_of_unanswered]

theorem exec_bwr_hangs (hn : n ≤ 32) (h : memWrite s.params s.dev addr (s.firstX n) = ⟨es, d, .unanswered⟩) :
    exec (.bwr addr n) s = .next { s with bus := s.bus ++ es, dev := d, link := .stalled } := by
  rw [exec, execBwr, if_pos hn, busWrite_of_memWrite hl h, andThen_of_unanswered]

theorem exec_rdreg_hangs (h : memRead s.params s.dev addr 1 = ⟨es, d, .unanswered⟩) :
    exec (.rdreg addr) s = .next { s with bus := s.bus ++ es, dev := d, link := .stalled } := by
  rw [exec, execRdreg, regRead_of_memRead_unanswered hl h, Access.andThen]
  rfl

theorem exec_wrreg_hangs (h : memWrite s.params s.dev addr [swap16 s.x[0]] = ⟨es, d, .unanswered⟩) :
    exec (.wrreg addr) s = .next { s with bus := s.bus ++ es, dev := d, link := .stalled } := by
  rw [exec, execWrreg, regWrite_of_memWrite hl h, andThen_of_unanswered]

/-- `INIT` that hangs in its write (43_sensor_controller.md R171). -/
theorem exec_init_hangs_write
    (h : memWrite s.params s.dev s.params.addrConfig [swap16 (cfgDefault s.params)] = ⟨es, d, .unanswered⟩) :
    exec .init s = .next { s with
      ctl := .uninit, cfg := cfgDefault s.params, bus := s.bus ++ es, dev := d, link := .stalled } := by
  rw [exec_init_eq_andThen, regWrite_of_memWrite (s := s.initStart) hl h, andThen_of_unanswered]
  rfl

/-- `INIT` that hangs in its read-back (43_sensor_controller.md R171). -/
theorem exec_init_hangs_read
    (hw : memWrite s.params s.dev s.params.addrConfig [swap16 (cfgDefault s.params)] = ⟨es, d, .ok ()⟩)
    (hr : memRead s.params d s.params.addrConfig 1 = ⟨es₂, d₂, .unanswered⟩) :
    exec .init s = .next { s with
      ctl := .uninit, cfg := cfgDefault s.params, bus := s.bus ++ es ++ es₂, dev := d₂, link := .stalled } := by
  have hread := regRead_of_memRead_unanswered (s := { s.initStart with bus := s.bus ++ es, dev := d }) hl hr
  exact exec_init_of_regRead_stalled (regWrite_of_memWrite (s := s.initStart) hl hw) hread

/-- `POLL` that hangs in its read (43_sensor_controller.md R178). -/
theorem exec_poll_hangs_read (hc : s.ctl ≠ .uninit)
    (h : memRead s.params s.dev s.params.addrStatus 1 = ⟨es, d, .unanswered⟩) :
    exec .poll s = .next { s with bus := s.bus ++ es, dev := d, link := .stalled } := by
  rw [exec_poll_of_ne_uninit hc, pollStatus, regRead_of_memRead_unanswered hl h, Access.andThen]
  rfl

/-- `POLL` that hangs in its write-back: the flag is cleared in STAT (43_sensor_controller.md R178). -/
theorem exec_poll_hangs_write {w a : Word} (hc : s.ctl ≠ .uninit)
    (hr : memRead s.params s.dev s.params.addrStatus 1 = ⟨es, d, .ok [w]⟩)
    (hv : statNewData s.params.statLayout (swap16 w) = 1) (ha : a = statAck s.params.statLayout (swap16 w))
    (hw : memWrite s.params d s.params.addrStatus [swap16 a] = ⟨es₂, d₂, .unanswered⟩) :
    exec .poll s = .next { s with
      stat := a, bus := s.bus ++ es ++ es₂, dev := d₂, link := .stalled } := by
  have hwrite := regWrite_withStat_of_memWrite (s := { s with bus := s.bus ++ es, dev := d }) hl hw
  rw [exec_poll_of_ne_uninit hc, pollStatus_of_regWrite_stalled (regRead_of_memRead_ok hl hr) hv ha hwrite]
  rfl

/-- `CAPTURE` that hangs in the read of a row: the rows before it are stored (43_sensor_controller.md R183). -/
theorem exec_capture_hangs {pre post : List Nat} {r : Nat} {q : RowReads} (hc : s.ctl ≠ .uninit) (hv : s.params.Valid)
    (hrows : rowsFrom s.subpage.toNat = pre ++ r :: post) (hq : readRows s.params s.dev pre = some q)
    (h : memRead s.params q.dev (rowAddr s.params r) 32 = ⟨es, d, .unanswered⟩) :
    exec .capture s =
      .next { s.capturingAt r q with bus := s.bus ++ q.events ++ es, dev := d, link := .stalled } := by
  obtain ⟨fuel, hrun, h24⟩ := exec_capture_at hv hl hc hq hrows
  have hrow : (s.capturingAt r q).row.toNat = r := capturingAt_row (by omega)
  have hread : (s.capturingAt r q).rowRead = ⟨es, d, .unanswered⟩ := (capturingAt_rowRead h24).trans h
  rw [hrun, captureRows_unanswered (s := s.capturingAt r q) hl (by omega) (congrArg Txn.result hread), hread]
  rfl

end

/-- Settles O53, transaction by transaction: what the command wrote before it stays. -/
theorem unansweredCommandHangs : Obligations.UnansweredCommandHangs := by
  intro s addr n es es₂ d d₂ hl
  exact ⟨exec_brd_hangs hl, exec_bwr_hangs hl, exec_rdreg_hangs hl, exec_wrreg_hangs hl, exec_init_hangs_write hl,
    exec_init_hangs_read hl, exec_poll_hangs_read hl, fun w hc hr hv => exec_poll_hangs_write hl hc hr hv rfl,
    fun pre post r q => exec_capture_hangs hl⟩

/-! ### Rows of a capture as a frame -/

/-- What a capture from subpage `r` on has kept when it is at the row that ROW names. -/
structure KeepsOtherRows (s u : State) : Prop where
  cfg : u.cfg = s.cfg
  stat : u.stat = s.stat
  params : u.params = s.params
  row_ge : s.subpage.toNat ≤ u.row.toNat
  row_parity : u.row.toNat % 2 = s.subpage.toNat % 2
  fb : ∀ r : Fin 24, r.val < s.subpage.toNat ∨ r.val % 2 ≠ s.subpage.toNat % 2 → u.fb[r] = s.fb[r]

theorem KeepsOtherRows.takeRow {s u : State} {ws : List Word} (h : KeepsOtherRows s u) (hrow : u.row.toNat < 24) :
    KeepsOtherRows s ((u.afterTxn u.rowRead).takeRow ws) := by
  have hnext : (u.row + 2).toNat = u.row.toNat + 2 := by
    rw [BitVec.toNat_add, show (2 : BitVec 5).toNat = 2 from rfl]
    omega
  obtain ⟨hcfg, hstat, hparams, hge, hparity, hfb⟩ := h
  refine ⟨hcfg, hstat, hparams, ?_, ?_, fun r hr => ?_⟩
  · rw [takeRow_row, afterTxn_row, hnext]; omega
  · rw [takeRow_row, afterTxn_row, hnext]; omega
  · have hne : u.row.toNat ≠ r.val := by omega
    rw [takeRow_fb, ← hfb r hr]
    exact Vector.getElem_setIfInBounds_ne r.isLt hne

/-- Settles O43: every row stored is at or above the subpage and of its parity. -/
theorem captureInterlace : Obligations.CaptureInterlace := by
  intro s t hv h
  have hstart : KeepsOtherRows s s.captureStart :=
    ⟨rfl, rfl, rfl, (captureStart_row hv).ge, by rw [captureStart_row hv], fun _ _ => rfl⟩
  rcases execCapture_cases (P := fun _ u => KeepsOtherRows s u) h (fun _ => hstart)
    (fun _ _ _ hu hrow _ => hu.takeRow hrow) with
    ⟨_, rfl⟩ | ⟨_, c, u, ⟨hcfg, hstat, hparams, _, _, hfb⟩, ⟨_, rfl⟩ | ⟨_, e, _, rfl⟩ | ⟨_, _, rfl⟩⟩
  · exact ⟨fun _ _ => rfl, rfl, rfl, rfl⟩
  all_goals exact ⟨hfb, hcfg, hstat, hparams⟩

/-! ### A row changes as a unit -/

/-- The row is as before, or holds the bytes of one complete read transaction of it that stands in the record. -/
def RowIsWhole (s t : State) (r : Fin 24) : Prop :=
  t.fb[r] = s.fb[r] ∨
    ∃ (before after : List BusEvent) (bytes : List Byte), bytes.length = 64 ∧
      t.bus = s.bus ++ before ++ readFrame s.params (rowAddr s.params r.val) bytes ++ after ∧
      ∀ c : Fin 32, (t.fb[r])[c] = bytes.getD (2 * c.val) 0 ++ bytes.getD (2 * c.val + 1) 0

/-- More events on the bus leave a row whole. -/
theorem RowIsWhole.moreEvents {s u v : State} {r : Fin 24} {es : List BusEvent} (h : RowIsWhole s u r)
    (hfb : v.fb[r] = u.fb[r]) (hbus : v.bus = u.bus ++ es) : RowIsWhole s v r := by
  rcases h with h | ⟨before, after, bytes, hlen, hu, hcells⟩
  · exact .inl (hfb.trans h)
  · refine .inr ⟨before, after ++ es, bytes, hlen, by rw [hbus, hu, List.append_assoc _ after], ?_⟩
    rw [hfb]
    exact hcells

/-- A decoded row, by the bytes it came from: the first byte of each word high (43_sensor_controller.md R184). -/
theorem decodedRow_rawWords_getElem {bytes : List Byte} (hlen : bytes.length = 64) (c : Fin 32) :
    (decodedRow (rawWords bytes))[c] = bytes.getD (2 * c.val) 0 ++ bytes.getD (2 * c.val + 1) 0 := by
  have hlo : 2 * c.val < bytes.length := by omega
  have hhi : 2 * c.val + 1 < bytes.length := by omega
  have hword : (rawWords bytes).getD c.val 0 = joinBytes bytes[2 * c.val + 1] bytes[2 * c.val] := by
    rw [List.getD_eq_getElem?_getD, rawWords_getElem?, List.getElem?_eq_getElem hlo, List.getElem?_eq_getElem hhi]
    rfl
  rw [show (decodedRow (rawWords bytes))[c] = _ from decodedRow_getElem _ c.val c.isLt, hword, swap16_joinBytes,
    List.getD_eq_getElem _ _ hlo, List.getD_eq_getElem _ _ hhi]
  rfl

/-- A read that succeeds has the frame of its bytes, and yields their words (30_encoding.md R103). -/
theorem memRead_ok_frame {p : Params} {d : Device} {addr : Word} {n : Nat} {ws : List Word} (hn : n ≠ 0)
    (h : (memRead p d addr n).result = .ok ws) : ∃ bytes : List Byte, bytes.length = 2 * n ∧ ws = rawWords bytes ∧
      (memRead p d addr n).events = readFrame p addr bytes := by
  rcases memRead_cases p d addr hn with ⟨bytes, hlen, hres, hevents⟩ | ⟨_, _, hres, _⟩ | ⟨hres, _⟩ | ⟨hres, _⟩ <;>
    rw [hres] at h <;> cases h
  exact ⟨bytes, hlen, rfl, hevents⟩

/-- What a capture has made of the rows when it is at the row that ROW names. -/
structure KeepsRowsWhole (s u : State) : Prop where
  params : u.params = s.params
  bus : ∃ es, u.bus = s.bus ++ es
  rows : ∀ r, RowIsWhole s u r

/-- A row read completely is stored whole. -/
theorem KeepsRowsWhole.takeRow {s u : State} {ws : List Word} (h : KeepsRowsWhole s u) (hrow : u.row.toNat < 24)
    (hok : u.rowRead.result = .ok ws) : KeepsRowsWhole s ((u.afterTxn u.rowRead).takeRow ws) := by
  obtain ⟨hparams, ⟨es, hbus⟩, hrows⟩ := h
  refine ⟨hparams, ⟨es ++ u.rowRead.events, by rw [takeRow_bus, afterTxn_bus, hbus, List.append_assoc]⟩, fun r => ?_⟩
  by_cases hr : u.row.toNat = r.val
  · obtain ⟨bytes, hlen, hread, hframe⟩ := memRead_ok_frame (by decide) hok
    have hevents : u.rowRead.events = readFrame s.params (rowAddr s.params r.val) bytes := by
      rw [State.rowRead, hframe, hparams, hr]
    refine .inr ⟨es, [], bytes, hlen, by rw [takeRow_bus, afterTxn_bus, hbus, hevents, List.append_nil], fun c => ?_⟩
    have hstored : ((u.afterTxn u.rowRead).takeRow ws).fb[r] = decodedRow ws := by
      rw [takeRow_fb, afterTxn_row, decodedRow_eq _ (memRead_length hok), hr]
      exact Vector.getElem_setIfInBounds_self r.isLt
    rw [hstored, hread]
    exact decodedRow_rawWords_getElem hlen c
  · exact (hrows r).moreEvents (Vector.getElem_setIfInBounds_ne r.isLt hr) rfl

/-- Settles O42: every row stored was read completely, and what comes after leaves it. -/
theorem captureRowIsOneTransaction : Obligations.CaptureRowIsOneTransaction := by
  intro s t h r
  have hstart : KeepsRowsWhole s s.captureStart := ⟨rfl, ⟨[], (List.append_nil _).symm⟩, fun _ => .inl rfl⟩
  rcases execCapture_cases (P := fun _ u => KeepsRowsWhole s u) h (fun _ => hstart)
    (fun _ _ _ hu hrow hok => hu.takeRow hrow hok) with
    ⟨_, rfl⟩ | ⟨_, c, u, ⟨_, _, hrows⟩, ⟨_, rfl⟩ | ⟨_, e, _, rfl⟩ | ⟨_, _, rfl⟩⟩
  · exact .inl rfl
  · exact hrows r
  · exact (hrows r).moreEvents (es := u.rowRead.events) rfl rfl
  · exact (hrows r).moreEvents (es := u.rowRead.events) rfl rfl

end Sys2Proof.Machine
end

section
/-! PROOFS. Transactions against given answers of the device (40_bus_transport.md R121 to R124, R130). -/

namespace Sys2Proof.Machine

/-! ### A transaction by how its runs of bytes end -/

section
variable {p : Params} {d d₁ d₂ d₃ : Device} {addr : Word} {es es₁ es₂ : List BusEvent} {k : Nat}

/-- A refused byte of the address phase ends a read (40_bus_transport.md R123). -/
theorem memRead_of_address_refused {n : Nat} (hn : n ≠ 0)
    (ha : sendBytes 0 d.onStart (addressPhase p addr) = ⟨es, d₁, .refusedAt k⟩) :
    memRead p d addr n = ⟨.start :: es ++ [.stop], d₁.onStop, .err .noAck⟩ := by
  simp only [memRead, if_neg hn, ha]

theorem memRead_of_address_unanswered {n : Nat} (hn : n ≠ 0)
    (ha : (sendBytes 0 d.onStart (addressPhase p addr)).result = .unanswered) :
    (memRead p d addr n).result = .unanswered := by
  simp only [memRead, if_neg hn, ha]

/-- A refused `SLA_R` ends a read (40_bus_transport.md R123). -/
theorem memRead_of_slaR_refused {n : Nat} (hn : n ≠ 0)
    (ha : sendBytes 0 d.onStart (addressPhase p addr) = ⟨es, d₁, .allAcked⟩)
    (hr : sendBytes 0 d₁.onRepStart [slaR p] = ⟨es₁, d₂, .refusedAt k⟩) :
    memRead p d addr n = ⟨.start :: es ++ .repStart :: es₁ ++ [.stop], d₂.onStop, .err (.shortRead k)⟩ := by
  simp only [memRead, if_neg hn, ha, hr]

theorem memRead_of_slaR_unanswered {n : Nat} (hn : n ≠ 0)
    (ha : sendBytes 0 d.onStart (addressPhase p addr) = ⟨es, d₁, .allAcked⟩)
    (hr : (sendBytes 0 d₁.onRepStart [slaR p]).result = .unanswered) : (memRead p d addr n).result = .unanswered := by
  simp only [memRead, if_neg hn, ha, hr]

theorem memRead_of_bytes_unanswered {n : Nat} (hn : n ≠ 0)
    (ha : sendBytes 0 d.onStart (addressPhase p addr) = ⟨es, d₁, .allAcked⟩)
    (hr : sendBytes 0 d₁.onRepStart [slaR p] = ⟨es₁, d₂, .allAcked⟩) (hq : (recvBytes d₂ (2 * n)).bytes = none) :
    (memRead p d addr n).result = .unanswered := by
  simp only [memRead, if_neg hn, ha, hr, hq]

/-- A read whose bytes all come (40_bus_transport.md R122). -/
theorem memRead_of_bytes {n : Nat} {bs : List Byte} (hn : n ≠ 0)
    (ha : sendBytes 0 d.onStart (addressPhase p addr) = ⟨es, d₁, .allAcked⟩)
    (hr : sendBytes 0 d₁.onRepStart [slaR p] = ⟨es₁, d₂, .allAcked⟩) (hq : recvBytes d₂ (2 * n) = ⟨es₂, d₃, some bs⟩) :
    memRead p d addr n = ⟨.start :: es ++ .repStart :: es₁ ++ es₂ ++ [.stop], d₃.onStop, .ok (rawWords bs)⟩ := by
  simp only [memRead, if_neg hn, ha, hr, hq]

variable {ws : List Word}

/-- A refused byte of the address phase ends a write (40_bus_transport.md R124). -/
theorem memWrite_of_address_refused (hw : ws ≠ [])
    (ha : sendBytes 0 d.onStart (addressPhase p addr) = ⟨es, d₁, .refusedAt k⟩) :
    memWrite p d addr ws = ⟨.start :: es ++ [.stop], d₁.onStop, .err .noAck⟩ := by
  simp only [memWrite, if_neg hw, ha]

theorem memWrite_of_address_unanswered (hw : ws ≠ [])
    (ha : (sendBytes 0 d.onStart (addressPhase p addr)).result = .unanswered) :
    (memWrite p d addr ws).result = .unanswered := by
  simp only [memWrite, if_neg hw, ha]

/-- A refused data byte ends a write (40_bus_transport.md R124). -/
theorem memWrite_of_bytes_refused (hw : ws ≠ [])
    (ha : sendBytes 0 d.onStart (addressPhase p addr) = ⟨es, d₁, .allAcked⟩)
    (hq : sendBytes 0 d₁ (rawBytes ws) = ⟨es₁, d₂, .refusedAt k⟩) :
    memWrite p d addr ws = ⟨.start :: es ++ es₁ ++ [.stop], d₂.onStop, .err (.shortWrite k)⟩ := by
  simp only [memWrite, if_neg hw, ha, hq]

theorem memWrite_of_bytes_unanswered (hw : ws ≠ [])
    (ha : sendBytes 0 d.onStart (addressPhase p addr) = ⟨es, d₁, .allAcked⟩)
    (hq : (sendBytes 0 d₁ (rawBytes ws)).result = .unanswered) : (memWrite p d addr ws).result = .unanswered := by
  simp only [memWrite, if_neg hw, ha, hq]

/-- A write whose bytes are all acknowledged (40_bus_transport.md R124). -/
theorem memWrite_of_bytes (hw : ws ≠ [])
    (ha : sendBytes 0 d.onStart (addressPhase p addr) = ⟨es, d₁, .allAcked⟩)
    (hq : sendBytes 0 d₁ (rawBytes ws) = ⟨es₁, d₂, .allAcked⟩) :
    memWrite p d addr ws = ⟨.start :: es ++ es₁ ++ [.stop], d₂.onStop, .ok ()⟩ := by
  simp only [memWrite, if_neg hw, ha, hq]

end

/-! ### The address phase and `SLA_R` against given answers -/

section
variable {p : Params} {addr : Word} {acks rest : List Answer} {no : Answer} (ha : AllAck acks)
include ha

theorem address_acked (hl : acks.length = 3) :
    sendBytes 0 (Device.oracle (acks ++ rest)).onStart (addressPhase p addr) =
      ⟨(addressPhase p addr).map (BusEvent.transmit · true), .oracle rest, .allAcked⟩ :=
  sendBytes_acked 0 _ _ _ hl ha

theorem slaR_acked (hl : acks.length = 1) :
    sendBytes 0 (Device.oracle (acks ++ rest)).onRepStart [slaR p] =
      ⟨[.transmit (slaR p) true], .oracle rest, .allAcked⟩ :=
  sendBytes_acked 0 _ _ _ hl ha

/-- The address phase of which byte `j` is refused, with the `S` before it. -/
theorem address_refused (hl : acks.length < 3) (hno : no.ack = false) :
    ∃ es k, sendBytes 0 (Device.oracle (acks ++ no :: rest)).onStart (addressPhase p addr) =
        ⟨es, .oracle rest, .refusedAt k⟩ ∧
      .start :: es = (addressEvents p addr).take (acks.length + 1) ++
        (addressPhase p addr)[acks.length]?.toList.map (BusEvent.transmit · false) := by
  have hlt : acks.length < (addressPhase p addr).length := hl
  refine ⟨_, _, sendBytes_refused 0 _ acks rest no hlt ha hno, ?_⟩
  have hevents : (addressEvents p addr).take (acks.length + 1) =
      .start :: ((addressPhase p addr).take acks.length).map (BusEvent.transmit · true) := by
    rw [List.map_take]; rfl
  rw [hevents, List.getElem?_eq_getElem hlt]
  rfl

end

/-- A list as its first `k` members and the rest, all acknowledging. -/
theorem exists_append_of_le_length {as : List Answer} {k : Nat} (hk : k ≤ as.length) (ha : AllAck as) :
    ∃ acks rest, as = acks ++ rest ∧ acks.length = k ∧ AllAck acks ∧ AllAck rest :=
  ⟨as.take k, as.drop k, (List.take_append_drop k as).symm, List.length_take_of_le hk,
    fun a h => ha a (List.mem_of_mem_take h), fun a h => ha a (List.mem_of_mem_drop h)⟩

/-! ### The obligations -/

/-- The bytes of raw words, as the obligations write them. -/
theorem rawBytes_eq_flatMap (ws : List Word) :
    rawBytes ws = ws.flatMap fun w => [w.extractLsb' 0 8, w.extractLsb' 8 8] :=
  rawBytes_flatMap ws

/-- Settles O27: three acknowledges for the address phase, one for `SLA_R`, then the bytes. -/
theorem memReadFrame : Obligations.MemReadFrame := by
  intro p addr n acks bytes rest hn hl hacks hbytes
  refine ⟨rawWords (bytes.map Answer.data), ?frame, ?length, fun i _ => rawWords_getElem? _ i⟩
  case length => rw [rawWords_length, List.length_map, hbytes]; omega
  case frame =>
    obtain ⟨as, as', rfl, has, haddr, hread⟩ := exists_append_of_le_length (k := 3) (by omega) hacks
    rw [List.length_append] at hl
    have hrecv := recvBytes_answered bytes rest
    rw [hbytes] at hrecv
    rw [List.append_assoc, List.append_assoc,
      memRead_of_bytes (by omega) (address_acked haddr has) (slaR_acked hread (by omega)) hrecv]
    simp [readFrame, addressEvents, addressPhase, Device.onStop]

/-- Settles O28, by the run of bytes that is refused. -/
theorem memReadRefusals : Obligations.MemReadRefusals := by
  intro p addr n acks rest no hn hacks hno
  refine ⟨fun hl => ?address, fun hl => ?slaR⟩
  case address =>
    obtain ⟨es, k, hsent, hevents⟩ := address_refused (p := p) (addr := addr) (rest := rest) hacks hl hno
    rw [memRead_of_address_refused (by omega) hsent, hevents]
    rfl
  case slaR =>
    have hrefused : sendBytes 0 (Device.oracle (no :: rest)).onRepStart [slaR p] =
        ⟨[.transmit (slaR p) false], .oracle rest, .refusedAt 0⟩ :=
      sendBytes_refused 0 [slaR p] [] rest no Nat.zero_lt_one (fun _ h => absurd h List.not_mem_nil) hno
    rw [memRead_of_slaR_refused (by omega) (address_acked hacks hl) hrefused]
    rfl

/-- Settles O29: three acknowledges for the address phase, then one for each byte. -/
theorem memWriteFrame : Obligations.MemWriteFrame := by
  intro p addr ws acks rest hw hl hacks
  obtain ⟨as, as', rfl, has, haddr, hdata⟩ := exists_append_of_le_length (k := 3) (by omega) hacks
  rw [List.length_append] at hl
  have hsent := sendBytes_acked 0 (rawBytes ws) as' rest (by rw [rawBytes_length]; omega) hdata
  rw [List.append_assoc, memWrite_of_bytes hw (address_acked haddr has) hsent, rawBytes_eq_flatMap]
  rfl

/-- Settles O30, by the run of bytes that is refused. -/
theorem memWriteRefusals : Obligations.MemWriteRefusals := by
  intro p addr ws acks rest no hw hacks hno
  refine ⟨fun hl => ?address, fun j hj hl => ?data⟩
  case address =>
    obtain ⟨es, k, hsent, hevents⟩ := address_refused (p := p) (addr := addr) (rest := rest) hacks hl hno
    rw [memWrite_of_address_refused hw hsent, hevents]
    rfl
  case data =>
    obtain ⟨as, as', rfl, has, haddr, hdata⟩ := exists_append_of_le_length (k := 3) (by omega) hacks
    rw [List.length_append, has, Nat.add_left_cancel_iff] at hl
    subst hl
    have hlt : as'.length < (rawBytes ws).length := by rw [rawBytes_length]; exact hj
    have hrefused := sendBytes_refused 0 (rawBytes ws) as' rest no hlt hdata hno
    rw [List.append_assoc, memWrite_of_bytes_refused hw (address_acked haddr has) hrefused, ← rawBytes_eq_flatMap,
      List.getElem?_eq_getElem hlt, Nat.zero_add]
    simp [addressEvents, addressPhase, Device.onStop]

/-- Settles O31, by the run of bytes for which the answers do not suffice. -/
theorem unansweredEventNeverEnds : Obligations.UnansweredEventNeverEnds := by
  intro p addr as hacks
  refine ⟨fun n hn hl => ?read, fun ws hw hl => ?write⟩
  case read =>
    rcases Nat.lt_or_ge as.length 3 with hshort | hge
    · exact memRead_of_address_unanswered (by omega) (sendBytes_short 0 _ as hshort hacks)
    obtain ⟨as, bs, rfl, has, haddr, hbs⟩ := exists_append_of_le_length hge hacks
    rcases Nat.lt_or_ge bs.length 1 with hshort | hge
    · exact memRead_of_slaR_unanswered (by omega) (address_acked haddr has) (sendBytes_short 0 _ bs hshort hbs)
    obtain ⟨bs, cs, rfl, hbs, hread, _⟩ := exists_append_of_le_length hge hbs
    rw [List.length_append, List.length_append] at hl
    exact memRead_of_bytes_unanswered (by omega) (address_acked haddr has) (slaR_acked hread hbs)
      (recvBytes_short cs _ (by omega))
  case write =>
    rcases Nat.lt_or_ge as.length 3 with hshort | hge
    · exact memWrite_of_address_unanswered hw (sendBytes_short 0 _ as hshort hacks)
    obtain ⟨as, bs, rfl, has, haddr, hbs⟩ := exists_append_of_le_length hge hacks
    rw [List.length_append] at hl
    exact memWrite_of_bytes_unanswered hw (address_acked haddr has)
      (sendBytes_short 0 _ bs (by rw [rawBytes_length]; omega) hbs)

end Sys2Proof.Machine
end

section
/-! PROOFS. Values: the swap, the Configuration Register, addresses (41_register_codec.md R140, R148, 10_state.md R32,
20_memory.md R63, 30_encoding.md R102). -/

namespace Sys2Proof.Machine

/-! ### The swap and the addresses -/

theorem swap16_toNat (v : Word) : (swap16 v).toNat = v.toNat % 256 * 256 + v.toNat / 256 := by
  rw [swap16, joinBytes_toNat, lowByte_toNat, highByte_toNat]

/-- Settles O13: a word is fixed when its two bytes are equal, as numbers. -/
theorem swapExchangesBytes : Obligations.SwapExchangesBytes := by
  intro v
  refine ⟨swap16_toNat v, swap16_swap16 v, ?fixed⟩
  case fixed =>
    rw [← BitVec.toNat_inj, swap16_toNat]
    have := v.isLt
    omega

theorem rowAddr_toNat (p : Params) (r : Nat) : (rowAddr p r).toNat = (p.frameBase.toNat + r * 32) % 2 ^ 16 := by
  rw [rowAddr, BitVec.toNat_add, BitVec.toNat_ofNat, Config.rowStride, Nat.add_mod_mod]

/-- A device address with a bit below it. -/
theorem append_bit_toNat (a : BitVec 7) (b : BitVec 1) : (a ++ b).toNat = 2 * a.toNat + b.toNat := by
  rw [BitVec.toNat_append, Nat.shiftLeft_eq, Nat.mul_comm, ← Nat.two_pow_add_eq_or_of_lt (by simpa using b.isLt)]

/-- Settles O18. -/
theorem addressesOnTheBus : Obligations.AddressesOnTheBus :=
  ⟨fun p r _ => rowAddr_toNat p r, fun p => ⟨append_bit_toNat p.devAddr 0, append_bit_toNat p.devAddr 1⟩,
    by decide, by decide, by decide, by decide, by decide, by decide⟩

/-! ### Fields packed into a word one after the other (41_register_codec.md R148) -/

/-- Bit `i` of a word is in the field. -/
abbrev HasBit (f : Field) (i : Nat) : Prop := i < 16 ∧ f.lsb ≤ i ∧ i < f.lsb + f.width

/-- The word with the fields set to the values, in order. -/
def packFields (w : Word) : List (Field × Word) → Word
  | [] => w
  | p :: ps => packFields (setField w p.1 p.2) ps

/-- A bit of a packed word: what every field that has it gives, and the word's own bit if none has it. -/
theorem packFields_getLsbD {ps : List (Field × Word)} {w : Word} {i : Nat} {b : Bool}
    (hfield : ∀ p ∈ ps, HasBit p.1 i → p.2.getLsbD (i - p.1.lsb) = b)
    (hnone : (∀ p ∈ ps, ¬ HasBit p.1 i) → w.getLsbD i = b) : (packFields w ps).getLsbD i = b := by
  induction ps generalizing w with
  | nil => exact hnone fun _ h => absurd h List.not_mem_nil
  | cons p ps ih =>
    rw [List.forall_mem_cons] at hfield
    obtain ⟨hp, hps⟩ := hfield
    refine ih hps fun hnot => ?_
    rw [setField_getLsbD]
    split
    · exact hp ‹_›
    · exact hnone (List.forall_mem_cons.mpr ⟨‹_›, hnot⟩)

/-- Two disjoint fields have no bit in common. -/
theorem eq_of_has {ps : List (Field × Word)} (hdisjoint : (ps.map Prod.fst).Pairwise Field.Disjoint)
    {p q : Field × Word} (hp : p ∈ ps) (hq : q ∈ ps) {i : Nat} (hpi : HasBit p.1 i) (hqi : HasBit q.1 i) : p = q := by
  by_contra hne
  rw [List.pairwise_map] at hdisjoint
  have : Std.Symm fun p q : Field × Word => p.1.Disjoint q.1 := ⟨fun _ _ h => h.symm⟩
  have hd : p.1.Disjoint q.1 := hdisjoint.forall hp hq hne
  omega

/-- A packed value is unpacked again. -/
theorem getField_packFields {ps : List (Field × Word)} (hdisjoint : (ps.map Prod.fst).Pairwise Field.Disjoint)
    (w : Word) {f : Field} {n : Nat} {v : BitVec n} (hf : f.InWord) (hn : f.width = n)
    (hmem : (f, v.setWidth 16) ∈ ps) :
    (getField (packFields w ps) f).setWidth n = v := by
  refine BitVec.eq_of_getLsbD_eq fun j hj => ?_
  have hhas : HasBit f (f.lsb + j) := by omega
  have hbit : (packFields w ps).getLsbD (f.lsb + j) = v.getLsbD j := by
    refine packFields_getLsbD (fun q hq hqi => ?_) fun hnot => absurd hhas (hnot _ hmem)
    cases eq_of_has hdisjoint hmem hq hhas hqi
    rw [Nat.add_sub_cancel_left, BitVec.getLsbD_setWidth, decide_eq_true (by omega), Bool.true_and]
  rw [BitVec.getLsbD_setWidth, decide_eq_true hj, Bool.true_and, getField_getLsbD, decide_eq_true (by omega),
    Bool.true_and, hbit]

/-- A field's own value, cut to its width, gives the bits of the field. -/
theorem getField_getLsbD_of_has {w : Word} {f : Field} {n i : Nat} (hn : f.width = n) (h : HasBit f i) :
    (((getField w f).setWidth n).setWidth 16).getLsbD (i - f.lsb) = w.getLsbD i := by
  have hlt : i - f.lsb < n := by omega
  have hlt16 : i - f.lsb < 16 := by omega
  have hi : f.lsb + (i - f.lsb) = i := by omega
  simp only [BitVec.getLsbD_setWidth, getField_getLsbD, hn, hi, decide_eq_true hlt, decide_eq_true hlt16, Bool.true_and]

/-! ### The Configuration Register (10_state.md R30, R31) -/

/-- The widths of a valid layout (10_state.md R30). -/
theorem cfgLayout_widths {l : CfgLayout} (h : l.Valid) :
    l.subpageEn.width = 1 ∧ l.dataHold.width = 1 ∧ l.subpageRepeat.width = 1 ∧ l.selectSubpage.width = 3 ∧
      l.refresh.width = 3 ∧ l.resolution.width = 2 ∧ l.chess.width = 1 := by
  obtain ⟨hwidths, _, _⟩ := h
  simpa [CfgLayout.fields] using hwidths

/-- The seven fields with their values. -/
def cfgFieldValues (l : CfgLayout) (r : CfgRecord) : List (Field × Word) :=
  [(l.subpageEn, r.subpageEn.setWidth 16), (l.dataHold, r.dataHold.setWidth 16),
   (l.subpageRepeat, r.subpageRepeat.setWidth 16), (l.selectSubpage, r.selectSubpage.setWidth 16),
   (l.refresh, r.refresh.setWidth 16), (l.resolution, r.resolution.setWidth 16), (l.chess, r.chess.setWidth 16)]

theorem cfgPack_eq_packFields (l : CfgLayout) (r : CfgRecord) :
    cfgPack l r = packFields r.reserved (cfgFieldValues l r) := rfl

theorem cfgFieldValues_fields (l : CfgLayout) (r : CfgRecord) : (cfgFieldValues l r).map Prod.fst = l.fields := rfl

/-- A reserved bit is in no field (10_state.md R31). -/
theorem cfgReservedMask_getLsbD (l : CfgLayout) (r : CfgRecord) {i : Nat} (hi : i < 16) :
    (cfgReservedMask l).getLsbD i = true ↔ ∀ p ∈ cfgFieldValues l r, ¬ HasBit p.1 i := by
  have hmask (f : Field) : (maskOf f).getLsbD i = decide (HasBit f i) := maskOf_getLsbD f i
  simp only [cfgReservedMask, BitVec.getLsbD_not, BitVec.getLsbD_or, hmask, decide_eq_true hi, Bool.true_and,
    Bool.not_eq_true', Bool.or_eq_false_iff, decide_eq_false_iff_not, and_assoc, cfgFieldValues, List.forall_mem_cons,
    List.not_mem_nil, false_imp_iff, implies_true, and_true]

/-- Packing the fields of a word and its reserved bits gives the word. -/
theorem cfgPack_cfgUnpack {l : CfgLayout} (h : l.Valid) (w : Word) : cfgPack l (cfgUnpack l w) = w := by
  obtain ⟨h1, h2, h3, h4, h5, h6, h7⟩ := cfgLayout_widths h
  refine BitVec.eq_of_getLsbD_eq fun i hi => ?_
  rw [cfgPack_eq_packFields]
  refine packFields_getLsbD ?field fun hnone => ?reserved
  case field =>
    simp only [cfgFieldValues, List.forall_mem_cons]
    exact ⟨getField_getLsbD_of_has h1, getField_getLsbD_of_has h2, getField_getLsbD_of_has h3,
      getField_getLsbD_of_has h4, getField_getLsbD_of_has h5, getField_getLsbD_of_has h6, getField_getLsbD_of_has h7,
      fun _ hnil => absurd hnil List.not_mem_nil⟩
  case reserved =>
    rw [cfgUnpack, BitVec.getLsbD_and, (cfgReservedMask_getLsbD l _ hi).mpr hnone, Bool.and_true]

/-- Packing keeps the reserved bits. -/
theorem cfgPack_and_reservedMask {l : CfgLayout} {r : CfgRecord} (hr : r.reserved &&& ~~~(cfgReservedMask l) = 0) :
    cfgPack l r &&& cfgReservedMask l = r.reserved := by
  refine BitVec.eq_of_getLsbD_eq fun i hi => ?_
  have hbit : (r.reserved &&& ~~~(cfgReservedMask l)).getLsbD i = false := by rw [hr]; exact BitVec.getLsbD_zero
  rw [BitVec.getLsbD_and, BitVec.getLsbD_not, decide_eq_true hi, Bool.true_and] at hbit
  rw [BitVec.getLsbD_and]
  by_cases hmask : (cfgReservedMask l).getLsbD i = true
  · have hnone := (cfgReservedMask_getLsbD l r hi).mp hmask
    rw [hmask, Bool.and_true, cfgPack_eq_packFields]
    exact packFields_getLsbD (fun p hp hpi => absurd hpi (hnone p hp)) fun _ => rfl
  · rw [Bool.not_eq_true] at hmask
    simpa [hmask] using hbit.symm

/-- Unpacking a packed record gives the record. -/
theorem cfgUnpack_cfgPack {l : CfgLayout} (h : l.Valid) {r : CfgRecord}
    (hr : r.reserved &&& ~~~(cfgReservedMask l) = 0) :
    cfgUnpack l (cfgPack l r) = r := by
  obtain ⟨h1, h2, h3, h4, h5, h6, h7⟩ := cfgLayout_widths h
  obtain ⟨_, hinWord, hdisjoint⟩ := h
  rw [← cfgFieldValues_fields l r] at hinWord hdisjoint
  have unpacked {f : Field} {n : Nat} {v : BitVec n} (hn : f.width = n)
      (hmem : (f, v.setWidth 16) ∈ cfgFieldValues l r) : (getField (cfgPack l r) f).setWidth n = v :=
    getField_packFields hdisjoint r.reserved (hinWord f (List.mem_map.mpr ⟨_, hmem, rfl⟩)) hn hmem
  rw [cfgUnpack, unpacked h1 (v := r.subpageEn), unpacked h2 (v := r.dataHold), unpacked h3 (v := r.subpageRepeat),
    unpacked h4 (v := r.selectSubpage), unpacked h5 (v := r.refresh), unpacked h6 (v := r.resolution),
    unpacked h7 (v := r.chess), cfgPack_and_reservedMask hr] <;> simp [cfgFieldValues]

/-- Settles O15. -/
theorem cfgPackUnpack : Obligations.CfgPackUnpack := fun _ h => ⟨cfgPack_cfgUnpack h, fun _ => cfgUnpack_cfgPack h⟩

/-- Settles O16: CFG_DEFAULT is a packed record without reserved bits. -/
theorem cfgDefaultFields : Obligations.CfgDefaultFields :=
  ⟨fun _ h => cfgUnpack_cfgPack h.1 BitVec.zero_and, by decide⟩

end Sys2Proof.Machine
end

section
/-! PROOFS. The step (30_encoding.md R90), reset (70_reset_and_hazards.md R250) and the steps that accept no command. -/

namespace Sys2Proof.Machine

/-- A decoded command word runs its instruction (30_encoding.md R90). -/
theorem runCommand_of_decoded {w : Word32} {i : Instr} (s : State) (h : decode w = .ok i) :
    runCommand w s = exec i s := by
  rw [runCommand, h]

theorem step_of_no_input {s : State} (h : s.inputs = []) : step s = .next s := by
  rw [step, h]

theorem step_command_of_stalled {s : State} {w : Word32} {rest : List Input} (h : s.inputs = .command w :: rest)
    (hl : s.link = .stalled) : step s = .next s := by
  rw [step, h]
  exact if_pos hl

theorem dropInput_of_cons {s : State} {i : Input} {rest : List Input} (h : s.inputs = i :: rest) :
    s.dropInput = { s with inputs := rest } := by
  rw [State.dropInput, h, List.tail_cons]

theorem step_device {s : State} {d : Device} {rest : List Input} (h : s.inputs = .device d :: rest) :
    step s = .next ({ s with inputs := rest }.connect d) := by
  rw [← dropInput_of_cons h, step, h]

theorem step_reset {s : State} {rest : List Input} (h : s.inputs = .reset :: rest) :
    step s = .next { s with inputs := rest }.applyReset := by
  rw [← dropInput_of_cons h, step, h]

theorem afterReset_ne_stalled (l : Link) : l.afterReset ≠ .stalled := by
  cases l <;> decide

/-- X after reset (10_state.md R45, log 10). -/
theorem reset_x_getElem (i : Fin 32) : State.reset.x[i] = 0 := Vector.getElem_replicate _

/-- FB after reset (10_state.md R45). -/
theorem reset_fb_getElem (r : Fin 24) (c : Fin 32) : (State.reset.fb[r])[c] = 0 := by
  have hrow : State.reset.fb[r] = Vector.replicate 32 0 := Vector.getElem_replicate _
  rw [hrow]
  exact Vector.getElem_replicate _

/-- Settles O6. -/
theorem stepRunsDecodedInstruction : Obligations.StepRunsDecodedInstruction := by
  intro s w rest i hin hl hi
  rw [step_command hin hl, runCommand_of_decoded _ hi]

/-- Settles O8, by what stands at the head of the inputs. -/
theorem stepsThatAcceptNoCommand : Obligations.StepsThatAcceptNoCommand := fun _ =>
  ⟨step_of_no_input, fun _ _ => step_command_of_stalled, fun _ _ => step_device⟩

/-- Settles O9, field by field. -/
theorem resetInputResetsTheBlock : Obligations.ResetInputResetsTheBlock := by
  intro s rest hin
  refine ⟨_, step_reset hin, reset_x_getElem, rfl, rfl, rfl, rfl, rfl, reset_fb_getElem, afterReset_ne_stalled s.link,
    fun hl => ?free, rfl, rfl, rfl, rfl, rfl⟩
  case free => rw [applyReset_link, hl]; rfl

/-- Settles O10. -/
theorem resetStateValues : Obligations.ResetStateValues :=
  ⟨reset_x_getElem, rfl, rfl, rfl, rfl, rfl, reset_fb_getElem, rfl⟩

/-- Settles O11: the default layouts are valid, and the blank device lists no byte. -/
theorem invariantAtReset : Obligations.InvariantAtReset := by
  unfold Obligations.InvariantAtReset
  refine ⟨by decide, by decide, by decide, getField_zero _, ?dev, fun _ h => absurd h List.not_mem_nil⟩
  case dev => exact decide_eq_true wf_nil

end Sys2Proof.Machine
end

section
/-! PROOFS. RDREG and WRREG as sequences of commands (42_register_access.md R164, R165). -/

namespace Sys2Proof.Machine

/-- A word put into `X[0]`, then swapped in place, is the swapped word put there. -/
theorem swapBuffer_fillBuffer_one (x : Vector Word 32) (w : Word) :
    swapBuffer (fillBuffer x [w]) 1 = x.set 0 (swap16 w) := by
  ext1 i hi
  rw [swapBuffer_getElem, fillBuffer_getElem, Vector.getElem_set]
  cases i <;> simp

/-- The first word of X after a swap of it. -/
theorem firstX_swapX_one (s : State) : (s.swapX 1).firstX 1 = [swap16 s.x[0]] := by
  have hx : (swapBuffer s.x 1).toList[0]? = some (swap16 s.x[0]) := by simp
  rw [State.firstX, swapX_x, List.take_one, List.head?_eq_getElem?, hx]
  rfl

theorem ofTxn_of_ok {α : Type} {q : Txn α} {a : α} (s : State) (h : q.result = .ok a) :
    Access.ofTxn q s = .ok a (s.afterTxn q) := by
  rw [Access.ofTxn, h]

theorem ofTxn_of_err {α : Type} {q : Txn α} {e : BusErr} (s : State) (h : q.result = .err e) :
    Access.ofTxn q s = .err e (s.afterTxn q) := by
  rw [Access.ofTxn, h]

/-- Settles O36, by how the read of the `BRD` ended, which is that of the `RDREG`. -/
theorem rdregIsBrdDecRdx : Obligations.RdregIsBrdDecRdx := by
  intro addr s t hl h
  rcases execBrd_cases h with ⟨hn, _⟩ | ⟨_, q, rfl, ⟨ws, hok, rfl⟩ | ⟨e, herr, rfl⟩ | ⟨_, rfl⟩⟩
  · omega
  · refine ⟨fun aux data _ => ?ok, fun e aux data he hr => ?notErr⟩
    case ok =>
      obtain ⟨w, rfl⟩ := List.length_eq_one_iff.mp (memRead_length hok)
      refine ⟨_, _, _, exec_dec_inRange _ (by decide), exec_rdx_inRange _ (by decide), rfl, ?_⟩
      rw [exec_rdreg_of_regRead_ok (regRead_free_ok hl hok)]
      simp [State.respond, State.putX, State.swapX, State.fillX, swapBuffer_fillBuffer_one]
    case notErr => cases response_unique rfl hr; exact absurd rfl he
  · have hcount : e.count = 0 := by rcases memRead_err herr with rfl | rfl <;> rfl
    refine ⟨fun aux data hr => ?notOk, fun _ _ _ _ _ => ⟨?err, rfl⟩⟩
    case notOk => exact absurd (congrArg Response.err (response_unique rfl hr)).symm e.code_ne_ok
    case err => rw [exec_rdreg_of_regRead_err (regRead_free_err hl herr), hcount]
  · exact ⟨fun _ _ hr => absurd hr (no_response rfl), fun _ _ _ _ hr => absurd hr (no_response rfl)⟩

/-- Settles O37, by how the write of the `BWR` ended, which is that of the `WRREG`: the swap of X is undone. -/
theorem wrregIsEncBwrDec : Obligations.WrregIsEncBwrDec := by
  intro addr s t u v r hl ht hu hr hv
  cases (exec_enc_inRange s (by decide)).symm.trans ht
  cases (exec_dec_inRange u (by decide)).symm.trans hv
  have hwords : ((s.swapX 1).respond 0 0).firstX 1 = [swap16 s.x[0]] := firstX_swapX_one s
  rcases execBwr_cases hu with ⟨hn, _⟩ | ⟨_, q, hq, hend⟩
  · omega
  rw [hwords] at hq
  have hwrite : regWrite addr s.x[0] s = .ofTxn q s := hq ▸ regWrite_free hl
  rcases hend with ⟨hok, rfl⟩ | ⟨e, herr, rfl⟩ | ⟨_, rfl⟩
  · rw [exec_wrreg_of_regWrite_ok (hwrite.trans (ofTxn_of_ok s hok)), response_unique rfl hr]
    simp [State.respond, State.swapX, State.afterTxn]
  · rw [exec_wrreg_of_regWrite_err (hwrite.trans (ofTxn_of_err s herr)), response_unique rfl hr]
    simp [State.respond, State.raise, State.swapX, State.afterTxn]
  · exact absurd hr (no_response rfl)

end Sys2Proof.Machine
end

section
/-! PROOFS. The reference device (20_memory.md R71): its transactions, and the commands over a present one without
scripted refusals (42_register_access.md R165, 43_sensor_controller.md R180). -/

namespace Sys2Proof.Machine

/-! ### Transactions (20_memory.md R71) -/

/-- A transaction, given what the device became and how it ended. -/
theorem txn_eq {α : Type} {q : Txn α} {d : Device} {r : TxnEnd α} (hd : q.dev = d) (hr : q.result = r) :
    q = ⟨q.events, d, r⟩ := by
  rw [← hd, ← hr]

/-- Word `i` of the bytes at the cells from `addr` on is the word at `addr + i`, its high byte first. -/
theorem rawWords_cells_getElem? (m : Memory) (addr : Word) {n i : Nat} (hi : i < n) :
    (rawWords ((List.range (2 * n)).map fun j => loadByte m ((2 * addr.toNat + j) % memCells)))[i]? =
      some (swap16 (loadWord m (addr + BitVec.ofNat 16 i))) := by
  have hlo : (List.range (2 * n))[2 * i]? = some (2 * i) := List.getElem?_range (by omega)
  have hhi : (List.range (2 * n))[2 * i + 1]? = some (2 * i + 1) := List.getElem?_range (by omega)
  rw [rawWords_getElem?, List.getElem?_map, List.getElem?_map, hlo, hhi, loadWord_offset, swap16_joinBytes]
  rfl

/-- Settles O54; a read of no word does not reach the device. -/
theorem referenceDeviceReads : Obligations.ReferenceDeviceReads := by
  intro p r addr n hp hr
  by_cases hn : n = 0
  · subst hn
    exact ⟨[], r, [], rfl, rfl, hp, hr, rfl, fun i hi => absurd hi (Nat.not_lt_zero i)⟩
  · obtain ⟨hdev, hres⟩ := memRead_reference p addr hn hp hr
    exact ⟨_, r.idleWith r.mem, _, txn_eq hdev hres, rfl, hp, hr, memRead_length hres,
      fun i hi => rawWords_cells_getElem? r.mem addr hi⟩

/-- A word of a run that is no longer than the space is read back, its bytes swapped as they went out. -/
theorem loadWord_storeBytes (m : Memory) (addr : Word) {ws : List Word} (hl : ws.length ≤ 32) {i : Nat}
    (hi : i < ws.length) :
    loadWord (storeBytes m (2 * addr.toNat) (rawBytes ws)) (addr + BitVec.ofNat 16 i) = swap16 ws[i] := by
  have hbytes : (rawBytes ws).length = 2 * ws.length := rawBytes_length ws
  have hfits : (rawBytes ws).length ≤ memCells := by rw [hbytes, memCells]; omega
  have hlo : (rawBytes ws)[2 * i] = lowByte ws[i] := Option.some.inj <| by
    rw [← List.getElem?_eq_getElem, rawBytes_getElem?_even, List.getElem?_eq_getElem hi, Option.map_some]
  have hhi : (rawBytes ws)[2 * i + 1] = highByte ws[i] := Option.some.inj <| by
    rw [← List.getElem?_eq_getElem, rawBytes_getElem?_odd, List.getElem?_eq_getElem hi, Option.map_some]
  rw [loadWord_offset, loadByte_storeBytes _ _ _ _ (by omega) hfits, loadByte_storeBytes _ _ _ _ (by omega) hfits, hlo,
    hhi]
  rfl

/-- Settles O55; a write of no word does not reach the device. -/
theorem referenceDeviceStores : Obligations.ReferenceDeviceStores := by
  intro p r addr ws hp hr hl
  by_cases hw : ws = []
  · subst hw
    exact ⟨[], r, rfl, hp, hr, fun i hi => absurd hi (Nat.not_lt_zero i), fun _ _ => rfl⟩
  · obtain ⟨hdev, hres⟩ := memWrite_reference p addr hw hp hr
    exact ⟨_, r.idleWith _, txn_eq hdev hres, hp, hr, fun i hi => loadWord_storeBytes r.mem addr hl hi,
      fun a ha => loadByte_storeBytes_outside r.mem addr ws a ha⟩

/-! ### Accesses over a present device without scripted refusals -/

/-- The bus is free, and on it is the reference device `r`, present and without scripted refusals. -/
structure OnReference (s : State) (r : RefDevice) : Prop where
  link : s.link = .free
  dev : s.dev = .reference r
  present : r.present = true
  refusals : r.refusals = []

section
variable {s : State} {r : RefDevice} {addr : Word} (h : OnReference s r)
include h

/-- Work on the block's own state. -/
theorem OnReference.onBlock {t : State} (hlink : t.link = s.link := by rfl) (hdev : t.dev = s.dev := by rfl) :
    OnReference t r :=
  ⟨hlink.trans h.link, hdev.trans h.dev, h.present, h.refusals⟩

theorem OnReference.respond {aux : Byte} {data : Word} : OnReference (s.respond aux data) r := h.onBlock

theorem OnReference.withStat (v : Word) : OnReference (s.withStat v) r := h.onBlock

theorem OnReference.toIdle : OnReference s.toIdle r := h.onBlock

theorem busRead_onReference (n : Nat) :
    ∃ ws, busRead addr n s = .ok ws (s.afterTxn (memRead s.params s.dev addr n)) := by
  obtain ⟨es, r', ws, hread, _⟩ := referenceDeviceReads s.params r addr n h.present h.refusals
  refine ⟨ws, (busRead_free h.link).trans (ofTxn_of_ok s ?_)⟩
  rw [h.dev, hread]

theorem busWrite_onReference {ws : List Word} (hl : ws.length ≤ 32) :
    busWrite addr ws s = .ok () (s.afterTxn (memWrite s.params s.dev addr ws)) := by
  obtain ⟨es, r', hwrite, _⟩ := referenceDeviceStores s.params r addr ws h.present h.refusals hl
  refine (busWrite_free h.link).trans (ofTxn_of_ok s ?_)
  rw [h.dev, hwrite]

/-- A register read yields the word of the device. -/
theorem regRead_onReference :
    regRead addr s = .ok (loadWord r.mem addr) (s.afterTxn (memRead s.params s.dev addr 1)) := by
  obtain ⟨_, hres⟩ := memRead_reference_one s.params addr h.present h.refusals
  rw [regRead_free_ok h.link (by rw [h.dev]; exact hres), swap16_swap16]

/-- After a read of one word the device is as it was, idle. -/
theorem OnReference.afterRead :
    OnReference (s.afterTxn (memRead s.params s.dev addr 1)) (r.idleWith r.mem) := by
  obtain ⟨hdev, _⟩ := memRead_reference_one s.params addr h.present h.refusals
  exact ⟨h.link, by rw [afterTxn_dev, h.dev, hdev], h.present, h.refusals⟩

/-- A register write succeeds. -/
theorem regWrite_onReference (v : Word) :
    regWrite addr v s = .ok () (s.afterTxn (memWrite s.params s.dev addr [swap16 v])) :=
  busWrite_onReference h (by simp)

/-- After a write of one word the device holds it, idle. -/
theorem OnReference.afterWrite (v : Word) : OnReference (s.afterTxn (memWrite s.params s.dev addr [swap16 v]))
    (r.idleWith (storeBytes r.mem (2 * addr.toNat) (rawBytes [swap16 v]))) := by
  obtain ⟨hdev, _⟩ := memWrite_reference s.params addr (List.cons_ne_nil (swap16 v) []) h.present h.refusals
  exact ⟨h.link, by rw [afterTxn_dev, h.dev, hdev], h.present, h.refusals⟩

end

/-! ### Commands over a present device without scripted refusals -/

section
variable {s : State} {r : RefDevice} (addr : Word) (h : OnReference s r)
include h

/-- `WRREG` stores `X[0]` in the device. -/
theorem exec_wrreg_onReference : ∃ t, exec (.wrreg addr) s = .next t ∧ t.rsps = s.rsps ++ [⟨.ok, 0, 0⟩] ∧
    OnReference t (r.idleWith (storeBytes r.mem (2 * addr.toNat) (rawBytes [swap16 s.x[0]]))) :=
  ⟨_, exec_wrreg_of_regWrite_ok (regWrite_onReference h s.x[0]), rfl, (h.afterWrite s.x[0]).respond⟩

/-- `RDREG` answers the word of the device. -/
theorem exec_rdreg_onReference : ∃ t, exec (.rdreg addr) s = .next t ∧
    t.rsps = s.rsps ++ [⟨.ok, 0, loadWord r.mem addr⟩] ∧ t.link = .free :=
  ⟨_, exec_rdreg_of_regRead_ok (regRead_onReference h), rfl, h.link⟩

end

/-- Settles O57: the write stores `v` at `a`, where the read finds it. -/
theorem registerWriteThenRead : Obligations.RegisterWriteThenRead := by
  intro s r a v hl hdev hp hr
  have hs : OnReference (s.putX 0 (by decide) v) r := ⟨hl, hdev, hp, hr⟩
  obtain ⟨u, hu, hursps, honu⟩ := exec_wrreg_onReference a hs.respond
  obtain ⟨w, hw, hwrsps, _⟩ := exec_rdreg_onReference a honu
  have hx : ((s.putX 0 (by decide) v).respond 0 0).x[0] = v := Vector.getElem_set_self _
  have hword : loadWord (storeBytes r.mem (2 * a.toNat) (rawBytes [swap16 v])) a = v :=
    loadWord_storeBytes_one r.mem a v
  rw [hx] at hwrsps
  refine ⟨_, u, w, exec_ldx_inRange v s (by decide), hu, hw, ?_⟩
  rw [hwrsps, hursps, respond_rsps, putX_rsps, RefDevice.idleWith, hword, List.append_assoc, List.append_assoc]
  rfl

/-! ### POLL over a present device without scripted refusals (43_sensor_controller.md R180) -/

section
variable {s : State} {r : RefDevice} (h : OnReference s r) (hc : s.ctl ≠ .uninit)
include h hc

/-- A `POLL` that finds the flag clear reads once and writes nothing. -/
theorem exec_poll_onReference_of_clear
    (hflag : statNewData s.params.statLayout (loadWord r.mem s.params.addrStatus) ≠ 1) :
    exec .poll s = .next ({ (s.afterTxn (memRead s.params s.dev s.params.addrStatus 1)).withStat
      (loadWord r.mem s.params.addrStatus) with ctl := .idle }.respond 0 (loadWord r.mem s.params.addrStatus)) := by
  rw [exec_poll_of_ne_uninit hc, pollStatus_of_no_newData (regRead_onReference h) hflag]

/-- A `POLL` that finds the flag set stores the word with the flag clear. -/
theorem exec_poll_onReference_of_set {v : Word}
    (hv : v = statAck s.params.statLayout (loadWord r.mem s.params.addrStatus))
    (hflag : statNewData s.params.statLayout (loadWord r.mem s.params.addrStatus) = 1) :
    ∃ t, exec .poll s = .next t ∧ t.ctl = .idle ∧ t.params = s.params ∧ t.rsps = s.rsps ++ [⟨.ok, 1, v⟩] ∧
      OnReference t (r.idleWith (storeBytes r.mem (2 * s.params.addrStatus.toNat) (rawBytes [swap16 v]))) := by
  have hlatched := (h.afterRead (addr := s.params.addrStatus)).withStat v
  have hexec := pollStatus_of_regWrite_ok (regRead_onReference h) hflag hv (regWrite_onReference hlatched v)
  rw [← exec_poll_of_ne_uninit hc] at hexec
  exact ⟨_, hexec, rfl, rfl, rfl, (hlatched.afterWrite v).toIdle.respond⟩

/-- After a `POLL` the device is idle and its Status Register has the flag clear; the response says what the flag was,
and what the register holds now. -/
theorem exec_poll_onReference (hvalid : s.params.statLayout.Valid) :
    ∃ t r', exec .poll s = .next t ∧ t.ctl = .idle ∧ t.params = s.params ∧ OnReference t r' ∧ r'.idleWith r'.mem = r' ∧
      statNewData s.params.statLayout (loadWord r'.mem s.params.addrStatus) = 0 ∧
      t.rsps = s.rsps ++ [⟨.ok, (statNewData s.params.statLayout (loadWord r.mem s.params.addrStatus)).setWidth 8,
        loadWord r'.mem s.params.addrStatus⟩] := by
  by_cases hflag : statNewData s.params.statLayout (loadWord r.mem s.params.addrStatus) = 1
  · obtain ⟨t, ht, hctl, hparams, hrsps, hon⟩ := exec_poll_onReference_of_set h hc rfl hflag
    have hstored := loadWord_storeBytes_one r.mem s.params.addrStatus
      (statAck s.params.statLayout (loadWord r.mem s.params.addrStatus))
    refine ⟨t, _, ht, hctl, hparams, hon, rfl, ?_, ?_⟩
    · rw [RefDevice.idleWith, hstored]
      exact statNewData_statAck hvalid _
    · rw [RefDevice.idleWith, hstored, hflag, hrsps]
      rfl
  · have hzero := statNewData_eq_zero hvalid hflag
    exact ⟨_, r.idleWith r.mem, exec_poll_onReference_of_clear h hc hflag, rfl, rfl,
      (h.afterRead.withStat _).toIdle.respond, rfl, hzero, by rw [hzero]; rfl⟩

end

/-- Settles O58: the first `POLL` leaves the flag clear in the device, so the second one reads it and writes nothing. -/
theorem acknowledgeExactlyOnce : Obligations.AcknowledgeExactlyOnce := by
  intro s r hvalid hl hc hdev hp hr
  obtain ⟨t, r', ht, hctl, hparams, hon, hidle, hzero, hrsps⟩ :=
    exec_poll_onReference ⟨hl, hdev, hp, hr⟩ hc hvalid.2
  have hclear : statNewData t.params.statLayout (loadWord r'.mem t.params.addrStatus) ≠ 1 := by
    rw [hparams, hzero]; decide
  have hu := exec_poll_onReference_of_clear hon (by rw [hctl]; decide) hclear
  obtain ⟨hread, hres⟩ := memRead_reference_one t.params t.params.addrStatus hon.present hon.refusals
  rw [← hon.dev] at hread hres
  refine ⟨t, _, _, ht, hu, hrsps, ?rsps, ?dev, ?bus⟩
  case rsps => rw [respond_rsps, hparams]; rfl
  case dev => exact hread.trans (by rw [hidle, hon.dev])
  case bus =>
    have hevents := memRead_one_events hres
    rw [lowByte_swap16, highByte_swap16] at hevents
    rw [← hparams]
    exact congrArg (t.bus ++ ·) hevents

/-! ### Completion (20_memory.md R71) -/

/-- The row reads of a capture all succeed. -/
theorem readRows_reference (p : Params) {r : RefDevice} (hp : r.present = true) (hr : r.refusals = [])
    (rows : List Nat) :
    ∃ q, readRows p (.reference r) rows = some q := by
  induction rows generalizing r with
  | nil => exact ⟨_, rfl⟩
  | cons k rows ih =>
    obtain ⟨hdev, hres⟩ := memRead_reference p (rowAddr p k) (n := 32) (by decide) hp hr
    obtain ⟨q, hq⟩ := ih (r := r.idleWith r.mem) hp hr
    rw [readRows, hres, hdev, hq]
    exact ⟨_, rfl⟩

/-- The command answers OK and leaves the bus free. -/
def Completes (i : Instr) (s : State) : Prop :=
  ∃ t q, exec i s = .next t ∧ t.rsps = s.rsps ++ [q] ∧ q.err = .ok ∧ t.link = .free

section
variable {s : State} {r : RefDevice} {addr : Word} {n : Nat} (h : OnReference s r)
include h

theorem brd_completes (hn : n ≤ 32) : Completes (.brd addr n) s := by
  obtain ⟨ws, hread⟩ := busRead_onReference (addr := addr) h n
  exact ⟨_, _, exec_brd_of_busRead_ok hn hread, rfl, rfl, h.link⟩

theorem bwr_completes (hn : n ≤ 32) : Completes (.bwr addr n) s :=
  ⟨_, _, exec_bwr_of_busWrite_ok hn (busWrite_onReference h (by rw [firstX_length hn]; exact hn)), rfl, rfl, h.link⟩

theorem rdreg_completes : Completes (.rdreg addr) s := by
  obtain ⟨t, ht, hrsps, hlink⟩ := exec_rdreg_onReference addr h
  exact ⟨t, _, ht, hrsps, rfl, hlink⟩

theorem wrreg_completes : Completes (.wrreg addr) s := by
  obtain ⟨t, ht, hrsps, hon⟩ := exec_wrreg_onReference addr h
  exact ⟨t, _, ht, hrsps, rfl, hon.link⟩

theorem init_completes : Completes .init s := by
  have hstart : OnReference s.initStart r := h.onBlock
  exact ⟨_, _, exec_init_of_regRead_ok (regWrite_onReference hstart _) (regRead_onReference (hstart.afterWrite _)), rfl,
    rfl, h.link⟩

variable (hvalid : s.params.Valid) (hc : s.ctl ≠ .uninit)
include hvalid hc

theorem poll_completes : Completes .poll s := by
  obtain ⟨t, r', ht, _, _, hon, _, _, hrsps⟩ := exec_poll_onReference h hc hvalid.2
  exact ⟨t, _, ht, hrsps, rfl, hon.link⟩

theorem capture_completes : Completes .capture s := by
  obtain ⟨q, hq⟩ := readRows_reference s.params h.present h.refusals (rowsFrom s.subpage.toNat)
  rw [← h.dev] at hq
  exact ⟨_, _, exec_capture_done hvalid h.link hc hq, rfl, rfl, h.link⟩

end

/-- Settles O59, command by command. -/
theorem busCommandsCompleteOverReferenceDevice : Obligations.BusCommandsCompleteOverReferenceDevice := by
  intro s r addr n hvalid hl hdev hp hr hn
  have h : OnReference s r := ⟨hl, hdev, hp, hr⟩
  exact ⟨brd_completes h hn, bwr_completes h hn, rdreg_completes h, wrreg_completes h, init_completes h,
    fun hc => ⟨poll_completes h hvalid hc, capture_completes h hvalid hc⟩⟩

end Sys2Proof.Machine
end
